-- ==== Sys2Proof/Word.lean ====
section
/-! DEFINITION. The word types of HUFFCORE, with the widths of rules R5 and R20. All values are unsigned (R7). -/

namespace Sys2Proof

/-- A command word (CMD_W = 64, R5, R71). -/
abbrev CmdWord := BitVec 64

/-- A word of the response channel (RSP_W = 32, R5, R72). -/
abbrev RspWord := BitVec 32

/-- A byte of ENC_OUT, of DEC_OUT, or a byte operand (R72, R102). -/
abbrev Byte := BitVec 8

/-- A symbol identifier (SYM_W = 9): 0 to 255 a byte value, 256 END_OF_STREAM, 257 to 511 reserved (R5). -/
abbrev Sym := BitVec 9

/-- A count loaded into a leaf (COUNT_W = 32, R5). -/
abbrev Count := BitVec 32

/-- A node weight (WEIGHT_W = 41, R5). -/
abbrev Weight := BitVec 41

/-- An index of the node arena ND or of the decode trie TN (IDX_W = 10, R5). -/
abbrev Idx := BitVec 10

/-- A codeword: the finite sequence of bits `c[0], c[1], ...`, `c[0]` first (R8). -/
abbrev Codeword := List Bool

end Sys2Proof
end

