-- ==== Sys2Proof/Config.lean ====
section
/-! DEFINITION. The implementation parameters of HUFFCORE (R5). They are constants of the one version of the block
(R1), "not model arguments"; the spec leaves no value open (93_implementation_defined.md has no `parameter` entry), so
this file holds no free value. -/

namespace Sys2Proof

/-- NSYM_MAX: the largest number of symbol-table entries, and the number of entries of CT and SEEN (R5, R70). -/
abbrev nsymMax : Nat := 257

/-- EOS: the symbol identifier of END_OF_STREAM (R5, conflict C1). -/
abbrev eos : Sym := 256

/-- ND_SIZE: entries in the node arena ND, and bits of INQ (R5, R70). -/
abbrev ndSize : Nat := 513

/-- CW_MAX: the largest codeword length in bits (R5). -/
abbrev cwMax : Nat := 256

/-- TN_SIZE: entries in the decode trie TN (R5). -/
abbrev tnSize : Nat := 1024

/-- The constant of control register ID (R41). -/
abbrev idValue : RspWord := 0x48554631

/-- The value at which ICWCNT saturates (ICW_W = 32, R5, R34). -/
abbrev icwMax : Nat := 0xFFFFFFFF

end Sys2Proof
end

