-- ==== Sys2Proof/Syntax.lean ====
section
/-! DEFINITION. The commands of HUFFCORE: one constructor per row of spec/opcode_table.json, in the table's order,
with the operand fields of rule R101 at their widths. -/

namespace Sys2Proof

/-- A command with its operands (R100 to R104). -/
inductive Instr where
  /-- NOP (R131). -/
  | nop
  /-- SRST, soft reset (R132). -/
  | srst
  /-- RDREG r: read control register `r` (R133). -/
  | rdreg (r : BitVec 8)
  /-- TBCLR: clear the tree builder (R141). -/
  | tbclr
  /-- LDSYM sym, cnt: load one symbol-table entry (R142). -/
  | ldsym (sym : Sym) (cnt : Count)
  /-- BUILD: merge the working set into one tree (R146). -/
  | build
  /-- RDNODE idx, sel: read a view of ND[idx] (R148). -/
  | rdnode (idx : Idx) (sel : BitVec 2)
  /-- ASSIGN: give every leaf its codeword (R164). -/
  | assign
  /-- CTCLR: clear the code table (R166). -/
  | ctclr
  /-- CTSET sym: CT[sym] from CW (R167). -/
  | ctset (sym : Sym)
  /-- CTGET sym: CW from CT[sym] (R168). -/
  | ctget (sym : Sym)
  /-- CWCLR: clear the codeword register (R170). -/
  | cwclr
  /-- CWPUSH n, bits: append `n` bits to CW (R171). -/
  | cwpush (n : BitVec 6) (bits : BitVec 32)
  /-- CWRD k: read 32 bits of CW (R172). -/
  | cwrd (k : BitVec 3)
  /-- ENCSTART: open a packed stream (R183). -/
  | encstart
  /-- ENCBYTE b: pack the codeword of byte `b` (R184). -/
  | encbyte (b : Byte)
  /-- ENCEND: pack the sentinel, flush, close (R185). -/
  | encend
  /-- ENCSTOP: abandon the packed stream (R186). -/
  | encstop
  /-- TRCLR: clear the decode trie (R202). -/
  | trclr
  /-- TRINS sym: insert the codeword in CW with symbol `sym` (R203). -/
  | trins (sym : Sym)
  /-- RDTRIE idx: read TN[idx] (R205). -/
  | rdtrie (idx : Idx)
  /-- DECSTART: open a decode call (R208). -/
  | decstart
  /-- DECBYTE b: decode the eight bits of `b` (R210). -/
  | decbyte (b : Byte)
  /-- DECSTOP: close the decode call (R212). -/
  | decstop
  deriving DecidableEq, Repr

end Sys2Proof
end

