-- ==== Sys2Proof/WellFormed.lean ====
section
/-! DEFINITION. The legal operand values of rule R103. A command whose operands fail the check is an illegal word
(R112). -/

namespace Sys2Proof

/-- `sym ≤ 256` (R103, symbols 257 to 511 are reserved). -/
def symLegal (sym : Sym) : Bool := sym.toNat ≤ 256

/-- The operand constraints of rule R103; every command it does not list takes every value of its fields. -/
def Instr.wellFormed : Instr → Bool
  | .rdreg r => r.toNat ≤ 13
  | .ldsym sym _ => symLegal sym
  | .rdnode idx sel => idx.toNat ≤ 512 && sel.toNat ≤ 2
  | .ctset sym => symLegal sym
  | .ctget sym => symLegal sym
  | .cwpush n bits => 1 ≤ n.toNat && n.toNat ≤ 32 && bits.toNat < 2 ^ n.toNat
  | .trins sym => symLegal sym
  | .nop | .srst | .tbclr | .build | .assign | .ctclr | .cwclr | .cwrd _ => true
  | .encstart | .encbyte _ | .encend | .encstop => true
  | .trclr | .rdtrie _ | .decstart | .decbyte _ | .decstop => true

end Sys2Proof
end

