-- ==== Sys2Proof/Decode.lean ====
section
/-! DEFINITION. Decoding and encoding of the 64-bit command word (R100 to R105, R110, R112). Decoding is total and
reads no state; a word that is no command is rejected with the name of the check it fails. -/

namespace Sys2Proof

/-! ## The fields of a word (R100, R101) -/

/-- OP, bits 63:56. -/
def opField (w : CmdWord) : BitVec 8 := w.extractLsb' 56 8
/-- A[7:0], bits 39:32: the register number of RDREG, the byte of ENCBYTE and DECBYTE. -/
def byteField (w : CmdWord) : BitVec 8 := w.extractLsb' 32 8
/-- A[8:0], bits 40:32: a symbol. -/
def symField (w : CmdWord) : Sym := w.extractLsb' 32 9
/-- A[9:0], bits 41:32: an entry index. -/
def idxField (w : CmdWord) : Idx := w.extractLsb' 32 10
/-- A[17:16], bits 49:48: the selector of RDNODE. -/
def selField (w : CmdWord) : BitVec 2 := w.extractLsb' 48 2
/-- A[5:0], bits 37:32: the bit count of CWPUSH. -/
def countField (w : CmdWord) : BitVec 6 := w.extractLsb' 32 6
/-- A[2:0], bits 34:32: the word number of CWRD. -/
def wordField (w : CmdWord) : BitVec 3 := w.extractLsb' 32 3
/-- D, bits 31:0. -/
def dataField (w : CmdWord) : BitVec 32 := w.extractLsb' 0 32

/-! ## The opcode map (R101, R104, R105) -/

/-- The formats of rule R101. -/
inductive Format where
  | Z | G | L | S | B | P | K | X | T
  deriving DecidableEq, Repr

/-- The masks of rule R105: OP and every must-be-zero bit. -/
def formatMask : Format → CmdWord
  | .Z => 0xFFFFFFFFFFFFFFFF
  | .G => 0xFFFFFF00FFFFFFFF
  | .L => 0xFFFFFE0000000000
  | .S => 0xFFFFFE00FFFFFFFF
  | .B => 0xFFFFFF00FFFFFFFF
  | .P => 0xFFFFFFC000000000
  | .K => 0xFFFFFFF8FFFFFFFF
  | .X => 0xFFFCFC00FFFFFFFF
  | .T => 0xFFFFFC00FFFFFFFF

/-- The format column of rule R104. -/
def formatOf : Instr → Format
  | .nop | .srst | .tbclr | .build | .assign | .ctclr | .cwclr => .Z
  | .encstart | .encend | .encstop | .trclr | .decstart | .decstop => .Z
  | .rdreg _ => .G
  | .ldsym _ _ => .L
  | .ctset _ | .ctget _ | .trins _ => .S
  | .encbyte _ | .decbyte _ => .B
  | .cwpush _ _ => .P
  | .cwrd _ => .K
  | .rdnode _ _ => .X
  | .rdtrie _ => .T

/-- The OP column of rule R104. -/
def opcodeOf : Instr → BitVec 8
  | .nop => 0x00
  | .srst => 0x01
  | .rdreg _ => 0x02
  | .tbclr => 0x10
  | .ldsym _ _ => 0x11
  | .build => 0x12
  | .rdnode _ _ => 0x13
  | .assign => 0x20
  | .ctclr => 0x21
  | .ctset _ => 0x22
  | .ctget _ => 0x23
  | .cwclr => 0x28
  | .cwpush _ _ => 0x29
  | .cwrd _ => 0x2A
  | .encstart => 0x30
  | .encbyte _ => 0x31
  | .encend => 0x32
  | .encstop => 0x33
  | .trclr => 0x40
  | .trins _ => 0x41
  | .rdtrie _ => 0x42
  | .decstart => 0x48
  | .decbyte _ => 0x49
  | .decstop => 0x4A

/-- Class R opcodes "are exactly 0x02, 0x13, 0x2A and 0x42"; every other value of OP is class W (R104). -/
def opClassR (op : BitVec 8) : Bool := op == 0x02 || op == 0x13 || op == 0x2A || op == 0x42

/-! ## Decoding (R110, R112) -/

/-- Why a word is illegal (R112). All three raise ILLEGAL_CMD; the names keep the checks of rule R110 apart. -/
inductive Illegal where
  /-- OP is none of the 24 assigned values. -/
  | reservedOpcode
  /-- A bit that the format does not assign is 1 (R101). -/
  | mustBeZero
  /-- An operand lies outside rule R103. -/
  | operandRange
  deriving DecidableEq, Repr

/-- The two checks that follow the opcode: must-be-zero bits, then operand constraints (R110). -/
def accept (f : Format) (w : CmdWord) (i : Instr) : Except Illegal Instr :=
  if w &&& formatMask f ≠ w &&& 0xFF00000000000000 then .error .mustBeZero
  else if i.wellFormed then .ok i
  else .error .operandRange

/-- Decoding of a command word (R110): "every 64-bit word decodes either to one command with its operands or to
'illegal'". -/
def decode (w : CmdWord) : Except Illegal Instr :=
  match (opField w).toNat with
  | 0x00 => accept .Z w .nop
  | 0x01 => accept .Z w .srst
  | 0x02 => accept .G w (.rdreg (byteField w))
  | 0x10 => accept .Z w .tbclr
  | 0x11 => accept .L w (.ldsym (symField w) (dataField w))
  | 0x12 => accept .Z w .build
  | 0x13 => accept .X w (.rdnode (idxField w) (selField w))
  | 0x20 => accept .Z w .assign
  | 0x21 => accept .Z w .ctclr
  | 0x22 => accept .S w (.ctset (symField w))
  | 0x23 => accept .S w (.ctget (symField w))
  | 0x28 => accept .Z w .cwclr
  | 0x29 => accept .P w (.cwpush (countField w) (dataField w))
  | 0x2A => accept .K w (.cwrd (wordField w))
  | 0x30 => accept .Z w .encstart
  | 0x31 => accept .B w (.encbyte (byteField w))
  | 0x32 => accept .Z w .encend
  | 0x33 => accept .Z w .encstop
  | 0x40 => accept .Z w .trclr
  | 0x41 => accept .S w (.trins (symField w))
  | 0x42 => accept .T w (.rdtrie (idxField w))
  | 0x48 => accept .Z w .decstart
  | 0x49 => accept .B w (.decbyte (byteField w))
  | 0x4A => accept .Z w .decstop
  | _ => .error .reservedOpcode

/-! ## Encoding (R100, R101) -/

/-- The 24-bit operand field A of a command (R101). -/
def aField : Instr → BitVec 24
  | .rdreg r => 0#16 ++ r
  | .ldsym sym _ => 0#15 ++ sym
  | .ctset sym => 0#15 ++ sym
  | .ctget sym => 0#15 ++ sym
  | .trins sym => 0#15 ++ sym
  | .encbyte b => 0#16 ++ b
  | .decbyte b => 0#16 ++ b
  | .cwpush n _ => 0#18 ++ n
  | .cwrd k => 0#21 ++ k
  | .rdnode idx sel => 0#6 ++ sel ++ 0#6 ++ idx
  | .rdtrie idx => 0#14 ++ idx
  | .nop | .srst | .tbclr | .build | .assign | .ctclr | .cwclr => 0
  | .encstart | .encend | .encstop | .trclr | .decstart | .decstop => 0

/-- The 32-bit data field D of a command, "used only by LDSYM and CWPUSH" (R100). -/
def dField : Instr → BitVec 32
  | .ldsym _ cnt => cnt
  | .cwpush _ bits => bits
  | .nop | .srst | .rdreg _ | .tbclr | .build | .rdnode _ _ | .assign | .ctclr => 0
  | .ctset _ | .ctget _ | .cwclr | .cwrd _ | .encstart | .encbyte _ | .encend => 0
  | .encstop | .trclr | .trins _ | .rdtrie _ | .decstart | .decbyte _ | .decstop => 0

/-- The command word of a command: OP, A, D from the most significant end (R100). -/
def encode (i : Instr) : CmdWord := opcodeOf i ++ aField i ++ dField i

/-! ## A word as bytes, and the host's table word -/

/-- A command word written as bytes, "the most significant byte is written first" (R76). -/
def bytesOfWord (w : CmdWord) : List Byte := (List.range 8).map fun i => w.extractLsb' (8 * (7 - i)) 8

/-- The word that a listing of eight bytes writes (R76). -/
def wordOfBytes (bs : List Byte) : CmdWord := bs.foldl (fun w b => (w <<< 8) ||| b.setWidth 64) 0

/-- The 64-bit word whose low `nbits` bits are those of `w`: the channel carries whole 64-bit words (R71). -/
def tableWord (nbits w : Nat) : CmdWord := BitVec.ofNat 64 (w % 2 ^ nbits)

/-- What the decoder reads from a word numbered as spec/opcode_table.json numbers it. -/
def decodeTableWord (nbits w : Nat) : Option Instr :=
  match decode (tableWord nbits w) with
  | .ok i => some i
  | .error _ => none

end Sys2Proof
end

