-- ==== Sys2Proof/Machine/State.lean ====
section
/-! DEFINITION. The state of HUFFCORE as plain data: every item of rule R20, grouped by the rule's unit column, the
output streams (R40), and what the host does next. Also the outcomes a step can have beside a next state, and the
state right after reset (R280). -/

namespace Sys2Proof.Machine

/-- The contents of one index space (R70): (index, entry) pairs, indices strictly rising, zero entries not listed.
An unlisted index reads as the zero entry (R20, U18). -/
abbrev Mem (α : Type) := List (Nat × α)

/-- An entry of the node arena ND (R24). -/
@[ext]
structure Node where
  leaf   : Bool
  sym    : Sym
  left   : Idx
  right  : Idx
  weight : Weight
  deriving DecidableEq, Repr

/-- The all-zero ND entry: an unallocated one (R24). -/
abbrev Node.zero : Node := { leaf := false, sym := 0, left := 0, right := 0, weight := 0 }

/-- An entry of the decode trie TN; a child pointer of 0 means "no child" (R32). -/
@[ext]
structure TrieNode where
  child0 : Idx
  child1 : Idx
  leaf   : Bool
  sym    : Sym
  deriving DecidableEq, Repr

/-- The all-zero TN entry: an unallocated one (R32). -/
abbrev TrieNode.zero : TrieNode := { child0 := 0, child1 := 0, leaf := false, sym := 0 }

/-- The values of TDST; 3 is never taken (R33, U17; DEDUCED, log 5). -/
inductive Tdst where
  | idle
  | run
  | done
  deriving DecidableEq, Repr

/-- The values of FCAUSE; codes 9 to 15 are never written (R251, U17; DEDUCED, log 5). -/
inductive Cause where
  | none
  | illegalCmd
  | sequence
  | badTable
  | badCodeword
  | trieConflict
  | allocFailure
  | unresolvedSymbol
  | emptyCodebook
  deriving DecidableEq, Repr

/-- Unit TB (R20, R24 to R28). -/
@[ext]
structure TbState where
  nd    : Mem Node
  inq   : Mem Bool
  seen  : Mem Bool
  nsym  : BitVec 9
  nnode : BitVec 10
  root  : Idx
  built : Bool
  deriving DecidableEq, Repr

/-- Unit CA: the code table and the codeword register (R20, R22, R29). An entry of CT is `none` for valid = 0 and
`some c` for valid = 1 with codeword `c`; len is the length of the list, and bits at or beyond len are 0 (U18;
DEDUCED, log 4). -/
@[ext]
structure CaState where
  ct : Mem (Option Codeword)
  cw : Codeword
  deriving DecidableEq, Repr

/-- Unit BP (R20, R30). -/
@[ext]
structure BpState where
  acc    : BitVec 8
  nacc   : BitVec 3
  active : Bool
  deriving DecidableEq, Repr

/-- Unit BU: the bit cursor (R20, R31). -/
@[ext]
structure BuState where
  ubyte : BitVec 8
  urem  : BitVec 4
  deriving DecidableEq, Repr

/-- Unit TD (R20, R32 to R34). -/
@[ext]
structure TdState where
  tn     : Mem TrieNode
  tncnt  : BitVec 11
  cur    : Idx
  tdst   : Tdst
  icwcnt : BitVec 32
  drop   : Bool
  deriving DecidableEq, Repr

/-- The fault latch (R20, R35). -/
@[ext]
structure FaultLatch where
  fatal  : Bool
  fcause : Cause
  fcmd   : CmdWord
  deriving DecidableEq, Repr

/-- The output streams, oldest element first; they only grow (R40, R72). -/
@[ext]
structure Streams where
  rsp    : List RspWord
  encOut : List Byte
  decOut : List Byte
  deriving DecidableEq, Repr

/-- What the host can do to the block (R71, R73, R236, U19): present one whole command word, or assert `rst`. -/
inductive HostMove where
  | cmd (w : CmdWord)
  | rst
  deriving DecidableEq, Repr

/-- The machine: the architectural state of rule R20 by unit, what has been sent, and the host's coming moves. -/
@[ext]
structure State where
  tb    : TbState
  ca    : CaState
  bp    : BpState
  bu    : BuState
  td    : TdState
  latch : FaultLatch
  /-- RSP, ENC_OUT and DEC_OUT (R40; kept in State: DESIGN CHOICE, log 2). -/
  out   : Streams
  /-- MODEL'S OWN: what the host does next, oldest first; a step takes the head (R71; DESIGN CHOICE, log 1). -/
  input : List HostMove
  deriving DecidableEq, Repr

/-- Where the model itself stops. None of these can happen in a state that rule R44 allows; U17 says that a model
which starts from other states "should `refuse` states outside rule R44". All are SAFE: the model stops where the
rules give no effect (DESIGN CHOICE, log 3). A fatal fault of the hardware is no `Fault`: it is a next state, R256. -/
inductive Fault where
  /-- Raised by BUILD and ASSIGN: an index read from memory or a counter names no entry of ND (513 entries) or CT
  (257 entries), R70, R136. Safe. -/
  | outsideIndexSpace
  /-- Raised by BUILD: `argmin` of an empty working set, which rule R145 does not define. Safe. -/
  | emptyWorkingSet
  /-- Raised by LDSYM and BUILD: a counter or a weight would not fit its register, where rule R137 says that the sum
  is exact and never wraps. Safe. -/
  | sumOutOfRange
  /-- Raised by ASSIGN: a path longer than CW_MAX = 256 bits, which no codeword of CT can hold (R29, R163). Safe. -/
  | walkTooDeep
  deriving DecidableEq, Repr

/-- Why an instruction has no meaning. -/
inductive Refusal where
  /-- Raised only by `exec`'s arm of an instruction without a meaning; no arm uses it now. Safe. -/
  | notModelled (mnemonic : String)
  deriving DecidableEq, Repr

/-- The outcome of one step of this machine. -/
abbrev Out := Host.Outcome State Fault Refusal

/-- The state right after reset: "everything is zero", TDST is IDLE and TNCNT is 1 (R20, R280); nothing sent yet, and
no move of the host pending. -/
def State.reset : State where
  tb := { nd := [], inq := [], seen := [], nsym := 0, nnode := 0, root := 0, built := false }
  ca := { ct := [], cw := [] }
  bp := { acc := 0, nacc := 0, active := false }
  bu := { ubyte := 0, urem := 0 }
  td := { tn := [], tncnt := 1, cur := 0, tdst := .idle, icwcnt := 0, drop := false }
  latch := { fatal := false, fcause := .none, fcmd := 0 }
  out := { rsp := [], encOut := [], decOut := [] }
  input := []

end Sys2Proof.Machine
end

