-- ==== Sys2Proof/Machine/Ops.lean ====
section
/-! DEFINITION. The shared operations: the index spaces (R70), the channels (R72), fault entry (R256), the reset of
every item of state (R280, R281), and the order of events around a command (R111, R112, R257). -/

namespace Sys2Proof.Machine

/-! ## Index spaces: `MemRead` and `MemWrite` of rule R9 -/

/-- `MemRead(M, i)`: entry `i` of an index space; an unlisted index reads as the zero entry (R9, R20). -/
def memRead {α : Type} (zero : α) : Mem α → Nat → α
  | [], _ => zero
  | (k, v) :: m, i => if k = i then v else memRead zero m i

/-- Insert an entry at its place in rising order of index. -/
def memInsert {α : Type} (i : Nat) (v : α) : Mem α → Mem α
  | [] => [(i, v)]
  | (k, u) :: m => if i < k then (i, v) :: (k, u) :: m else (k, u) :: memInsert i v m

/-- `MemWrite(M, i, v)`: one whole entry is written (R9, R70). Writing the zero entry unlists the index, so that
equal memories are equal lists. -/
def memWrite {α : Type} [DecidableEq α] (zero : α) (m : Mem α) (i : Nat) (v : α) : Mem α :=
  let rest := m.filter fun e => e.1 != i
  if v = zero then rest else memInsert i v rest

/-- The canonical form of an index space of `size` entries: indices strictly rising and below `size`, no zero entry
listed. -/
abbrev memWf {α : Type} (zero : α) (size : Nat) (m : Mem α) : Prop :=
  m.Pairwise (fun a b => a.1 < b.1) ∧ ∀ e ∈ m, e.1 < size ∧ e.2 ≠ zero

/-- `ND[i]`. -/
def ndRead (nd : Mem Node) (i : Nat) : Node := memRead Node.zero nd i
/-- `INQ[i]`. -/
def inqRead (inq : Mem Bool) (i : Nat) : Bool := memRead false inq i
/-- `SEEN[s]`. -/
def seenRead (seen : Mem Bool) (sym : Sym) : Bool := memRead false seen sym.toNat
/-- `CT[s]`: `none` for valid = 0 (R29). -/
def ctRead (ct : Mem (Option Codeword)) (sym : Sym) : Option Codeword := memRead none ct sym.toNat
/-- `TN[p]`; every 10-bit index is in the space (R78). -/
def tnRead (tn : Mem TrieNode) (p : Idx) : TrieNode := memRead TrieNode.zero tn p.toNat

/-- `ND[i] <- v`. -/
def ndWrite (nd : Mem Node) (i : Nat) (v : Node) : Mem Node := memWrite Node.zero nd i v
/-- `INQ[i] <- v`. -/
def inqWrite (inq : Mem Bool) (i : Nat) (v : Bool) : Mem Bool := memWrite false inq i v
/-- `SEEN[s] <- v`. -/
def seenWrite (seen : Mem Bool) (sym : Sym) (v : Bool) : Mem Bool := memWrite false seen sym.toNat v
/-- `CT[s] <- v`. -/
def ctWrite (ct : Mem (Option Codeword)) (sym : Sym) (v : Option Codeword) : Mem (Option Codeword) :=
  memWrite none ct sym.toNat v
/-- `TN[p] <- v`. -/
def tnWrite (tn : Mem TrieNode) (p : Idx) (v : TrieNode) : Mem TrieNode := memWrite TrieNode.zero tn p.toNat v

/-! ## Channels (R9, R40, R72) -/

/-- `respond(v)`: append to RSP. -/
def respond (v : RspWord) (s : State) : State := { s with out := { s.out with rsp := s.out.rsp ++ [v] } }

/-- `emit_enc(b)`: append to ENC_OUT. -/
def emitEnc (b : Byte) (s : State) : State := { s with out := { s.out with encOut := s.out.encOut ++ [b] } }

/-- `emit_dec(b)`: append to DEC_OUT. -/
def emitDec (b : Byte) (s : State) : State := { s with out := { s.out with decOut := s.out.decOut ++ [b] } }

/-- The pin `fatal_o`, "1 exactly when FATAL = 1" (R262). -/
def fatalO (s : State) : Bool := s.latch.fatal

/-! ## Faults and reset -/

/-- Fault entry for the command word `w` (R256): the latch keeps the first fault, and nothing else changes. -/
def raiseFatal (cause : Cause) (w : CmdWord) (s : State) : State :=
  if s.latch.fatal then s else { s with latch := { fatal := true, fcause := cause, fcmd := w } }

/-- An illegal word (R112): ILLEGAL_CMD, and the response 0 if its opcode is of class R. -/
def illegalWord (w : CmdWord) (s : State) : State :=
  if opClassR (opField w) then respond 0 (raiseFatal .illegalCmd w s) else raiseFatal .illegalCmd w s

/-- Every item of architectural state takes its reset value; what has been sent is not recalled (R40, R132, R280,
R281). The one operation behind SRST and `rst`; it is also the only way out of FATAL = 1 (R258). -/
def resetAll (s : State) : State := { State.reset with out := s.out, input := s.input }

/-! ## The order of events around one command (R111, R130, R254) -/

/-- A fatal fault raised by the command `i`; its word is `encode i` (R251: "FCMD always records the whole 64-bit
command word that raised the fault"; DEDUCED, log 6). -/
def fail (cause : Cause) (i : Instr) (s : State) : Out := .next (raiseFatal cause (encode i) s)

/-- A class W command other than NOP and SRST: the encoding check first, then discarded while FATAL = 1 (R257), else
its own checks and its effect. Operands that no word decodes to count as the illegal word (DEDUCED, log 9). -/
def classW (i : Instr) (s : State) (body : Out) : Out :=
  if i.wellFormed then if s.latch.fatal then .next s else body else .next (illegalWord (encode i) s)

/-- A class R command: the encoding check, then one response, whatever FATAL is (R10, R111, R257). -/
def classR (i : Instr) (s : State) (v : RspWord) : Out :=
  if i.wellFormed then .next (respond v s) else .next (illegalWord (encode i) s)

end Sys2Proof.Machine
end

