-- ==== Sys2Proof/Machine/Operands.lean ====
section
/-! DEFINITION. Operand forms (R102, R171) and the 32-bit views that class R commands respond (R148, R172, R205). -/

namespace Sys2Proof.Machine

/-- `zext_9(b)`: the symbol of a byte operand; it is never END_OF_STREAM (R102). -/
def byteSym (b : Byte) : Sym := b.setWidth 9

/-- `zext_41(cnt)`: the weight of a leaf (R142). -/
def countWeight (cnt : Count) : Weight := cnt.setWidth 41

/-- The bits that CWPUSH appends: D[n-1] first, D[0] last (R171). -/
def pushBits (n : BitVec 6) (bits : BitVec 32) : Codeword := (List.range n.toNat).reverse.map bits.getLsbD

/-- A 32-bit word read from bits, the earliest in bit 31 (R76). -/
def wordOfBits (bit : Nat → Bool) : RspWord :=
  (List.range 32).foldl (fun v j => (v <<< 1) ||| (BitVec.ofBool (bit j)).setWidth 32) 0

/-- The response of CWRD k: `v[31 - j] = CW.bits[32 * k + j]`, 0 at or beyond CW.len (R172). -/
def cwWord (cw : Codeword) (k : BitVec 3) : RspWord := wordOfBits fun j => cw.getD (32 * k.toNat + j) false

/-- The response of RDNODE for the entry `e` whose INQ bit is `inq` (R148). -/
def nodeView (e : Node) (inq : Bool) (sel : BitVec 2) : RspWord :=
  match sel.toNat with
  | 0 => BitVec.ofBool e.leaf ++ BitVec.ofBool inq ++ 0#1 ++ e.sym ++ e.left ++ e.right
  | 1 => e.weight.extractLsb' 0 32
  | _ => 0#23 ++ e.weight.extractLsb' 32 9

/-- The response of RDTRIE for the entry `e` (R205). -/
def trieView (e : TrieNode) : RspWord := BitVec.ofBool e.leaf ++ 0#2 ++ e.sym ++ e.child0 ++ e.child1

end Sys2Proof.Machine
end

