-- ==== Sys2Proof/Machine/Flags.lean ====
section
/-! DEFINITION. The flags and the control registers, all read-only views of state (R41 to R43). -/

namespace Sys2Proof.Machine

/-- The code of TDST (R33). -/
def tdstCode : Tdst → BitVec 2
  | .idle => 0
  | .run => 1
  | .done => 2

/-- The code of FCAUSE (R251). -/
def causeCode : Cause → BitVec 4
  | .none => 0
  | .illegalCmd => 1
  | .sequence => 2
  | .badTable => 3
  | .badCodeword => 4
  | .trieConflict => 5
  | .allocFailure => 6
  | .unresolvedSymbol => 7
  | .emptyCodebook => 8

/-- STATUS.ICW: "1 when ICWCNT ≠ 0, else 0" (R42). -/
def icwFlag (s : State) : Bool := s.td.icwcnt != 0

/-- STATUS: 6 DROP, 5 ICW, 4:3 TDST, 2 BP_ACTIVE, 1 TB_BUILT, 0 FATAL (R42). -/
def statusWord (s : State) : RspWord :=
  0#25 ++ BitVec.ofBool s.td.drop ++ BitVec.ofBool (icwFlag s) ++ tdstCode s.td.tdst ++ BitVec.ofBool s.bp.active ++
    BitVec.ofBool s.tb.built ++ BitVec.ofBool s.latch.fatal

/-- Control register `r` (R41). Numbers 14 to 255 are reserved; RDREG of one never reaches this view. -/
def controlReg (s : State) (r : BitVec 8) : RspWord :=
  match r.toNat with
  | 0 => idValue
  | 1 => statusWord s
  | 2 => (causeCode s.latch.fcause).setWidth 32
  | 3 => s.latch.fcmd.extractLsb' 32 32
  | 4 => s.latch.fcmd.extractLsb' 0 32
  | 5 => s.tb.nsym.setWidth 32
  | 6 => s.tb.nnode.setWidth 32
  | 7 => s.tb.root.setWidth 32
  | 8 => (BitVec.ofNat 9 s.ca.cw.length).setWidth 32
  | 9 => s.td.tncnt.setWidth 32
  | 10 => s.td.cur.setWidth 32
  | 11 => s.td.icwcnt
  | 12 => 0#21 ++ s.bp.nacc ++ s.bp.acc
  | 13 => 0#20 ++ s.bu.urem ++ s.bu.ubyte
  | _ => 0

end Sys2Proof.Machine
end

