-- ==== Sys2Proof/Machine/BitPacker.lean ====
section
/-! DEFINITION. The bit packer BP: ENCSTART, ENCBYTE, ENCEND, ENCSTOP (43_bit_packer.md). -/

namespace Sys2Proof.Machine

/-- The machine with other packer registers. -/
def setBp (bp : BpState) (s : State) : State := { s with bp := bp }

/-- `(ACC << 1) | b`, truncated to 8 bits (R181). -/
def accShift (acc : BitVec 8) (b : Bool) : BitVec 8 := (acc <<< 1) ||| (BitVec.ofBool b).setWidth 8

/-- `bp_push(b)` (R181): when eight bits are held, the byte is emitted and both registers are cleared. -/
def bpPush (s : State) (b : Bool) : State :=
  let acc := accShift s.bp.acc b
  let n := s.bp.nacc.toNat + 1
  if n = 8 then emitEnc acc (setBp { s.bp with acc := 0, nacc := 0 } s)
  else setBp { s.bp with acc := acc, nacc := BitVec.ofNat 3 n } s

/-- `for i = 0 to e.len - 1: bp_push(e.bits[i])` (R184, R185). -/
def pushCodeword (e : Codeword) (s : State) : State := e.foldl bpPush s

/-- `bp_flush()` (R182): 1 to 7 leftover bits leave as one byte, filled with zeros at the right. -/
def bpFlush (s : State) : State :=
  let s' := setBp { s.bp with acc := 0, nacc := 0 } s
  if 1 ≤ s.bp.nacc.toNat then emitEnc (s.bp.acc <<< (8 - s.bp.nacc.toNat)) s' else s'

/-- ENCSTART (R183). -/
def execEncstart (s : State) : Out := classW .encstart s (.next (setBp { acc := 0, nacc := 0, active := true } s))

/-- ENCBYTE b (R184); SEQUENCE if BP_ACTIVE = 0, UNRESOLVED_SYMBOL if CT[b] is not valid. -/
def execEncbyte (b : Byte) (s : State) : Out :=
  classW (.encbyte b) s <|
    if !s.bp.active then fail .sequence (.encbyte b) s
    else
      match ctRead s.ca.ct (byteSym b) with
      | none => fail .unresolvedSymbol (.encbyte b) s
      | some e => .next (pushCodeword e s)

/-- The last part of ENCEND: flush, then BP_ACTIVE <- 0 (R185). -/
def closeStream (s : State) : State :=
  let s' := bpFlush s
  setBp { s'.bp with active := false } s'

/-- ENCEND (R185); SEQUENCE if BP_ACTIVE = 0, UNRESOLVED_SYMBOL if CT[256] is not valid. -/
def execEncend (s : State) : Out :=
  classW .encend s <|
    if !s.bp.active then fail .sequence .encend s
    else
      match ctRead s.ca.ct eos with
      | none => fail .unresolvedSymbol .encend s
      | some e => .next (closeStream (pushCodeword e s))

/-- ENCSTOP (R186): the stream is abandoned, nothing is emitted. -/
def execEncstop (s : State) : Out := classW .encstop s (.next (setBp { acc := 0, nacc := 0, active := false } s))

end Sys2Proof.Machine
end

