-- ==== Sys2Proof/Machine/CodeAssigner.lean ====
section
/-! DEFINITION. The code assigner CA, the code table CT and the codeword register CW: ASSIGN, CTCLR, CTSET, CTGET,
CWCLR, CWPUSH, CWRD (42_code_assigner.md). -/

namespace Sys2Proof.Machine

/-- `ND[i]` through a pointer read from memory; an index beyond ND does not occur (R136) and the model faults on it. -/
def ndFollow (nd : Mem Node) (i : Idx) : Except Fault Node :=
  if i.toNat < ndSize then .ok (ndRead nd i.toNat) else .error .outsideIndexSpace

/-- `codes(i, p)` of rule R161: the (symbol, codeword) pairs of the leaves below ND[i], whose own path is `p`; left
child bit 0, right child bit 1 (R162). The first argument is how many bits the path may still grow (CW_MAX in all). -/
def codes (nd : Mem Node) : Nat → Idx → Codeword → Except Fault (List (Sym × Codeword))
  | 0, i, p =>
    match ndFollow nd i with
    | .error f => .error f
    | .ok e => if e.leaf then .ok [(e.sym, p)] else .error .walkTooDeep
  | n + 1, i, p =>
    match ndFollow nd i with
    | .error f => .error f
    | .ok e =>
      if e.leaf then .ok [(e.sym, p)]
      else
        match codes nd n e.left (p ++ [false]), codes nd n e.right (p ++ [true]) with
        | .ok l, .ok r => .ok (l ++ r)
        | .error f, _ => .error f
        | .ok _, .error f => .error f

/-- `assignment` of rule R161: a tree that is a single leaf gets the codeword "0" (R162). -/
def assignment (nd : Mem Node) (root : Idx) : Except Fault (List (Sym × Codeword)) :=
  match ndFollow nd root with
  | .error f => .error f
  | .ok e => if e.leaf then .ok [(e.sym, [false])] else codes nd cwMax root []

/-- `CT[s] <- {valid = 1, ...}` for every pair of an assignment (R164); a symbol beyond CT does not occur (R136).
The order of the writes is that of the walk (DESIGN CHOICE, log 11). -/
def writeCodes : List (Sym × Codeword) → Mem (Option Codeword) → Except Fault (Mem (Option Codeword))
  | [], ct => .ok ct
  | (sym, p) :: rest, ct =>
    if symLegal sym then writeCodes rest (ctWrite ct sym (some p)) else .error .outsideIndexSpace

/-- The operation of ASSIGN (R164): CT is erased, then takes the assignment. -/
def assignCodes (nd : Mem Node) (root : Idx) : Except Fault (Mem (Option Codeword)) :=
  match assignment nd root with
  | .error f => .error f
  | .ok pairs => writeCodes pairs []

/-- The machine with another code table. -/
def setCt (ct : Mem (Option Codeword)) (s : State) : State := { s with ca := { s.ca with ct := ct } }

/-- The machine with another codeword in CW. -/
def setCw (cw : Codeword) (s : State) : State := { s with ca := { s.ca with cw := cw } }

/-- ASSIGN (R164); faults SEQUENCE if TB_BUILT = 0, SEQUENCE if BP_ACTIVE = 1. -/
def execAssign (s : State) : Out :=
  classW .assign s <|
    if !s.tb.built then fail .sequence .assign s
    else if s.bp.active then fail .sequence .assign s
    else
      match assignCodes s.tb.nd s.tb.root with
      | .ok ct => .next (setCt ct s)
      | .error f => .fault f

/-- CTCLR (R166); SEQUENCE if BP_ACTIVE = 1. -/
def execCtclr (s : State) : Out :=
  classW .ctclr s <| if s.bp.active then fail .sequence .ctclr s else .next (setCt [] s)

/-- CTSET sym (R167); SEQUENCE if BP_ACTIVE = 1, BAD_CODEWORD if CW.len = 0. -/
def execCtset (sym : Sym) (s : State) : Out :=
  classW (.ctset sym) s <|
    if s.bp.active then fail .sequence (.ctset sym) s
    else if s.ca.cw.length = 0 then fail .badCodeword (.ctset sym) s
    else .next (setCt (ctWrite s.ca.ct sym (some s.ca.cw)) s)

/-- CTGET sym (R168): the empty codeword if CT[sym] is not valid. -/
def execCtget (sym : Sym) (s : State) : Out :=
  classW (.ctget sym) s (.next (setCw ((ctRead s.ca.ct sym).getD []) s))

/-- CWCLR (R170). -/
def execCwclr (s : State) : Out := classW .cwclr s (.next (setCw [] s))

/-- CWPUSH n, bits (R171); BAD_CODEWORD if CW.len + n > 256. -/
def execCwpush (n : BitVec 6) (bits : BitVec 32) (s : State) : Out :=
  classW (.cwpush n bits) s <|
    if cwMax < s.ca.cw.length + n.toNat then fail .badCodeword (.cwpush n bits) s
    else .next (setCw (s.ca.cw ++ pushBits n bits) s)

/-- CWRD k (R172). -/
def execCwrd (k : BitVec 3) (s : State) : Out := classR (.cwrd k) s (cwWord s.ca.cw k)

end Sys2Proof.Machine
end

