-- ==== Sys2Proof/Machine/System.lean ====
section
/-! DEFINITION. The system commands NOP, SRST and RDREG (40_system.md). -/

namespace Sys2Proof.Machine

/-- NOP (R131): "no state changes and nothing is emitted", FATAL = 1 included. -/
def execNop (s : State) : Out := .next s

/-- SRST (R132): soft reset, FATAL = 1 included. -/
def execSrst (s : State) : Out := .next (resetAll s)

/-- RDREG r (R133). -/
def execRdreg (r : BitVec 8) (s : State) : Out := classR (.rdreg r) s (controlReg s r)

end Sys2Proof.Machine
end

