-- ==== Sys2Proof/Machine/TreeBuilder.lean ====
section
/-! DEFINITION. The tree builder TB: TBCLR, LDSYM, BUILD, RDNODE (41_tree_builder.md). -/

namespace Sys2Proof.Machine

/-- The cleared tree builder, also the reset state of the unit (R141, R20). -/
def tbCleared : TbState :=
  { nd := [], inq := [], seen := [], nsym := 0, nnode := 0, root := 0, built := false }

/-- The working set: the ND indices whose INQ bit is 1, each once (R26). -/
def workingSet (inq : Mem Bool) : List Nat :=
  ((inq.map Prod.fst).dedup).filter fun i => i < ndSize && inqRead inq i

/-- Whether `a` is selected before `b`: lower weight first, and among equal weights the lower index (R145). -/
def selectedBefore (nd : Mem Node) (a b : Nat) : Bool :=
  (ndRead nd a).weight.toNat < (ndRead nd b).weight.toNat ||
    ((ndRead nd a).weight.toNat == (ndRead nd b).weight.toNat && a < b)

/-- `argmin(INQ)` (R145): the index of the working set with the lexicographically smallest (weight, index); none for
an empty working set. -/
def argmin (tb : TbState) : Option Nat :=
  (workingSet tb.inq).foldl
    (fun best i =>
      match best with
      | none => some i
      | some b => if selectedBefore tb.nd i b then some i else some b)
    none

/-- The internal node that joins `a`, removed first, as left child and `b` as right child (R144, R147). -/
def joinNode (nd : Mem Node) (a b : Nat) : Node :=
  { leaf := false, sym := 0, left := BitVec.ofNat 10 a, right := BitVec.ofNat 10 b,
    weight := (ndRead nd a).weight + (ndRead nd b).weight }

/-- The last part of a merge: ND[NNODE] takes the join of `a` and `b`. NNODE beyond ND and a sum beyond 41 bits do
not occur (R137, R149); the model faults on them. -/
def placeJoin (tb : TbState) (a b : Nat) : Except Fault TbState :=
  let j := tb.nnode.toNat
  if ndSize ≤ j then .error .outsideIndexSpace
  else if 2 ^ 41 ≤ (ndRead tb.nd a).weight.toNat + (ndRead tb.nd b).weight.toNat then .error .sumOutOfRange
  else .ok { tb with nd := ndWrite tb.nd j (joinNode tb.nd a b), inq := inqWrite tb.inq j true, nnode := tb.nnode + 1 }

/-- `merge_step` (R144): remove the least node twice and join the two. -/
def mergeStep (tb : TbState) : Except Fault TbState :=
  match argmin tb with
  | none => .error .emptyWorkingSet
  | some a =>
    let tb1 := { tb with inq := inqWrite tb.inq a false }
    match argmin tb1 with
    | none => .error .emptyWorkingSet
    | some b => placeJoin { tb1 with inq := inqWrite tb1.inq b false } a b

/-- The loop of BUILD (R146). Each merge shrinks the working set, so the number of its members bounds the merges. -/
def mergeLoop : Nat → TbState → Except Fault TbState
  | 0, tb => .ok tb
  | n + 1, tb =>
    if 2 ≤ (workingSet tb.inq).length then
      match mergeStep tb with
      | .ok tb' => mergeLoop n tb'
      | .error f => .error f
    else .ok tb

/-- The operation of BUILD (R146): merge while two or more nodes are left, then the one left is the root. -/
def buildTree (tb : TbState) : Except Fault TbState :=
  match mergeLoop (workingSet tb.inq).length tb with
  | .error f => .error f
  | .ok tb' =>
    match argmin tb' with
    | none => .error .emptyWorkingSet
    | some r => .ok { tb' with root := BitVec.ofNat 10 r, built := true }

/-- The operation of LDSYM (R142): a new leaf at ND[NSYM]. Counters that would wrap do not occur (R137); the model
faults on them. -/
def loadLeaf (sym : Sym) (cnt : Count) (tb : TbState) : Except Fault TbState :=
  let i := tb.nsym.toNat
  if 511 < i + 1 ∨ 1023 < tb.nnode.toNat + 1 then .error .sumOutOfRange
  else
    .ok { tb with
      nd := ndWrite tb.nd i { leaf := true, sym := sym, left := 0, right := 0, weight := countWeight cnt }
      inq := inqWrite tb.inq i true
      seen := seenWrite tb.seen sym true
      nsym := tb.nsym + 1
      nnode := tb.nnode + 1 }

/-- A tree-builder result as the machine's outcome. -/
def withTb (s : State) (r : Except Fault TbState) : Out :=
  match r with
  | .ok tb => .next { s with tb := tb }
  | .error f => .fault f

/-- TBCLR (R141). -/
def execTbclr (s : State) : Out := classW .tbclr s (.next { s with tb := tbCleared })

/-- LDSYM sym, cnt (R142); faults in order SEQUENCE, BAD_TABLE for cnt = 0, BAD_TABLE for a repeated symbol. -/
def execLdsym (sym : Sym) (cnt : Count) (s : State) : Out :=
  classW (.ldsym sym cnt) s <|
    if s.tb.built then fail .sequence (.ldsym sym cnt) s
    else if cnt = 0 then fail .badTable (.ldsym sym cnt) s
    else if seenRead s.tb.seen sym then fail .badTable (.ldsym sym cnt) s
    else withTb s (loadLeaf sym cnt s.tb)

/-- BUILD (R146); faults in order SEQUENCE, BAD_TABLE for NSYM = 0. -/
def execBuild (s : State) : Out :=
  classW .build s <|
    if s.tb.built then fail .sequence .build s
    else if s.tb.nsym = 0 then fail .badTable .build s
    else withTb s (buildTree s.tb)

/-- RDNODE idx, sel (R148). -/
def execRdnode (idx : Idx) (sel : BitVec 2) (s : State) : Out :=
  classR (.rdnode idx sel) s (nodeView (ndRead s.tb.nd idx.toNat) (inqRead s.tb.inq idx.toNat) sel)

end Sys2Proof.Machine
end

