-- ==== Sys2Proof/Machine/BitUnpacker.lean ====
section
/-! DEFINITION. The bit unpacker BU: the bit cursor used by DECBYTE (44_bit_unpacker.md). It has no command of its
own. -/

namespace Sys2Proof.Machine

/-- `bu_load(b)` (R196). -/
def buLoad (b : Byte) (s : State) : State := { s with bu := { ubyte := b, urem := 8 } }

/-- The bit that `bu_next()` returns: UBYTE[7] (R197). -/
def buBit (s : State) : Bool := s.bu.ubyte.getLsbD 7

/-- The state after `bu_next()`: UBYTE shifted left by one, one bit less to take (R197). -/
def buAdvance (s : State) : State := { s with bu := { ubyte := s.bu.ubyte <<< 1, urem := s.bu.urem - 1 } }

/-- The fresh cursor of DECSTART and DECSTOP (R198). -/
def buClear (s : State) : State := { s with bu := { ubyte := 0, urem := 0 } }

end Sys2Proof.Machine
end

