-- ==== Sys2Proof/Machine/TreeDecoder.lean ====
section
/-! DEFINITION. The tree decoder TD: TRCLR, TRINS, RDTRIE, DECSTART, DECBYTE, DECSTOP (45_tree_decoder.md). -/

namespace Sys2Proof.Machine

/-- The machine with other decoder registers. -/
def setTd (td : TdState) (s : State) : State := { s with td := td }

/-- The child that a bit leads to: 0 left, 1 right (R32, R207). -/
def childOf (e : TrieNode) (b : Bool) : Idx := if b then e.child1 else e.child0

/-- The entry with another child pointer on the side of the bit. -/
def setChild (e : TrieNode) (b : Bool) (q : Idx) : TrieNode :=
  if b then { e with child1 := q } else { e with child0 := q }

/-! ## Insertion (R203) -/

/-- Phase 1 of TRINS from the node `p`: follow the nodes that exist. `none` is TRIE_CONFLICT; otherwise the node
where the path leaves the trie and the bits left to allocate. -/
def trieFollow (tn : Mem TrieNode) : Idx → Codeword → Option (Idx × Codeword)
  | _, [] => none
  | p, b :: c =>
    if (tnRead tn p).leaf then none
    else if childOf (tnRead tn p) b = 0 then some (p, b :: c)
    else trieFollow tn (childOf (tnRead tn p) b) c

/-- Phase 2 of TRINS: one new node per bit, at TNCNT, then the last node becomes the leaf of `sym`. -/
def trieAllocate (sym : Sym) : Idx → Codeword → TdState → TdState
  | p, [], td => { td with tn := tnWrite td.tn p { tnRead td.tn p with leaf := true, sym := sym } }
  | p, b :: c, td =>
    let q : Idx := td.tncnt.setWidth 10
    trieAllocate sym q c
      { td with tn := tnWrite td.tn p (setChild (tnRead td.tn p) b q), tncnt := td.tncnt + 1 }

/-- TRCLR (R202); SEQUENCE if TDST = RUN. -/
def execTrclr (s : State) : Out :=
  classW .trclr s <|
    if s.td.tdst = .run then fail .sequence .trclr s else .next (setTd { s.td with tn := [], tncnt := 1 } s)

/-- TRINS sym (R203); SEQUENCE, BAD_CODEWORD, TRIE_CONFLICT, ALLOC_FAILURE, in this order and before any write. -/
def execTrins (sym : Sym) (s : State) : Out :=
  classW (.trins sym) s <|
    if s.td.tdst = .run then fail .sequence (.trins sym) s
    else if s.ca.cw.length = 0 then fail .badCodeword (.trins sym) s
    else
      match trieFollow s.td.tn 0 s.ca.cw with
      | none => fail .trieConflict (.trins sym) s
      | some (p, rest) =>
        if tnSize < s.td.tncnt.toNat + rest.length then fail .allocFailure (.trins sym) s
        else .next (setTd (trieAllocate sym p rest s.td) s)

/-- RDTRIE idx (R205). -/
def execRdtrie (idx : Idx) (s : State) : Out := classR (.rdtrie idx) s (trieView (tnRead s.td.tn idx))

/-! ## The decoder state machine (R206 to R212) -/

/-- ICWCNT + 1, saturating at 0xFFFFFFFF (R34, R207). -/
def icwNext (n : BitVec 32) : BitVec 32 := BitVec.ofNat 32 (min (n.toNat + 1) icwMax)

/-- `td_step(bit)` (R207). -/
def tdStep (b : Bool) (s : State) : State :=
  let q := childOf (tnRead s.td.tn s.td.cur) b
  let e := tnRead s.td.tn q
  if q = 0 then setTd { s.td with icwcnt := icwNext s.td.icwcnt, cur := 0 } s
  else if e.leaf then
    if e.sym = eos then setTd { s.td with tdst := .done, cur := 0 } s
    else emitDec (e.sym.setWidth 8) (setTd { s.td with cur := 0 } s)
  else setTd { s.td with cur := q } s

/-- The loop of DECBYTE (R210): `while UREM > 0 and TDST = RUN`. A loaded byte holds eight bits, so the loop runs at
most eight times. -/
def decodeLoop : Nat → State → State
  | 0, s => s
  | n + 1, s =>
    if 0 < s.bu.urem.toNat ∧ s.td.tdst = .run then decodeLoop n (tdStep (buBit s) (buAdvance s)) else s

/-- DECSTART (R208). -/
def execDecstart (s : State) : Out :=
  classW .decstart s <|
    .next (buClear (setTd { s.td with cur := 0, icwcnt := 0, drop := false, tdst := .run } s))

/-- DECBYTE b (R210); SEQUENCE if TDST = IDLE, EMPTY_CODEBOOK in RUN if the root has no child; in DONE the byte is
dropped. -/
def execDecbyte (b : Byte) (s : State) : Out :=
  classW (.decbyte b) s <|
    match s.td.tdst with
    | .idle => fail .sequence (.decbyte b) s
    | .done => .next (setTd { s.td with drop := true } s)
    | .run =>
      if (tnRead s.td.tn 0).child0 = 0 ∧ (tnRead s.td.tn 0).child1 = 0 then fail .emptyCodebook (.decbyte b) s
      else .next (decodeLoop 8 (buLoad b s))

/-- DECSTOP (R212); ICWCNT and DROP keep their values. -/
def execDecstop (s : State) : Out :=
  classW .decstop s (.next (buClear (setTd { s.td with cur := 0, tdst := .idle } s)))

end Sys2Proof.Machine
end

