-- ==== Sys2Proof/Machine/Dispatch.lean ====
section
/-! DEFINITION. One arm per command, each one call of that command's meaning. -/

namespace Sys2Proof.Machine

def exec (i : Instr) (s : State) : Host.Outcome State Fault Refusal :=
  match i with
  | .nop => Sys2Proof.Machine.execNop s
  | .srst => Sys2Proof.Machine.execSrst s
  | .rdreg r => Sys2Proof.Machine.execRdreg r s
  | .tbclr => Sys2Proof.Machine.execTbclr s
  | .ldsym sym cnt => Sys2Proof.Machine.execLdsym sym cnt s
  | .build => Sys2Proof.Machine.execBuild s
  | .rdnode idx sel => Sys2Proof.Machine.execRdnode idx sel s
  | .assign => Sys2Proof.Machine.execAssign s
  | .ctclr => Sys2Proof.Machine.execCtclr s
  | .ctset sym => Sys2Proof.Machine.execCtset sym s
  | .ctget sym => Sys2Proof.Machine.execCtget sym s
  | .cwclr => Sys2Proof.Machine.execCwclr s
  | .cwpush n bits => Sys2Proof.Machine.execCwpush n bits s
  | .cwrd k => Sys2Proof.Machine.execCwrd k s
  | .encstart => Sys2Proof.Machine.execEncstart s
  | .encbyte b => Sys2Proof.Machine.execEncbyte b s
  | .encend => Sys2Proof.Machine.execEncend s
  | .encstop => Sys2Proof.Machine.execEncstop s
  | .trclr => Sys2Proof.Machine.execTrclr s
  | .trins sym => Sys2Proof.Machine.execTrins sym s
  | .rdtrie idx => Sys2Proof.Machine.execRdtrie idx s
  | .decstart => Sys2Proof.Machine.execDecstart s
  | .decbyte b => Sys2Proof.Machine.execDecbyte b s
  | .decstop => Sys2Proof.Machine.execDecstop s

end Sys2Proof.Machine
end

