-- ==== Sys2Proof/Machine/Command.lean ====
section
/-! DEFINITION. What the block does with one move of the host (R71, R73, R111). -/

namespace Sys2Proof.Machine

/-- A command word (R111): an illegal word is faulted, any other word is executed. -/
def takeWord (w : CmdWord) (s : State) : Out :=
  match decode w with
  | .ok i => exec i s
  | .error _ => .next (illegalWord w s)

/-- One move of the host: a command word is taken and run to completion (R12, R71); `rst` puts every item of
architectural state at its reset value (R280), between commands only (U19; DESIGN CHOICE, log 7). -/
def takeMove (m : HostMove) (s : State) : Out :=
  match m with
  | .cmd w => takeWord w s
  | .rst => .next (resetAll s)

/-- The machine with the command word `w` as the host's next move. -/
def offerWord (w : CmdWord) (s : State) : State := { s with input := .cmd w :: s.input }

end Sys2Proof.Machine
end

