-- ==== Sys2Proof/Machine/Step.lean ====
section
/-! DEFINITION. One step of the machine: the host's next move is taken. -/

namespace Sys2Proof.Machine

/-- One step. With nothing from the host the block is idle and every piece of state survives (R264, R298). -/
def step (s : State) : Host.Outcome State Fault Refusal :=
  match s.input with
  | [] => .next s
  | m :: rest => takeMove m { s with input := rest }

/-- The machine whose next step takes exactly the command word `w`: there is no fetch (R23), so the word stands as
the host's next move on the command channel. -/
def State.withFetchWord (s : State) (nbits w : Nat) : State := offerWord (tableWord nbits w) s

end Sys2Proof.Machine
end

