-- ==== Sys2Proof/Machine/HostSymbols.lean ====
section
/-! DEFINITION. The integer and text parts of the host software around the block: the symbol table with its injected
sentinel (R220, R221, R224), the records of the codebook and their order (R225, R229), and the symbol escaping (R226,
R227). All of it is outside the block (R4); the floating-point fields of the records are not modelled. -/

namespace Sys2Proof.Machine

/-- The frequency table of an input in the host's load order: byte values that occur, ascending, then END_OF_STREAM
with count 1 (R220, R221, R224). -/
def symbolTable (input : List Byte) : List (Sym × Nat) :=
  ((List.range 256).filterMap fun v =>
    let n := input.count (BitVec.ofNat 8 v)
    if n = 0 then none else some (BitVec.ofNat 9 v, n)) ++ [(eos, 1)]

/-- The integer fields of a SymbolRecord (R225); probability and self-information are floats and not modelled. -/
structure SymbolRecord where
  symbol   : Sym
  count    : Nat
  codeword : Codeword
  deriving DecidableEq, Repr

/-- The record of leaf `i` as the state holds it: symbol and count from ND, codeword from CT (R225). What the host
reads out by commands is `readRecord` in HostOperations.lean. -/
def recordOfLeaf (s : State) (i : Nat) : SymbolRecord :=
  { symbol := (ndRead s.tb.nd i).sym
    count := (ndRead s.tb.nd i).weight.toNat
    codeword := (ctRead s.ca.ct (ndRead s.tb.nd i).sym).getD [] }

/-- Records in canonical order: "count ascending, symbol ascending" (R229). -/
def canonicalOrder (records : List SymbolRecord) : List SymbolRecord :=
  records.insertionSort fun a b => a.count < b.count ∨ (a.count = b.count ∧ a.symbol.toNat ≤ b.symbol.toNat)

/-- The table as LDSYM operands; none if a count is beyond the 32 bits of the data field (D3: "covers inputs up to 4 GiB
per symbol"; DESIGN CHOICE, log 8: no command word loads such a count). -/
def loadable : List (Sym × Nat) → Option (List (Sym × Count))
  | [] => some []
  | (sym, n) :: rest => if n < 2 ^ 32 then (loadable rest).map ((sym, BitVec.ofNat 32 n) :: ·) else none

/-- One uppercase hexadecimal digit. -/
def hexDigit (n : Nat) : Char := "0123456789ABCDEF".toList.getD n '0'

/-- The value of a hexadecimal digit, either case. -/
def hexValue (c : Char) : Option Nat :=
  if '0' ≤ c ∧ c ≤ '9' then some (c.toNat - 48)
  else if 'A' ≤ c ∧ c ≤ 'F' then some (c.toNat - 55)
  else if 'a' ≤ c ∧ c ≤ 'f' then some (c.toNat - 87)
  else none

/-- "Symbol representation escaping, in priority order" (R226). -/
def renderSymbol (sym : Sym) : List Char :=
  if sym = 10 then ['\\', 'n']
  else if sym = 13 then ['\\', 'r']
  else if sym = eos then ['E', 'O', 'F']
  else if sym.toNat < 0x20 ∨ 0x7E < sym.toNat then ['0', 'x', hexDigit (sym.toNat / 16), hexDigit (sym.toNat % 16)]
  else [Char.ofNat sym.toNat]

/-- "Parsing is the exact inverse"; the two digits are read in either case. DESIGN CHOICE, log 8, on two points that
R227 leaves open: "(hex, case-insensitive)" is taken of the digits only, so that the letter of `0x` is lower case and a
text `0XHH` is no symbol; and a text that is none of the forms is no symbol. -/
def parseSymbol (text : List Char) : Option Sym :=
  match text with
  | [c] => if c.toNat < 256 then some (BitVec.ofNat 9 c.toNat) else none
  | ['\\', 'n'] => some 10
  | ['\\', 'r'] => some 13
  | ['E', 'O', 'F'] => some eos
  | ['0', 'x', h, l] =>
    match hexValue h, hexValue l with
    | some a, some b => some (BitVec.ofNat 9 (16 * a + b))
    | _, _ => none
  | _ => none

end Sys2Proof.Machine
end

