-- ==== Sys2Proof/Machine/HostSequences.lean ====
section
/-! DEFINITION. The pseudo-commands of rule R119 and the command sequences of the three operations (R284 to R287), as
functions to lists of commands; and the outcome of a list of commands executed one after another (R12, R82). They are
what a host issues, not part of the block. -/

namespace Sys2Proof.Machine

/-- The commands of a list, one after another, each to completion (R12, R82). -/
def execAll : List Instr → State → Out
  | [], s => .next s
  | i :: rest, s =>
    match exec i s with
    | .next t => execAll rest t
    | .fault f => .fault f
    | .refused r => .refused r

/-! ## Pseudo-commands (R119) -/

/-- `RDSTAT`. -/
def rdstat : List Instr := [.rdreg 1]

/-- A group of up to 32 bits as one CWPUSH, the leftmost bit most significant. -/
def pushGroup (g : Codeword) : Instr :=
  .cwpush (BitVec.ofNat 6 g.length) (BitVec.ofNat 32 (g.foldl (fun v b => 2 * v + b.toNat) 0))

/-- The groups of up to 32 bits, first group first; the first argument bounds their number. -/
def pushGroups : Nat → Codeword → List Instr
  | 0, _ => []
  | _ + 1, [] => []
  | n + 1, b :: c => pushGroup ((b :: c).take 32) :: pushGroups n ((b :: c).drop 32)

/-- `CWSTR "c"`. -/
def cwstr (c : Codeword) : List Instr := .cwclr :: pushGroups c.length c

/-- `CTLOAD sym, "c"`. -/
def ctload (sym : Sym) (c : Codeword) : List Instr := cwstr c ++ [.ctset sym]

/-- `TRLOAD sym, "c"`. -/
def trload (sym : Sym) (c : Codeword) : List Instr := cwstr c ++ [.trins sym]

/-- `CTXFER sym`: one codeword from the code table into the trie. -/
def ctxfer (sym : Sym) : List Instr := [.ctget sym, .trins sym]

/-- `ENCSTR "text"`. -/
def encstr (text : List Byte) : List Instr := text.map .encbyte

/-- `DECHEX h0 h1 ...`. -/
def dechex (bytes : List Byte) : List Instr := bytes.map .decbyte

/-- `RDWEIGHT idx`: low word, then high bits. -/
def rdweight (idx : Idx) : List Instr := [.rdnode idx 1, .rdnode idx 2]

/-! ## The three operations -/

/-- The part of `encode` that makes the codebook: SRST, "or TBCLR if only the tree is to be renewed", then table, tree
and code assignment (R284). -/
def codebookSeq (treeOnly : Bool) (table : List (Sym × Count)) : List Instr :=
  [if treeOnly then .tbclr else .srst] ++ table.map (fun e => .ldsym e.1 e.2) ++ [.build, .assign]

/-- The reads of a codeword of `len` bits in CW: CWRD k for k = 0 to ceil(len / 32) - 1 (R168). -/
def cwrdSeq (len : Nat) : List Instr := (List.range ((len + 31) / 32)).map fun k => .cwrd (BitVec.ofNat 3 k)

/-- The reads of leaf `i` (R225, R284): its node in three views. -/
def leafSeq (i : Idx) : List Instr := .rdnode i 0 :: rdweight i

/-- The commands that read one record out: leaf `i`, whose symbol is `sym` and whose codeword has `len` bits (R225,
R284). The host learns `sym` and `len` from the responses on the way: `readRecord` in HostOperations.lean. -/
def recordSeq (i : Idx) (sym : Sym) (len : Nat) : List Instr := leafSeq i ++ [.ctget sym, .rdreg 8] ++ cwrdSeq len

/-- The read-out of all records, leaf 0 first; `lens` are the codeword lengths in load order (R284). -/
def recordsSeq (table : List (Sym × Count)) (lens : List Nat) : List Instr :=
  ((List.range table.length).zip (table.zip lens)).flatMap fun e => recordSeq (BitVec.ofNat 10 e.1) e.2.1.1 e.2.2

/-- The part of `encode` that packs the input, sentinel included (R284, R287). -/
def packSeq (input : List Byte) : List Instr := [.encstart] ++ encstr input ++ [.encend]

/-- All commands of `encode(input_bytes)` in their order (R284). -/
def encodeSeq (treeOnly : Bool) (table : List (Sym × Count)) (lens : List Nat) (input : List Byte) : List Instr :=
  codebookSeq treeOnly table ++ recordsSeq table lens ++ packSeq input ++ [.rdreg 1]

/-- The start of `build_decode_tree`: DECSTOP "only if a call may be open", then TRCLR (R285). -/
def emptyTrieSeq (callOpen : Bool) : List Instr := (if callOpen then [.decstop] else []) ++ [.trclr]

/-- `build_decode_tree(codebook_records)`, one TRLOAD per record (R285). -/
def buildTreeSeq (callOpen : Bool) (records : List (Sym × Codeword)) : List Instr :=
  emptyTrieSeq callOpen ++ records.flatMap fun r => trload r.1 r.2

/-- `build_decode_tree` on the block that holds the code table: one CTXFER per symbol of the table (R285). -/
def transferTreeSeq (callOpen : Bool) (symbols : List Sym) : List Instr := emptyTrieSeq callOpen ++ symbols.flatMap ctxfer

/-- `decode(tree, encoded_bytes)`, all bytes sent without a test between them (R286). -/
def decodeSeq (bytes : List Byte) : List Instr :=
  [.decstart] ++ dechex bytes ++ [.rdreg 1, .rdreg 11, .decstop]

/-- Encoding with an externally supplied codebook (R287). -/
def externalEncodeSeq (records : List (Sym × Codeword)) (input : List Byte) : List Instr :=
  [.ctclr] ++ records.flatMap (fun r => ctload r.1 r.2) ++ packSeq input

end Sys2Proof.Machine
end

