-- ==== Sys2Proof/Safety.lean ====
section
/-! DEFINITION. The vocabulary of the claims: the invariants of every reachable state (R44), and what the trees and the
packed stream hold, said without the machine's own loops. -/

namespace Sys2Proof.Machine

/-! ## Invariants (R44) -/

/-- The leaves of ND, SEEN, and the unallocated entries (R44 items 1, 2 and 4). -/
structure TbLeaves (tb : TbState) : Prop where
  nsym_le : tb.nsym.toNat ≤ nsymMax
  leaf_entry : ∀ i < tb.nsym.toNat, (ndRead tb.nd i).leaf = true ∧ (ndRead tb.nd i).sym.toNat ≤ 256 ∧
    (ndRead tb.nd i).left = 0 ∧ (ndRead tb.nd i).right = 0 ∧
    1 ≤ (ndRead tb.nd i).weight.toNat ∧ (ndRead tb.nd i).weight.toNat ≤ 2 ^ 32 - 1
  sym_inj : ∀ i < tb.nsym.toNat, ∀ j < tb.nsym.toNat, (ndRead tb.nd i).sym = (ndRead tb.nd j).sym → i = j
  seen_iff : ∀ sym : Sym, seenRead tb.seen sym = true ↔ ∃ i < tb.nsym.toNat, (ndRead tb.nd i).sym = sym
  unallocated : ∀ i, tb.nnode.toNat ≤ i → ndRead tb.nd i = Node.zero

/-- The tree builder before BUILD (R44 item 1). -/
structure TbOpen (tb : TbState) : Prop where
  nnode_eq : tb.nnode.toNat = tb.nsym.toNat
  root_eq : tb.root = 0
  inq_iff : ∀ i < ndSize, inqRead tb.inq i = true ↔ i < tb.nsym.toNat

/-- The children named by the internal nodes of ND, one entry per child pointer. -/
def ndChildren (tb : TbState) : List Nat :=
  (List.range tb.nnode.toNat).flatMap fun j =>
    if (ndRead tb.nd j).leaf then [] else [(ndRead tb.nd j).left.toNat, (ndRead tb.nd j).right.toNat]

/-- The tree builder after BUILD (R44 item 3). -/
structure TbBuilt (tb : TbState) : Prop where
  nsym_pos : 1 ≤ tb.nsym.toNat
  nnode_eq : tb.nnode.toNat + 1 = 2 * tb.nsym.toNat
  root_eq : tb.root.toNat + 1 = tb.nnode.toNat
  inq_iff : ∀ i < ndSize, inqRead tb.inq i = true ↔ i = tb.root.toNat
  internal : ∀ j, tb.nsym.toNat ≤ j → j < tb.nnode.toNat →
    (ndRead tb.nd j).leaf = false ∧ (ndRead tb.nd j).sym = 0 ∧
    (ndRead tb.nd j).left.toNat < j ∧ (ndRead tb.nd j).right.toNat < j ∧
    (ndRead tb.nd j).left ≠ (ndRead tb.nd j).right ∧
    (ndRead tb.nd j).weight.toNat =
      (ndRead tb.nd (ndRead tb.nd j).left.toNat).weight.toNat + (ndRead tb.nd (ndRead tb.nd j).right.toNat).weight.toNat
  one_parent : ∀ i < tb.nnode.toNat, i ≠ tb.root.toNat → (ndChildren tb).count i = 1

/-- Items 1 to 4 of rule R44. -/
structure TbInv (tb : TbState) : Prop where
  leaves : TbLeaves tb
  before : tb.built = false → TbOpen tb
  after : tb.built = true → TbBuilt tb

/-- Items 5 and 6 of rule R44: the lengths of the codewords in CW and CT. -/
structure CaInv (ca : CaState) : Prop where
  cw_length : ca.cw.length ≤ cwMax
  ct_length : ∀ sym c, ctRead ca.ct sym = some c → 1 ≤ c.length ∧ c.length ≤ cwMax

/-- Item 7 of rule R44. -/
structure BpInv (bp : BpState) : Prop where
  acc_lt : bp.acc.toNat < 2 ^ bp.nacc.toNat
  closed : bp.active = false → bp.acc = 0 ∧ bp.nacc = 0

/-- The children named by the allocated entries of TN, one entry per child pointer. -/
def tnChildren (td : TdState) : List Nat :=
  (List.range td.tncnt.toNat).flatMap fun p =>
    [(tnRead td.tn (BitVec.ofNat 10 p)).child0.toNat, (tnRead td.tn (BitVec.ofNat 10 p)).child1.toNat]

/-- Item 8 of rule R44. The clause `child_gt` is stronger than the item: a child was allocated after its parent, so
its index is higher (R203: new nodes take consecutive indices "from the shallowest to the deepest"; DEDUCED, log 10). -/
structure TrieInv (td : TdState) : Prop where
  tncnt_pos : 1 ≤ td.tncnt.toNat
  tncnt_le : td.tncnt.toNat ≤ tnSize
  unallocated : ∀ p : Idx, td.tncnt.toNat ≤ p.toNat → tnRead td.tn p = TrieNode.zero
  child_gt : ∀ (p : Idx) (b : Bool), childOf (tnRead td.tn p) b ≠ 0 →
    p.toNat < (childOf (tnRead td.tn p) b).toNat ∧ (childOf (tnRead td.tn p) b).toNat < td.tncnt.toNat
  one_parent : ∀ i, 1 ≤ i → i < td.tncnt.toNat → (tnChildren td).count i = 1
  root_inner : (tnRead td.tn 0).leaf = false
  leaf_childless : ∀ (p : Idx) (b : Bool), (tnRead td.tn p).leaf = true → childOf (tnRead td.tn p) b = 0
  inner_child : ∀ p : Idx, 1 ≤ p.toNat → p.toNat < td.tncnt.toNat → (tnRead td.tn p).leaf = false →
    ∃ b, childOf (tnRead td.tn p) b ≠ 0

/-- Item 9 of rule R44 and rule R33: the decoder between commands. -/
structure DecoderInv (td : TdState) (bu : BuState) : Prop where
  urem_le : bu.urem.toNat ≤ 8
  idle : td.tdst = .idle → td.cur = 0 ∧ bu.urem = 0 ∧ bu.ubyte = 0
  run : td.tdst = .run → bu.urem = 0 ∧ bu.ubyte = 0
  done : td.tdst = .done → td.cur = 0
  cur_lt : td.cur.toNat < td.tncnt.toNat
  cur_inner : (tnRead td.tn td.cur).leaf = false

/-- Item 10 of rule R44 and rule R35. -/
structure LatchInv (l : FaultLatch) : Prop where
  cause_iff : l.fatal = false ↔ l.fcause = .none
  cleared : l.fatal = false → l.fcmd = 0

/-- Every index space is in its canonical form. -/
structure MemInv (s : State) : Prop where
  nd : memWf Node.zero ndSize s.tb.nd
  inq : memWf false ndSize s.tb.inq
  seen : memWf false nsymMax s.tb.seen
  ct : memWf none nsymMax s.ca.ct
  tn : memWf TrieNode.zero tnSize s.td.tn

/-- Rule R44: what holds in every reachable state. -/
structure Inv (s : State) : Prop where
  mem : MemInv s
  tb : TbInv s.tb
  ca : CaInv s.ca
  bp : BpInv s.bp
  trie : TrieInv s.td
  decoder : DecoderInv s.td s.bu
  latch : LatchInv s.latch

/-! ## Permissions and writers -/

/-- The phase conditions of rule R253; a command it does not list is permitted in every phase. -/
def phaseAllows (i : Instr) (s : State) : Bool :=
  match i with
  | .ldsym _ _ | .build => !s.tb.built
  | .assign => s.tb.built && !s.bp.active
  | .ctclr | .ctset _ => !s.bp.active
  | .encbyte _ | .encend => s.bp.active
  | .trclr | .trins _ => s.td.tdst != .run
  | .decbyte _ => s.td.tdst != .idle
  | .nop | .srst | .rdreg _ | .tbclr | .rdnode _ _ | .ctget _ | .cwclr | .cwpush _ _ | .cwrd _ => true
  | .encstart | .encstop | .rdtrie _ | .decstart | .decstop => true

/-- The "raised by" column of rule R251; any word can be illegal. -/
def raisedBy (cause : Cause) (i : Instr) : Bool :=
  match cause, i with
  | .illegalCmd, _ => true
  | .sequence, .ldsym _ _ | .sequence, .build | .sequence, .assign | .sequence, .ctclr | .sequence, .ctset _ => true
  | .sequence, .encbyte _ | .sequence, .encend | .sequence, .trclr | .sequence, .trins _ | .sequence, .decbyte _ => true
  | .badTable, .ldsym _ _ | .badTable, .build => true
  | .badCodeword, .ctset _ | .badCodeword, .trins _ | .badCodeword, .cwpush _ _ => true
  | .trieConflict, .trins _ | .allocFailure, .trins _ => true
  | .unresolvedSymbol, .encbyte _ | .unresolvedSymbol, .encend => true
  | .emptyCodebook, .decbyte _ => true
  | _, _ => false

/-- The fault latch after a fault of cause `cause` raised by `i` while none was latched (R256). -/
def latched (cause : Cause) (i : Instr) : FaultLatch := { fatal := true, fcause := cause, fcmd := encode i }

/-- The commands of the encode side, beside those that only move CW (R86). -/
def encodeSide : Instr → Bool
  | .tbclr | .ldsym _ _ | .build | .assign | .ctclr | .ctset _ | .ctget _ => true
  | .encstart | .encbyte _ | .encend | .encstop => true
  | _ => false

/-- The commands of the decode side (R86). -/
def decodeSide : Instr → Bool
  | .trclr | .trins _ | .decstart | .decbyte _ | .decstop => true
  | _ => false

/-! ## Bits and streams -/

/-- The eight bits of a byte in stream order, bit 7 first (R74). -/
def byteBits (b : Byte) : List Bool := (List.range 8).reverse.map b.getLsbD

/-- The codeword bits that the packer holds, the earliest pushed in ACC[NACC-1] (R30). -/
def heldBits (bp : BpState) : List Bool := (List.range bp.nacc.toNat).reverse.map bp.acc.getLsbD

/-- `ys` is `pack(bits)` (R187): ceil(L / 8) bytes, and bit (7 - i mod 8) of byte floor(i / 8) is bit `i` of the
sequence, or 0 beyond its end. -/
def IsPacked (bits : List Bool) (ys : List Byte) : Prop :=
  ys.length = (bits.length + 7) / 8 ∧
    ∀ i < 8 * ys.length, (ys.getD (i / 8) 0).getLsbD (7 - i % 8) = bits.getD i false

/-! ## Trees -/

/-- The node of ND that a bit sequence leads to from `i`: 0 left, 1 right; none past a leaf (R8, R162). -/
def treeAt (nd : Mem Node) : Nat → Codeword → Option Nat
  | i, [] => some i
  | i, b :: c =>
    if (ndRead nd i).leaf then none
    else treeAt nd (if b then (ndRead nd i).right.toNat else (ndRead nd i).left.toNat) c

/-- `c` is the codeword that rule R161 gives to `sym` in the tree with root `root`: the path to its leaf, or "0" when
the tree is a single leaf (R162). -/
def CodewordOf (nd : Mem Node) (root : Nat) (sym : Sym) (c : Codeword) : Prop :=
  ((ndRead nd root).leaf = true ∧ (ndRead nd root).sym = sym ∧ c = [false]) ∨
    ((ndRead nd root).leaf = false ∧
      ∃ i, treeAt nd root c = some i ∧ (ndRead nd i).leaf = true ∧ (ndRead nd i).sym = sym)

/-- The node `a` is taken before `b`: lower weight, or equal weight and lower index (R145). -/
def TakenBefore (nd : Mem Node) (a b : Nat) : Prop :=
  (ndRead nd a).weight.toNat < (ndRead nd b).weight.toNat ∨
    ((ndRead nd a).weight.toNat = (ndRead nd b).weight.toNat ∧ a < b)

/-- `i` is in the working set at the moment when the internal node `j` is made: older than `j` and no child of an
internal node made before `j` (R26, R144). -/
def Waiting (tb : TbState) (j i : Nat) : Prop :=
  i < j ∧ ∀ k, tb.nsym.toNat ≤ k → k < j → (ndRead tb.nd k).left.toNat ≠ i ∧ (ndRead tb.nd k).right.toNat ≠ i

/-- The bit sequence `c` leads from the trie node `p` over nodes that carry no symbol to the leaf of `sym` (R204,
R207). -/
def TrieLeads (tn : Mem TrieNode) : Idx → Codeword → Sym → Prop
  | _, [], _ => False
  | p, [b], sym =>
    childOf (tnRead tn p) b ≠ 0 ∧ (tnRead tn (childOf (tnRead tn p) b)).leaf = true ∧
      (tnRead tn (childOf (tnRead tn p) b)).sym = sym
  | p, b :: b' :: c, sym =>
    childOf (tnRead tn p) b ≠ 0 ∧ (tnRead tn (childOf (tnRead tn p) b)).leaf = false ∧
      TrieLeads tn (childOf (tnRead tn p) b) (b' :: c) sym

/-- How many leading bits of a sequence run over nodes of the trie that exist (R203, phase 1). -/
def trieDepth (tn : Mem TrieNode) : Idx → Codeword → Nat
  | _, [] => 0
  | p, b :: c => if childOf (tnRead tn p) b = 0 then 0 else trieDepth tn (childOf (tnRead tn p) b) c + 1

/-- What decoding a bit sequence gives: the position, the bytes, the dead ends, whether END_OF_STREAM was met, and the
bits not taken (R207, R210). -/
structure Walk where
  cur   : Idx
  bytes : List Byte
  dead  : Nat
  ended : Bool
  rest  : List Bool
  deriving DecidableEq, Repr

/-- Decoding as a function of the bits (R207): left on 0, right on 1; a dead end and a leaf go back to the root. -/
def walkBits (tn : Mem TrieNode) : Idx → List Bool → Walk
  | p, [] => { cur := p, bytes := [], dead := 0, ended := false, rest := [] }
  | p, b :: bs =>
    let q := childOf (tnRead tn p) b
    if q = 0 then { walkBits tn 0 bs with dead := (walkBits tn 0 bs).dead + 1 }
    else if (tnRead tn q).leaf then
      if (tnRead tn q).sym = eos then { cur := 0, bytes := [], dead := 0, ended := true, rest := bs }
      else { walkBits tn 0 bs with bytes := (tnRead tn q).sym.setWidth 8 :: (walkBits tn 0 bs).bytes }
    else walkBits tn q bs

end Sys2Proof.Machine
end

