-- ==== Sys2Proof/Certificates/Slice0/Obligations.lean ====
section
/-! DEFINITION. The statements for the provers. Each docstring names the rules of the spec that it formalises. A
statement `∃ t, exec i s = .next t ∧ …` is also the completion statement of `i`, and an equation such as
`t = { s with td := t.td }` is its frame: everything but the named part is as before. -/

open Sys2Proof Sys2Proof.Machine Host.Outcome

/-! ## Encoding (R100 to R112, R120) -/

/-- Decoding the word of any command with legal operands gives that command, every operand at every value the encoding
admits (R100 to R105, R110). -/
def Obligations.DecodeOfEncodeIsTheCommand : Prop :=
  ∀ i : Instr, i.wellFormed = true → decode (encode i) = .ok i

/-- A word that decodes is the word of a command with legal operands: no bit of it is ignored (R101, R105, R110). -/
def Obligations.DecodedWordIsTheEncoding : Prop :=
  ∀ (w : CmdWord) (i : Instr), decode w = .ok i → i.wellFormed = true ∧ encode i = w

/-- The worked encodings of rule R120, in both directions. -/
def Obligations.WorkedEncodingsOfTheSpec : Prop :=
  ∀ e ∈ [(Instr.ldsym 0x61 3, (0x1100006100000003 : CmdWord)), (.ldsym eos 1, 0x1100010000000001),
      (.build, 0x1200000000000000), (.cwpush 2 0b01, 0x2900000200000001), (.rdnode 4 1, 0x1301000400000000),
      (.encbyte 0x62, 0x3100006200000000), (.decbyte 0xE2, 0x490000E200000000), (.rdreg 1, 0x0200000100000000)],
    encode e.1 = e.2 ∧ decode e.2 = .ok e.1

/-- The three checks of rule R110 refuse, each by name: a word whose OP no command has; a word that has a 1 where its
format assigns no operand bit; a word whose operands lie outside rule R103. -/
def Obligations.IllegalWordsAreRefusedByName : Prop :=
  (∀ w : CmdWord, (∀ i : Instr, opcodeOf i ≠ opField w) → decode w = .error .reservedOpcode) ∧
  (∀ (w : CmdWord) (i : Instr), opcodeOf i = opField w → w &&& formatMask (formatOf i) ≠ opcodeOf i ++ 0#56 →
    decode w = .error .mustBeZero) ∧
  (∀ i : Instr, i.wellFormed = false → decode (encode i) = .error .operandRange)

/-! ## One step, the order of events, faults and reset (R12, R40, R71, R72, R111, R250 to R258, R280, R281) -/

/-- When the host's next move is a word that decodes to a command, the step is `exec` of that command on the state
with that move taken, and nothing around it (R12, R71, R111; the queue of host moves is the model's choice, log 1). -/
def Obligations.StepRunsTheDecodedCommand : Prop :=
  ∀ (s : State) (w : CmdWord) (rest : List HostMove) (i : Instr),
    s.input = .cmd w :: rest → decode w = .ok i → step s = exec i { s with input := rest }

/-- An illegal word is taken, latches ILLEGAL_CMD with itself as FCMD if no fault is latched, is answered 0 if its
opcode is of class R, and changes nothing else (R111, R112, R256; that the host's move leaves the queue is log 1). -/
def Obligations.IllegalWordLatchesAndChangesNothingElse : Prop :=
  ∀ (s : State) (w : CmdWord) (rest : List HostMove) (why : Illegal),
    s.input = .cmd w :: rest → decode w = .error why →
    step s = next { s with
      input := rest
      latch := if s.latch.fatal then s.latch else { fatal := true, fcause := .illegalCmd, fcmd := w }
      out := { s.out with rsp := if opClassR (opField w) then s.out.rsp ++ [0] else s.out.rsp } }

/-- A command whose operands lie outside rule R103 does what its illegal word does, whatever the phase (R103, R112,
R254): every operand form of every command has its outcome (that `exec` is asked about such operands is log 9). -/
def Obligations.IllegalOperandsFaultFirst : Prop :=
  ∀ (s : State) (i : Instr), i.wellFormed = false →
    exec i s = next { s with
      latch := if s.latch.fatal then s.latch else latched .illegalCmd i
      out := { s.out with rsp := if opClassR (opcodeOf i) then s.out.rsp ++ [0] else s.out.rsp } }

/-- With no move of the host the block is idle and every piece of state survives; `rst` gives every item its reset
value and recalls nothing that was sent (R40, R264, R280). That this is a step is the model's choice, log 1. -/
def Obligations.IdleHoldsAndHardResetClears : Prop :=
  (∀ s : State, s.input = [] → step s = next s) ∧
  (∀ (s : State) (rest : List HostMove), s.input = .rst :: rest →
    step s = next { State.reset with out := s.out, input := rest })

/-- SRST, in every state, FATAL = 1 included, completes with every item of architectural state at its reset value and
with what was sent still sent (R132, R281); the host's coming moves stay too (log 1). -/
def Obligations.SrstRestoresTheResetState : Prop :=
  ∀ s : State, ∃ t, exec .srst s = next t ∧ t.out = s.out ∧ t.input = s.input ∧
    (∀ i, ndRead t.tb.nd i = Node.zero) ∧ (∀ i, inqRead t.tb.inq i = false) ∧ (∀ y, seenRead t.tb.seen y = false) ∧
    t.tb.nsym = 0 ∧ t.tb.nnode = 0 ∧ t.tb.root = 0 ∧ t.tb.built = false ∧
    (∀ y, ctRead t.ca.ct y = none) ∧ t.ca.cw = [] ∧
    t.bp.acc = 0 ∧ t.bp.nacc = 0 ∧ t.bp.active = false ∧ t.bu.ubyte = 0 ∧ t.bu.urem = 0 ∧
    (∀ p, tnRead t.td.tn p = TrieNode.zero) ∧ t.td.tncnt = 1 ∧ t.td.cur = 0 ∧ t.td.tdst = .idle ∧
    t.td.icwcnt = 0 ∧ t.td.drop = false ∧
    t.latch.fatal = false ∧ t.latch.fcause = .none ∧ t.latch.fcmd = 0

/-- What reset leaves (R20, R41, R280): ID reads 0x48554631, TNCNT reads 1, every other control register, every ND,
TN and CT entry and every codeword bit reads 0. That nothing is sent and no host move is pending is the model's
(logs 1 and 2) and is not part of this statement. -/
def Obligations.ResetReadsAsTheSpecSays : Prop :=
  (∀ r : BitVec 8, r.toNat ≤ 13 →
    controlReg State.reset r = if r.toNat = 0 then 0x48554631 else if r.toNat = 9 then 1 else 0) ∧
  (∀ (i : Nat) (sel : BitVec 2), nodeView (ndRead State.reset.tb.nd i) (inqRead State.reset.tb.inq i) sel = 0) ∧
  (∀ p : Idx, trieView (tnRead State.reset.td.tn p) = 0) ∧
  (∀ y : Sym, ctRead State.reset.ca.ct y = none ∧ seenRead State.reset.tb.seen y = false) ∧
  (∀ k : BitVec 3, cwWord State.reset.ca.cw k = 0) ∧ State.reset.td.tdst = .idle ∧ State.reset.latch.fatal = false

/-- While FATAL = 1 a class W command other than SRST, NOP included, changes no state and emits nothing, whatever its
operands and whatever the phase (R131, R257). -/
def Obligations.FaultedStateDiscardsClassW : Prop :=
  ∀ (s : State) (i : Instr), s.latch.fatal = true → opClassR (opcodeOf i) = false → i ≠ .srst → exec i s = next s

/-- NOP in every state changes nothing and emits nothing (R131). -/
def Obligations.NopChangesNothing : Prop := ∀ s : State, exec .nop s = next s

/-- A class R command with legal operands completes in every state, FATAL = 1 included, appends exactly one word to
RSP, changes nothing else, and issued again at once it answers the same word (R10, R72, R79, R257). -/
def Obligations.ClassRAnswersOneWordAndChangesNothing : Prop :=
  ∀ (s : State) (i : Instr), i.wellFormed = true → opClassR (opcodeOf i) = true →
    ∃ v, exec i s = next (respond v s) ∧ exec i (respond v s) = next (respond v (respond v s))

/-- The output channels: one response word per class R command and none for class W; only ENCBYTE and ENCEND append to
ENC_OUT; only DECBYTE appends to DEC_OUT; nothing is ever removed; no command touches the host's coming moves (R40,
R71, R72; the lists and the moves are the model's fields, logs 1 and 2). -/
def Obligations.OutputsAppendOnlyWhereTheSpecSays : Prop :=
  ∀ (s t : State) (i : Instr), exec i s = next t →
    (if opClassR (opcodeOf i) then ∃ v, t.out.rsp = s.out.rsp ++ [v] else t.out.rsp = s.out.rsp) ∧
    (∃ ys, t.out.encOut = s.out.encOut ++ ys ∧ (ys ≠ [] → i = .encend ∨ ∃ b, i = .encbyte b)) ∧
    (∃ ys, t.out.decOut = s.out.decOut ++ ys ∧ (ys ≠ [] → ∃ b, i = .decbyte b)) ∧
    t.input = s.input

/-- A command that latches a fault changes nothing but the latch, save the 0 that answers an illegal class R word; the
latch then holds a cause and the whole command word (R12, R251, R256; the word as `encode i` is log 6). -/
def Obligations.FaultingCommandChangesOnlyTheLatch : Prop :=
  ∀ (s t : State) (i : Instr), exec i s = next t → s.latch.fatal = false → t.latch.fatal = true →
    t.latch.fcause ≠ .none ∧ t.latch.fcmd = encode i ∧ raisedBy t.latch.fcause i = true ∧
    ∃ answer, t = { s with latch := t.latch, out := { s.out with rsp := s.out.rsp ++ answer } } ∧
      (answer = [] ∨ (answer = [0] ∧ opClassR (opcodeOf i) = true ∧ i.wellFormed = false))

/-- The first fault is kept: only SRST changes a latch that holds a fault (R256, R258). -/
def Obligations.LatchHoldsUntilSrst : Prop :=
  ∀ (s t : State) (i : Instr), exec i s = next t → s.latch.fatal = true → i ≠ .srst → t.latch = s.latch

/-- The pin `fatal_o` is 1 exactly when FATAL = 1, and it falls only on `rst` or on the SRST word (R262; the host's
moves are the model's queue, log 1). -/
def Obligations.FatalPinFallsOnlyOnReset : Prop :=
  (∀ s : State, fatalO s = true ↔ s.latch.fatal = true) ∧
  ∀ s t : State, step s = next t → fatalO s = true → fatalO t = false →
    ∃ rest, s.input = .rst :: rest ∨ s.input = .cmd 0x0100000000000000 :: rest

/-- Rule R253 both ways: a command not permitted in the phase latches SEQUENCE and changes nothing else; a permitted
one never raises SEQUENCE. -/
def Obligations.SequenceFaultsExactlyOutsideThePhase : Prop :=
  ∀ (s : State) (i : Instr), i.wellFormed = true → s.latch.fatal = false →
    (phaseAllows i s = false → exec i s = next { s with latch := latched .sequence i }) ∧
    (phaseAllows i s = true → ∀ t, exec i s = next t → t.latch.fatal = true → t.latch.fcause ≠ .sequence)

/-- No command writes a flag that rule R43 does not let it write: FATAL is set only by a fault that the command can raise
(R251) and cleared by none but SRST; TB_BUILT, BP_ACTIVE, TDST, ICW (through ICWCNT) and DROP change only by their
commands; ICWCNT and DROP never fall but by DECSTART and SRST (R43, R255). -/
def Obligations.FlagsChangeOnlyByTheirCommands : Prop :=
  ∀ (s t : State) (i : Instr), exec i s = next t → i ≠ .srst →
    (s.latch.fatal = true → t.latch.fatal = true) ∧
    (s.latch.fatal = false → t.latch.fatal = true → raisedBy t.latch.fcause i = true) ∧
    (t.tb.built ≠ s.tb.built → i = .build ∨ i = .tbclr) ∧
    (t.bp.active ≠ s.bp.active → i = .encstart ∨ i = .encend ∨ i = .encstop) ∧
    (t.td.tdst ≠ s.td.tdst → i = .decstart ∨ i = .decstop ∨ ∃ b, i = .decbyte b) ∧
    (i ≠ .decstart → s.td.icwcnt.toNat ≤ t.td.icwcnt.toNat ∧ (s.td.drop = true → t.td.drop = true)) ∧
    ((∀ b, i ≠ .decbyte b) → i ≠ .decstart → t.td.icwcnt = s.td.icwcnt ∧ t.td.drop = s.td.drop)

/-- No command writes an item that rules R21 and R70 do not list it as a writer of (SRST writes all): the tree builder's
memories and registers, CT, CW, the packer's registers, the cursor and CUR, ICWCNT, TN and TNCNT. -/
def Obligations.EachItemIsWrittenOnlyByItsCommands : Prop :=
  ∀ (s t : State) (i : Instr), exec i s = next t → i ≠ .srst →
    (t.tb ≠ s.tb → i = .tbclr ∨ i = .build ∨ ∃ y c, i = .ldsym y c) ∧
    (t.tb.seen ≠ s.tb.seen ∨ t.tb.nsym ≠ s.tb.nsym → i = .tbclr ∨ ∃ y c, i = .ldsym y c) ∧
    (t.tb.root ≠ s.tb.root → i = .tbclr ∨ i = .build) ∧
    (t.ca.ct ≠ s.ca.ct → i = .assign ∨ i = .ctclr ∨ ∃ y, i = .ctset y) ∧
    (t.ca.cw ≠ s.ca.cw → i = .cwclr ∨ (∃ n b, i = .cwpush n b) ∨ ∃ y, i = .ctget y) ∧
    (t.bp ≠ s.bp → i = .encstart ∨ i = .encend ∨ i = .encstop ∨ ∃ b, i = .encbyte b) ∧
    (t.bu ≠ s.bu ∨ t.td.cur ≠ s.td.cur → i = .decstart ∨ i = .decstop ∨ ∃ b, i = .decbyte b) ∧
    (t.td.icwcnt ≠ s.td.icwcnt → i = .decstart ∨ ∃ b, i = .decbyte b) ∧
    (t.td.tn ≠ s.td.tn ∨ t.td.tncnt ≠ s.td.tncnt → i = .trclr ∨ ∃ y, i = .trins y)

/-- Encode side and decode side share only CW and the latch (R86): a command of one side leaves the other side's state
and stream alone, and what it does on its own side does not depend on the other. -/
def Obligations.EncodeAndDecodeSidesAreIsolated : Prop :=
  ∀ (i : Instr) (s t : State), exec i s = next t →
    (encodeSide i = true → t.td = s.td ∧ t.bu = s.bu ∧ t.out.decOut = s.out.decOut ∧
      ∀ s' t', exec i s' = next t' → s'.tb = s.tb → s'.ca = s.ca → s'.bp = s.bp → s'.latch = s.latch →
        s'.out.encOut = s.out.encOut →
        t'.tb = t.tb ∧ t'.ca = t.ca ∧ t'.bp = t.bp ∧ t'.latch = t.latch ∧ t'.out.encOut = t.out.encOut) ∧
    (decodeSide i = true → t.tb = s.tb ∧ t.ca = s.ca ∧ t.bp = s.bp ∧ t.out.encOut = s.out.encOut ∧
      ∀ s' t', exec i s' = next t' → s'.td = s.td → s'.bu = s.bu → s'.ca.cw = s.ca.cw → s'.latch = s.latch →
        s'.out.decOut = s.out.decOut →
        t'.td = t.td ∧ t'.bu = t.bu ∧ t'.latch = t.latch ∧ t'.out.decOut = t.out.decOut)

/-! ## What the class R commands answer (R41, R42, R133, R148, R172, R205) -/

/-- RDREG r, for every r of rule R41, in every state: the word laid out as rules R41 and R42 say, FCAUSE with the codes of
rule R251, and nothing else changes. -/
def Obligations.RdregReadsEveryControlRegister : Prop :=
  ∀ (s : State) (r : BitVec 8), r.toNat ≤ 13 → ∃ v : RspWord, exec (.rdreg r) s = next (respond v s) ∧
    (r.toNat = 0 → v = 0x48554631) ∧
    (r.toNat = 1 → v.getLsbD 0 = s.latch.fatal ∧ v.getLsbD 1 = s.tb.built ∧ v.getLsbD 2 = s.bp.active ∧
      v.extractLsb' 3 2 = (match s.td.tdst with | .idle => 0 | .run => 1 | .done => 2) ∧
      (v.getLsbD 5 = true ↔ s.td.icwcnt ≠ 0) ∧ v.getLsbD 6 = s.td.drop ∧ v.extractLsb' 7 25 = 0) ∧
    (r.toNat = 2 → v.toNat = (match s.latch.fcause with
      | .none => 0 | .illegalCmd => 1 | .sequence => 2 | .badTable => 3 | .badCodeword => 4 | .trieConflict => 5
      | .allocFailure => 6 | .unresolvedSymbol => 7 | .emptyCodebook => 8)) ∧
    (r.toNat = 3 → v = s.latch.fcmd.extractLsb' 32 32) ∧
    (r.toNat = 4 → v = s.latch.fcmd.extractLsb' 0 32) ∧
    (r.toNat = 5 → v.toNat = s.tb.nsym.toNat) ∧
    (r.toNat = 6 → v.toNat = s.tb.nnode.toNat) ∧
    (r.toNat = 7 → v.toNat = s.tb.root.toNat) ∧
    (r.toNat = 8 → v.toNat = s.ca.cw.length % 512) ∧
    (r.toNat = 9 → v.toNat = s.td.tncnt.toNat) ∧
    (r.toNat = 10 → v.toNat = s.td.cur.toNat) ∧
    (r.toNat = 11 → v = s.td.icwcnt) ∧
    (r.toNat = 12 → v.extractLsb' 0 8 = s.bp.acc ∧ v.extractLsb' 8 3 = s.bp.nacc ∧ v.extractLsb' 11 21 = 0) ∧
    (r.toNat = 13 → v.extractLsb' 0 8 = s.bu.ubyte ∧ v.extractLsb' 8 4 = s.bu.urem ∧ v.extractLsb' 12 20 = 0)

/-- RDNODE idx, sel, for every legal operand, in every state: the view of ND[idx] and INQ[idx] laid out as rule R148
says, and nothing else changes. -/
def Obligations.RdnodeShowsTheNode : Prop :=
  ∀ (s : State) (idx : Idx) (sel : BitVec 2), idx.toNat ≤ 512 → sel.toNat ≤ 2 →
    ∃ v : RspWord, exec (.rdnode idx sel) s = next (respond v s) ∧
    (sel.toNat = 0 → v.getLsbD 31 = (ndRead s.tb.nd idx.toNat).leaf ∧ v.getLsbD 30 = inqRead s.tb.inq idx.toNat ∧
      v.getLsbD 29 = false ∧ v.extractLsb' 20 9 = (ndRead s.tb.nd idx.toNat).sym ∧
      v.extractLsb' 10 10 = (ndRead s.tb.nd idx.toNat).left ∧ v.extractLsb' 0 10 = (ndRead s.tb.nd idx.toNat).right) ∧
    (sel.toNat = 1 → v = (ndRead s.tb.nd idx.toNat).weight.extractLsb' 0 32) ∧
    (sel.toNat = 2 → v.extractLsb' 0 9 = (ndRead s.tb.nd idx.toNat).weight.extractLsb' 32 9 ∧ v.extractLsb' 9 23 = 0)

/-- RDTRIE idx, for every index, in every state: the view of TN[idx] laid out as rule R205 says, and nothing else
changes. -/
def Obligations.RdtrieShowsTheTrieNode : Prop :=
  ∀ (s : State) (idx : Idx), ∃ v : RspWord, exec (.rdtrie idx) s = next (respond v s) ∧
    v.getLsbD 31 = (tnRead s.td.tn idx).leaf ∧ v.extractLsb' 29 2 = 0 ∧
    v.extractLsb' 20 9 = (tnRead s.td.tn idx).sym ∧ v.extractLsb' 10 10 = (tnRead s.td.tn idx).child0 ∧
    v.extractLsb' 0 10 = (tnRead s.td.tn idx).child1

/-- CWRD k, for every k, in every state: `v[31 - j] = CW.bits[32 * k + j]`, 0 at or beyond CW.len, and nothing else
changes (R172). -/
def Obligations.CwrdShowsTheCodewordBits : Prop :=
  ∀ (s : State) (k : BitVec 3), ∃ v : RspWord, exec (.cwrd k) s = next (respond v s) ∧
    ∀ j < 32, v.getLsbD (31 - j) = s.ca.cw.getD (32 * k.toNat + j) false

/-! ## Tree builder (R140 to R151) -/

/-- TBCLR clears the tree builder and nothing else, in every phase (R141). -/
def Obligations.TbclrClearsOnlyTheTreeBuilder : Prop :=
  ∀ s : State, s.latch.fatal = false → ∃ t, exec .tbclr s = next t ∧ t = { s with tb := t.tb } ∧
    (∀ i, ndRead t.tb.nd i = Node.zero) ∧ (∀ i, inqRead t.tb.inq i = false) ∧ (∀ y, seenRead t.tb.seen y = false) ∧
    t.tb.nsym = 0 ∧ t.tb.nnode = 0 ∧ t.tb.root = 0 ∧ t.tb.built = false

/-- LDSYM of a new symbol with a count of at least 1, before BUILD: leaf NSYM is made, its INQ and SEEN bits are set,
both counters go up by one, every other entry and everything else stays (R142). -/
def Obligations.LdsymAppendsOneLeaf : Prop :=
  ∀ (s : State) (sym : Sym) (cnt : Count), TbInv s.tb → s.latch.fatal = false → sym.toNat ≤ 256 →
    s.tb.built = false → cnt ≠ 0 → seenRead s.tb.seen sym = false →
    ∃ t, exec (.ldsym sym cnt) s = next t ∧ t = { s with tb := t.tb } ∧
      (∀ i, ndRead t.tb.nd i =
        if i = s.tb.nsym.toNat then { leaf := true, sym := sym, left := 0, right := 0, weight := cnt.setWidth 41 }
        else ndRead s.tb.nd i) ∧
      (∀ i, inqRead t.tb.inq i = (i == s.tb.nsym.toNat || inqRead s.tb.inq i)) ∧
      (∀ y, seenRead t.tb.seen y = (y == sym || seenRead s.tb.seen y)) ∧
      t.tb.nsym.toNat = s.tb.nsym.toNat + 1 ∧ t.tb.nnode.toNat = s.tb.nnode.toNat + 1 ∧
      t.tb.root = s.tb.root ∧ t.tb.built = false

/-- BAD_TABLE, with nothing else changed: LDSYM with count 0 or with a symbol already loaded, BUILD of an empty table
(R142, R146). -/
def Obligations.BadTableFaults : Prop :=
  (∀ (s : State) (sym : Sym) (cnt : Count), s.latch.fatal = false → sym.toNat ≤ 256 → s.tb.built = false →
    (cnt = 0 ∨ seenRead s.tb.seen sym = true) →
    exec (.ldsym sym cnt) s = next { s with latch := latched .badTable (.ldsym sym cnt) }) ∧
  (∀ s : State, s.latch.fatal = false → s.tb.built = false → s.tb.nsym = 0 →
    exec .build s = next { s with latch := latched .badTable .build })

/-- `argmin(INQ)` is the index with the smallest (weight, index) pair among those whose INQ bit is 1, and there is one
whenever some bit is set (R145). -/
def Obligations.ArgminTakesTheLightestThenTheOldest : Prop :=
  ∀ tb : TbState,
    (∀ a, argmin tb = some a → a < ndSize ∧ inqRead tb.inq a = true ∧
      ∀ i < ndSize, inqRead tb.inq i = true → i ≠ a → TakenBefore tb.nd a i) ∧
    ((∃ i < ndSize, inqRead tb.inq i = true) → ∃ a, argmin tb = some a)

/-- One merge step (R144, R147): the first node taken becomes the left child, the second, taken from what is left, the
right child; the new node has their weight sum, enters the working set at NNODE, and nothing else changes. -/
def Obligations.MergeStepJoinsTheTwoLightest : Prop :=
  ∀ (tb : TbState) (a b : Nat), argmin tb = some a →
    argmin { tb with inq := inqWrite tb.inq a false } = some b → tb.nnode.toNat < ndSize →
    (ndRead tb.nd a).weight.toNat + (ndRead tb.nd b).weight.toNat < 2 ^ 41 →
    ∃ tb', mergeStep tb = .ok tb' ∧
      (∀ i, i ≠ tb.nnode.toNat → ndRead tb'.nd i = ndRead tb.nd i) ∧
      (ndRead tb'.nd tb.nnode.toNat).leaf = false ∧ (ndRead tb'.nd tb.nnode.toNat).sym = 0 ∧
      (ndRead tb'.nd tb.nnode.toNat).left.toNat = a ∧ (ndRead tb'.nd tb.nnode.toNat).right.toNat = b ∧
      (ndRead tb'.nd tb.nnode.toNat).weight.toNat = (ndRead tb.nd a).weight.toNat + (ndRead tb.nd b).weight.toNat ∧
      (∀ i, inqRead tb'.inq i = (i == tb.nnode.toNat || (i != a && i != b && inqRead tb.inq i))) ∧
      tb'.nnode.toNat = tb.nnode.toNat + 1 ∧ tb'.seen = tb.seen ∧ tb'.nsym = tb.nsym ∧ tb'.root = tb.root ∧
      tb'.built = tb.built

/-- BUILD of a nonempty table completes with a whole tree: the leaves as loaded, 2 * NSYM - 1 nodes, the root last,
every other node child of exactly one, INQ only the root, every inner weight the sum of its children's; the root
weighs the sum of all counts; everything outside the tree builder stays (R44 item 3, R140, R146, R149). -/
def Obligations.BuildMakesOneTree : Prop :=
  ∀ s : State, TbInv s.tb → s.latch.fatal = false → s.tb.built = false → 1 ≤ s.tb.nsym.toNat →
    ∃ t, exec .build s = next t ∧ t = { s with tb := t.tb } ∧ TbInv t.tb ∧ t.tb.built = true ∧
      t.tb.nsym = s.tb.nsym ∧ t.tb.seen = s.tb.seen ∧
      (∀ i < s.tb.nsym.toNat, ndRead t.tb.nd i = ndRead s.tb.nd i) ∧
      (ndRead t.tb.nd t.tb.root.toNat).weight.toNat =
        ((List.range s.tb.nsym.toNat).map fun i => (ndRead s.tb.nd i).weight.toNat).sum

/-- BUILD makes the Huffman merges of rules R140, R144 and R145: when the internal node `j` is made, its left child is
taken before every other node waiting, and its right child before every node waiting then. -/
def Obligations.BuildMergesTheLightestFirst : Prop :=
  ∀ s t : State, TbInv s.tb → s.latch.fatal = false → s.tb.built = false → 1 ≤ s.tb.nsym.toNat →
    exec .build s = next t →
    ∀ j, t.tb.nsym.toNat ≤ j → j < t.tb.nnode.toNat →
      Waiting t.tb j (ndRead t.tb.nd j).left.toNat ∧ Waiting t.tb j (ndRead t.tb.nd j).right.toNat ∧
      (∀ i, Waiting t.tb j i → i ≠ (ndRead t.tb.nd j).left.toNat →
        TakenBefore t.tb.nd (ndRead t.tb.nd j).left.toNat i) ∧
      (∀ i, Waiting t.tb j i → i ≠ (ndRead t.tb.nd j).left.toNat → i ≠ (ndRead t.tb.nd j).right.toNat →
        TakenBefore t.tb.nd (ndRead t.tb.nd j).right.toNat i)

/-! ## Code assigner, code table, codeword register (R160 to R172) -/

/-- ASSIGN on a built tree with no stream open completes, and CT then holds exactly the codewords of rule R161, left
0, right 1, "0" for a single leaf; nothing else changes (R161, R162, R164). -/
def Obligations.AssignGivesEachLeafItsPath : Prop :=
  ∀ s : State, TbInv s.tb → s.latch.fatal = false → s.tb.built = true → s.bp.active = false →
    ∃ t, exec .assign s = next t ∧ t = { s with ca := { s.ca with ct := t.ca.ct } } ∧
      ∀ sym c, ctRead t.ca.ct sym = some c ↔ CodewordOf s.tb.nd s.tb.root.toNat sym c

/-- The codebook that ASSIGN leaves is prefix-free, and every codeword has between 1 and max(1, NSYM - 1) bits
(R165 (a) and (b)). -/
def Obligations.AssignedCodebookIsPrefixFree : Prop :=
  ∀ s t : State, TbInv s.tb → s.latch.fatal = false → s.tb.built = true → s.bp.active = false →
    exec .assign s = next t →
    (∀ y z c d, ctRead t.ca.ct y = some c → ctRead t.ca.ct z = some d → c <+: d → y = z ∧ c = d) ∧
    (∀ y c, ctRead t.ca.ct y = some c → 1 ≤ c.length ∧ c.length ≤ max 1 (s.tb.nsym.toNat - 1))

/-- The clears: CTCLR with no stream open empties CT (R166); CWCLR in every phase empties CW (R170); TRCLR outside RUN
empties the trie, TNCNT back to 1 (R202). None changes anything else. -/
def Obligations.ClearingCommandsEmptyTheirMemory : Prop :=
  ∀ s : State, s.latch.fatal = false →
    (s.bp.active = false → ∃ t, exec .ctclr s = next t ∧ t = { s with ca := { s.ca with ct := t.ca.ct } } ∧
      ∀ y, ctRead t.ca.ct y = none) ∧
    (∃ t, exec .cwclr s = next t ∧ t = { s with ca := { s.ca with cw := t.ca.cw } } ∧ t.ca.cw = []) ∧
    (s.td.tdst ≠ .run → ∃ t, exec .trclr s = next t ∧ t = { s with td := { s.td with tn := t.td.tn, tncnt := 1 } } ∧
      ∀ p, tnRead t.td.tn p = TrieNode.zero)

/-- CTSET sym with no stream open and a codeword in CW makes it the entry of `sym`, every other entry stays; with an
empty CW it is BAD_CODEWORD (R167). -/
def Obligations.CtsetStoresTheCodeword : Prop :=
  ∀ (s : State) (sym : Sym), s.latch.fatal = false → sym.toNat ≤ 256 → s.bp.active = false →
    (s.ca.cw ≠ [] → ∃ t, exec (.ctset sym) s = next t ∧ t = { s with ca := { s.ca with ct := t.ca.ct } } ∧
      ∀ y, ctRead t.ca.ct y = if y = sym then some s.ca.cw else ctRead s.ca.ct y) ∧
    (s.ca.cw = [] → exec (.ctset sym) s = next { s with latch := latched .badCodeword (.ctset sym) })

/-- CTGET sym, in every phase, makes CW the codeword of `sym`, or empty if it has none, and changes nothing else
(R168). -/
def Obligations.CtgetLoadsTheCodeword : Prop :=
  ∀ (s : State) (sym : Sym), s.latch.fatal = false → sym.toNat ≤ 256 → ∃ t, exec (.ctget sym) s = next t ∧
    t = { s with ca := { s.ca with cw := t.ca.cw } } ∧
    (∀ c, ctRead s.ca.ct sym = some c → t.ca.cw = c) ∧ (ctRead s.ca.ct sym = none → t.ca.cw = [])

/-- CWPUSH n, bits: with room for n bits it appends D[n-1] first and D[0] last and keeps the earlier bits; without, it
is BAD_CODEWORD and CW is unchanged (R171). -/
def Obligations.CwpushAppendsTheBits : Prop :=
  ∀ (s : State) (n : BitVec 6) (bits : BitVec 32), s.latch.fatal = false → 1 ≤ n.toNat → n.toNat ≤ 32 →
    bits.toNat < 2 ^ n.toNat →
    (s.ca.cw.length + n.toNat ≤ 256 → ∃ t, exec (.cwpush n bits) s = next t ∧
      t = { s with ca := { s.ca with cw := t.ca.cw } } ∧ t.ca.cw.length = s.ca.cw.length + n.toNat ∧
      t.ca.cw.take s.ca.cw.length = s.ca.cw ∧
      ∀ j < n.toNat, t.ca.cw[s.ca.cw.length + j]? = some (bits.getLsbD (n.toNat - 1 - j))) ∧
    (256 < s.ca.cw.length + n.toNat →
      exec (.cwpush n bits) s = next { s with latch := latched .badCodeword (.cwpush n bits) })

/-- The pseudo-command CWSTR leaves exactly its string in CW and changes nothing else, for every string of at most 256
bits (R119, R171). -/
def Obligations.CwstrLoadsTheString : Prop :=
  ∀ (s : State) (c : Codeword), s.latch.fatal = false → c.length ≤ 256 →
    execAll (cwstr c) s = next { s with ca := { s.ca with cw := c } }

/-! ## Bit packer (R180 to R188) -/

/-- ENCSTART, in every phase, opens a stream with an empty accumulator, drops what was held and emits nothing (R183);
ENCSTOP, in every phase, closes with an empty accumulator and emits nothing (R186). -/
def Obligations.EncstartOpensAndEncstopAbandons : Prop :=
  ∀ s : State, s.latch.fatal = false →
    exec .encstart s = next { s with bp := { acc := 0, nacc := 0, active := true } } ∧
    exec .encstop s = next { s with bp := { acc := 0, nacc := 0, active := false } }

/-- ENCBYTE b in an open stream, with a codeword for `b`: the bits held, then the codeword, are the emitted bytes and
then the bits held after; the stream stays open; nothing but the packer and ENC_OUT changes (R181, R184). -/
def Obligations.EncbytePacksTheCodeword : Prop :=
  ∀ (s : State) (b : Byte) (c : Codeword), BpInv s.bp → s.latch.fatal = false → s.bp.active = true →
    ctRead s.ca.ct (b.setWidth 9) = some c →
    ∃ t ys, exec (.encbyte b) s = next t ∧
      t = { s with bp := t.bp, out := { s.out with encOut := s.out.encOut ++ ys } } ∧
      ys.flatMap byteBits ++ heldBits t.bp = heldBits s.bp ++ c ∧ t.bp.active = true ∧ BpInv t.bp

/-- ENCEND in an open stream with a sentinel codeword: the bits held, then the sentinel, then 0 to 7 zero bits fill
whole bytes, which are emitted; the packer is empty and closed; nothing else changes (R77, R182, R185). -/
def Obligations.EncendFlushesAndCloses : Prop :=
  ∀ (s : State) (c : Codeword), BpInv s.bp → s.latch.fatal = false → s.bp.active = true →
    ctRead s.ca.ct eos = some c →
    ∃ ys zeros, exec .encend s =
        next { s with bp := { acc := 0, nacc := 0, active := false }, out := { s.out with encOut := s.out.encOut ++ ys } } ∧
      ys.flatMap byteBits = heldBits s.bp ++ c ++ List.replicate zeros false ∧ zeros ≤ 7

/-- UNRESOLVED_SYMBOL, checked before any bit is pushed: nothing is emitted and the packer is as it was (R184,
R185). -/
def Obligations.UnresolvedSymbolFaults : Prop :=
  ∀ s : State, s.latch.fatal = false → s.bp.active = true →
    (∀ b : Byte, ctRead s.ca.ct (b.setWidth 9) = none →
      exec (.encbyte b) s = next { s with latch := latched .unresolvedSymbol (.encbyte b) }) ∧
    (ctRead s.ca.ct eos = none → exec .encend s = next { s with latch := latched .unresolvedSymbol .encend })

/-- ENCSTART, one ENCBYTE per input byte, ENCEND, from every state without a fault, whatever the input: with a
codeword for every byte of it and for the sentinel, the bytes appended to ENC_OUT are `pack` of the concatenated
codewords, the sentinel's last (R187). -/
def Obligations.PackedStreamIsPackOfTheCodewords : Prop :=
  ∀ (s : State) (x : List Byte) (code : Sym → Codeword), s.latch.fatal = false →
    (∀ b ∈ x, ctRead s.ca.ct (b.setWidth 9) = some (code (b.setWidth 9))) → ctRead s.ca.ct eos = some (code eos) →
    ∃ ys, execAll (packSeq x) s =
        next { s with bp := { acc := 0, nacc := 0, active := false }, out := { s.out with encOut := s.out.encOut ++ ys } } ∧
      IsPacked ((x.flatMap fun b => code (b.setWidth 9)) ++ code eos) ys

/-! ## Bit unpacker and tree decoder (R195 to R216) -/

/-- The `k`-th bit taken after `bu_load(b)` is `b[7 - k]`, UREM counts down, and after eight both registers are 0
(R196, R197). -/
def Obligations.UnpackerTakesTheTopBitFirst : Prop :=
  ∀ (s : State) (b : Byte),
    (∀ k < 8, buBit (buAdvance^[k] (buLoad b s)) = b.getLsbD (7 - k) ∧
      (buAdvance^[k] (buLoad b s)).bu.urem.toNat = 8 - k) ∧
    buAdvance^[8] (buLoad b s) = { s with bu := { ubyte := 0, urem := 0 } }

/-- TRINS sym outside RUN of a nonempty codeword that no inserted codeword equals, extends or is a prefix of, with
room for its new nodes: it completes, the new codeword leads to a leaf of `sym`, every codeword inserted before leads
where it led, no other bit sequence leads to a leaf, TNCNT grows by the nodes allocated, and nothing else changes. The
entries of TN (R203): the node where the path leaves the trie gets its new child at the old TNCNT, the new nodes stand
at consecutive indices from there, each the child of the one before on the side of its bit, the last the leaf of `sym`,
and every other entry reads as before (R203, R204). -/
def Obligations.TrinsAddsExactlyOneCodeword : Prop :=
  ∀ (s : State) (sym : Sym), TrieInv s.td → s.latch.fatal = false → sym.toNat ≤ 256 → s.td.tdst ≠ .run →
    s.ca.cw ≠ [] → (∀ c y, TrieLeads s.td.tn 0 c y → ¬ c <+: s.ca.cw ∧ ¬ s.ca.cw <+: c) →
    s.td.tncnt.toNat + (s.ca.cw.length - trieDepth s.td.tn 0 s.ca.cw) ≤ 1024 →
    ∃ t, exec (.trins sym) s = next t ∧ t = { s with td := { s.td with tn := t.td.tn, tncnt := t.td.tncnt } } ∧
      t.td.tncnt.toNat = s.td.tncnt.toNat + (s.ca.cw.length - trieDepth s.td.tn 0 s.ca.cw) ∧
      (∀ c y, TrieLeads t.td.tn 0 c y ↔ TrieLeads s.td.tn 0 c y ∨ (c = s.ca.cw ∧ y = sym)) ∧
      ∃ (p : Idx) (rest : Codeword), trieFollow s.td.tn 0 s.ca.cw = some (p, rest) ∧ p.toNat < s.td.tncnt.toNat ∧
        rest = s.ca.cw.drop (trieDepth s.td.tn 0 s.ca.cw) ∧ rest ≠ [] ∧
        ∀ q : Idx, tnRead t.td.tn q =
          if q = p then setChild (tnRead s.td.tn p) (rest.headD false) (s.td.tncnt.setWidth 10)
          else if q.toNat < s.td.tncnt.toNat ∨ t.td.tncnt.toNat ≤ q.toNat then tnRead s.td.tn q
          else if q.toNat + 1 = t.td.tncnt.toNat then { child0 := 0, child1 := 0, leaf := true, sym := sym }
          else setChild TrieNode.zero (rest.getD (q.toNat + 1 - s.td.tncnt.toNat) false) (q + 1)

/-- The faults of TRINS outside RUN, in order, with nothing else changed: BAD_CODEWORD for the empty codeword;
TRIE_CONFLICT when an inserted codeword equals, extends or is a prefix of the new one; ALLOC_FAILURE when too few
entries are free (R203). -/
def Obligations.TrinsFaultsInOrder : Prop :=
  ∀ (s : State) (sym : Sym), TrieInv s.td → s.latch.fatal = false → sym.toNat ≤ 256 → s.td.tdst ≠ .run →
    (s.ca.cw = [] → exec (.trins sym) s = next { s with latch := latched .badCodeword (.trins sym) }) ∧
    (s.ca.cw ≠ [] → (∃ c y, TrieLeads s.td.tn 0 c y ∧ (c <+: s.ca.cw ∨ s.ca.cw <+: c)) →
      exec (.trins sym) s = next { s with latch := latched .trieConflict (.trins sym) }) ∧
    (s.ca.cw ≠ [] → (∀ c y, TrieLeads s.td.tn 0 c y → ¬ c <+: s.ca.cw ∧ ¬ s.ca.cw <+: c) →
      1024 < s.td.tncnt.toNat + (s.ca.cw.length - trieDepth s.td.tn 0 s.ca.cw) →
      exec (.trins sym) s = next { s with latch := latched .allocFailure (.trins sym) })

/-- DECSTART, in every phase, opens a decode call at the root with a fresh cursor and cleared diagnostics (R208);
DECSTOP, in every phase, closes it and keeps ICWCNT and DROP (R212); neither changes anything else. -/
def Obligations.DecstartOpensAndDecstopCloses : Prop :=
  ∀ s : State, s.latch.fatal = false →
    exec .decstart s = next { s with
      td := { s.td with cur := 0, icwcnt := 0, drop := false, tdst := .run }, bu := { ubyte := 0, urem := 0 } } ∧
    exec .decstop s = next { s with td := { s.td with cur := 0, tdst := .idle }, bu := { ubyte := 0, urem := 0 } }

/-- DECBYTE b in RUN with a nonempty trie decodes the bits of `b`, bit 7 first, as `walkBits` says: bytes emitted,
dead ends counted and saturated, DONE at END_OF_STREAM with the bits not taken left in the cursor; nothing else
changes (R198, R207, R210). -/
def Obligations.DecbyteWalksTheTrie : Prop :=
  ∀ (s : State) (b : Byte), s.latch.fatal = false → s.td.tdst = .run →
    ¬((tnRead s.td.tn 0).child0 = 0 ∧ (tnRead s.td.tn 0).child1 = 0) →
    ∃ t, exec (.decbyte b) s = next t ∧
      t = { s with
        td := { s.td with cur := t.td.cur, icwcnt := t.td.icwcnt, tdst := t.td.tdst }, bu := t.bu,
        out := { s.out with decOut := s.out.decOut ++ (walkBits s.td.tn s.td.cur (byteBits b)).bytes } } ∧
      t.td.cur = (walkBits s.td.tn s.td.cur (byteBits b)).cur ∧
      t.td.icwcnt.toNat = min (s.td.icwcnt.toNat + (walkBits s.td.tn s.td.cur (byteBits b)).dead) 0xFFFFFFFF ∧
      t.td.tdst = (if (walkBits s.td.tn s.td.cur (byteBits b)).ended then .done else .run) ∧
      t.bu.urem.toNat = (walkBits s.td.tn s.td.cur (byteBits b)).rest.length ∧
      byteBits t.bu.ubyte = (walkBits s.td.tn s.td.cur (byteBits b)).rest ++
        List.replicate (8 - (walkBits s.td.tn s.td.cur (byteBits b)).rest.length) false

/-- DECBYTE in DONE drops the byte: only DROP changes; in RUN with an empty trie it is EMPTY_CODEBOOK before any bit
is taken (R210). -/
def Obligations.DecbyteDropsOrFindsNoCodebook : Prop :=
  ∀ (s : State) (b : Byte), s.latch.fatal = false →
    (s.td.tdst = .done → exec (.decbyte b) s = next { s with td := { s.td with drop := true } }) ∧
    (s.td.tdst = .run → (tnRead s.td.tn 0).child0 = 0 → (tnRead s.td.tn 0).child1 = 0 →
      exec (.decbyte b) s = next { s with latch := latched .emptyCodebook (.decbyte b) })

/-- The round trip of rule R214: for every input, if CT holds a codeword for each of its bytes and for the sentinel
and the trie leads each of these codewords to its symbol, then the packed stream, decoded, appends exactly the input
to DEC_OUT and ends in DONE with no dead end and no byte dropped. -/
def Obligations.DecodingThePackedStreamGivesTheInput : Prop :=
  ∀ (s : State) (x : List Byte) (code : Sym → Codeword), s.latch.fatal = false →
    (∀ b ∈ x, ctRead s.ca.ct (b.setWidth 9) = some (code (b.setWidth 9)) ∧
      TrieLeads s.td.tn 0 (code (b.setWidth 9)) (b.setWidth 9)) →
    ctRead s.ca.ct eos = some (code eos) → TrieLeads s.td.tn 0 (code eos) eos →
    ∃ t u ys, execAll (packSeq x) s = next t ∧ t.out.encOut = s.out.encOut ++ ys ∧
      execAll (.decstart :: dechex ys) t = next u ∧ u.out.decOut = s.out.decOut ++ x ∧
      u.td.tdst = .done ∧ u.td.icwcnt = 0 ∧ u.td.drop = false ∧ u.latch.fatal = false ∧ u.td.tn = s.td.tn

/-! ## The host's codebook text (R226, R227) -/

/-- The escaping of rules R226 and R227: parsing the text of any of the 257 symbols gives the symbol back. Host
software, outside the block (R4, log 8). -/
def Obligations.ParsingARenderedSymbolGivesTheSymbol : Prop :=
  ∀ sym : Sym, sym.toNat ≤ 256 → parseSymbol (renderSymbol sym) = some sym

/-! ## Invariants (R44) and safety -/

/-- The reset state meets every invariant. -/
def Obligations.ResetMeetsEveryInvariant : Prop := Inv State.reset

/-- Every step keeps every index space (R70) in its canonical form; the form is the model's choice, log 5. -/
def Obligations.StepKeepsMemoriesCanonical : Prop :=
  ∀ s t : State, MemInv s → step s = next t → MemInv t

/-- Every step keeps item 10 of rule R44: FATAL = 0 exactly when FCAUSE = 0, and then FCMD = 0. -/
def Obligations.StepKeepsTheLatchInvariant : Prop :=
  ∀ s t : State, LatchInv s.latch → step s = next t → LatchInv t.latch

/-- Every step keeps item 7 of rule R44: ACC < 2^NACC, and a closed packer is empty. -/
def Obligations.StepKeepsThePackerInvariant : Prop :=
  ∀ s t : State, BpInv s.bp → step s = next t → BpInv t.bp

/-- Every step keeps items 5 and 6 of rule R44: CW has at most 256 bits, a valid entry of CT between 1 and 256. -/
def Obligations.StepKeepsTheCodewordLengths : Prop :=
  ∀ s t : State, CaInv s.ca → step s = next t → CaInv t.ca

/-- Every step keeps items 8 and 9 of rule R44: the trie is a tree below TNCNT, and the decoder stands on an inner
node of it with its cursor as the phase says. The clause `child_gt` of the trie is stronger than item 8: log 10. -/
def Obligations.StepKeepsTheTrieAndTheDecoder : Prop :=
  ∀ s t : State, TrieInv s.td → DecoderInv s.td s.bu → step s = next t → TrieInv t.td ∧ DecoderInv t.td t.bu

/-- Every step keeps items 1 to 4 of rule R44: the tree builder holds loaded leaves or one whole tree. -/
def Obligations.StepKeepsTheTreeBuilder : Prop :=
  ∀ s t : State, TbInv s.tb → step s = next t → TbInv t.tb

/-- The whole of rule R44 is inductive, and from a state that meets it every step answers a next state: no host, with
whatever words and resets, can make the model stop (R71, R136, R297; where the model stops is log 3). -/
def Obligations.LegalStatesStepToLegalStates : Prop :=
  ∀ s : State, Inv s → ∃ t, step s = next t ∧ Inv t
end

