-- ==== Sys2Proof/Laws/Memory.lean ====
section
/-! SUPPORT. The laws of the index spaces: a read after a write (R9), and the canonical form, which every write keeps
and the reset memories have. -/

namespace Sys2Proof.Machine

variable {α : Type} {zero : α}

@[simp] theorem memRead_nil (i : Nat) : memRead zero [] i = zero := rfl

theorem memRead_insert_same {m : Mem α} {i : Nat} {v : α} (h : ∀ e ∈ m, e.1 ≠ i) :
    memRead zero (memInsert i v m) i = v := by
  induction m with
  | nil => simp [memInsert, memRead]
  | cons e m ih =>
    have hk : e.1 ≠ i := h e (by simp)
    have ih := ih fun x hx => h x (by simp [hx])
    by_cases hlt : i < e.1 <;> simp [memInsert, memRead, hlt, hk, ih]

theorem memRead_insert_other {m : Mem α} {i j : Nat} {v : α} (h : i ≠ j) :
    memRead zero (memInsert i v m) j = memRead zero m j := by
  induction m with
  | nil => simp [memInsert, memRead, h]
  | cons e m ih => by_cases hlt : i < e.1 <;> simp [memInsert, memRead, hlt, h, ih]

theorem memRead_filter_same {m : Mem α} {i : Nat} : memRead zero (m.filter fun e => e.1 != i) i = zero := by
  induction m with
  | nil => rfl
  | cons e m ih => by_cases hk : e.1 = i <;> simp [memRead, hk, ih]

theorem memRead_filter_other {m : Mem α} {i j : Nat} (h : i ≠ j) :
    memRead zero (m.filter fun e => e.1 != i) j = memRead zero m j := by
  induction m with
  | nil => rfl
  | cons e m ih =>
    by_cases hk : e.1 = i
    · have : e.1 ≠ j := by omega
      simp [memRead, hk, ih, h]
    · simp [memRead, hk, ih]

variable [DecidableEq α]

/-- A read of the entry just written gives the value written. -/
@[simp] theorem memRead_memWrite_same (m : Mem α) (i : Nat) (v : α) : memRead zero (memWrite zero m i v) i = v := by
  unfold memWrite
  by_cases hv : v = zero
  · simp [hv, memRead_filter_same]
  · simp only [hv, if_false]
    exact memRead_insert_same (by simp)

/-- A write leaves every other entry alone. -/
theorem memRead_memWrite_other (m : Mem α) {i j : Nat} (v : α) (h : i ≠ j) :
    memRead zero (memWrite zero m i v) j = memRead zero m j := by
  unfold memWrite
  by_cases hv : v = zero
  · simp [hv, memRead_filter_other h]
  · simp [hv, memRead_insert_other h, memRead_filter_other h]

/-- What a write does to every entry. -/
theorem memRead_memWrite (m : Mem α) (i j : Nat) (v : α) :
    memRead zero (memWrite zero m i v) j = if i = j then v else memRead zero m j := by
  by_cases h : i = j
  · subst h; simp
  · simp [memRead_memWrite_other m v h, h]

theorem mem_memInsert {m : Mem α} {i : Nat} {v : α} {e : Nat × α} :
    e ∈ memInsert i v m ↔ e = (i, v) ∨ e ∈ m := by
  induction m with
  | nil => simp [memInsert]
  | cons x m ih =>
    by_cases hlt : i < x.1 <;> simp [memInsert, hlt, ih]
    tauto

theorem memInsert_pairwise {m : Mem α} {i : Nat} {v : α} (hm : m.Pairwise fun a b => a.1 < b.1)
    (hi : ∀ e ∈ m, e.1 ≠ i) : (memInsert i v m).Pairwise fun a b => a.1 < b.1 := by
  induction m with
  | nil => simp [memInsert]
  | cons x m ih =>
    rw [List.pairwise_cons] at hm
    by_cases hlt : i < x.1
    · simp only [memInsert, hlt, if_true, List.pairwise_cons, List.mem_cons]
      refine ⟨?_, hm⟩
      rintro b (rfl | hb)
      · exact hlt
      · exact hlt.trans (hm.1 b hb)
    · simp only [memInsert, hlt, if_false, List.pairwise_cons]
      refine ⟨fun b hb => ?_, ih hm.2 fun e he => hi e (by simp [he])⟩
      rcases mem_memInsert.1 hb with rfl | hb
      · have := hi x (by simp)
        simp only
        omega
      · exact hm.1 b hb

/-- A write inside the space keeps the canonical form. -/
theorem memWf_memWrite {size : Nat} {m : Mem α} (hm : memWf zero size m) {i : Nat} (hi : i < size) (v : α) :
    memWf zero size (memWrite zero m i v) := by
  have hf : memWf zero size (m.filter fun e => e.1 != i) :=
    ⟨hm.1.filter _, fun e he => hm.2 e (List.mem_of_mem_filter he)⟩
  unfold memWrite
  by_cases hv : v = zero
  · simpa only [hv, if_true] using hf
  · simp only [hv, if_false]
    refine ⟨memInsert_pairwise hf.1 (by simp), fun e he => ?_⟩
    rcases mem_memInsert.1 he with rfl | he
    · exact ⟨hi, hv⟩
    · exact hf.2 e he

omit [DecidableEq α] in
/-- Beyond the listed indices every entry is zero. -/
theorem memRead_beyond {m : Mem α} {n i : Nat} (h : ∀ e ∈ m, e.1 < n) (hi : n ≤ i) : memRead zero m i = zero := by
  induction m with
  | nil => rfl
  | cons e m ih =>
    have h1 : e.1 < n := h e (by simp)
    rw [memRead, if_neg (by omega)]
    exact ih fun e' he' => h e' (by simp [he'])

omit [DecidableEq α] in
/-- The reset contents of every index space are in canonical form. -/
@[simp] theorem memWf_nil {size : Nat} : memWf zero size ([] : Mem α) := by simp [memWf]

/-! ## The named spaces -/

@[simp] theorem ndRead_nil (i : Nat) : ndRead [] i = Node.zero := rfl
@[simp] theorem inqRead_nil (i : Nat) : inqRead [] i = false := rfl
@[simp] theorem seenRead_nil (s : Sym) : seenRead [] s = false := rfl
@[simp] theorem ctRead_nil (s : Sym) : ctRead [] s = none := rfl
@[simp] theorem tnRead_nil (p : Idx) : tnRead [] p = TrieNode.zero := rfl

theorem ndRead_write (m : Mem Node) (i j : Nat) (v : Node) :
    ndRead (ndWrite m i v) j = if i = j then v else ndRead m j := memRead_memWrite m i j v

theorem inqRead_write (m : Mem Bool) (i j : Nat) (v : Bool) :
    inqRead (inqWrite m i v) j = if i = j then v else inqRead m j := memRead_memWrite m i j v

theorem seenRead_write (m : Mem Bool) (s t : Sym) (v : Bool) :
    seenRead (seenWrite m s v) t = if s = t then v else seenRead m t := by
  simp [seenRead, seenWrite, memRead_memWrite, BitVec.toNat_inj]

theorem ctRead_write (m : Mem (Option Codeword)) (s t : Sym) (v : Option Codeword) :
    ctRead (ctWrite m s v) t = if s = t then v else ctRead m t := by
  simp [ctRead, ctWrite, memRead_memWrite, BitVec.toNat_inj]

theorem tnRead_write (m : Mem TrieNode) (p q : Idx) (v : TrieNode) :
    tnRead (tnWrite m p v) q = if p = q then v else tnRead m q := by
  simp [tnRead, tnWrite, memRead_memWrite, BitVec.toNat_inj]

theorem memWf_tnWrite {m : Mem TrieNode} (hm : memWf TrieNode.zero 1024 m) (p : Idx) (v : TrieNode) :
    memWf TrieNode.zero 1024 (tnWrite m p v) := memWf_memWrite hm p.isLt v

theorem memWf_ctWrite {m : Mem (Option Codeword)} (hm : memWf none 257 m) {s : Sym} (hs : symLegal s = true)
    (v : Option Codeword) : memWf none 257 (ctWrite m s v) :=
  memWf_memWrite hm (by simp [symLegal] at hs; omega) v

end Sys2Proof.Machine
end

