-- ==== Sys2Proof/Laws/State.lean ====
section
/-! SUPPORT. What each named update does to each field of the state, so that no later proof unfolds an update. -/

namespace Sys2Proof.Machine

/-! ## respond -/

@[simp] theorem respond_tb (v : RspWord) (s : State) : (respond v s).tb = s.tb := rfl
@[simp] theorem respond_ca (v : RspWord) (s : State) : (respond v s).ca = s.ca := rfl
@[simp] theorem respond_bp (v : RspWord) (s : State) : (respond v s).bp = s.bp := rfl
@[simp] theorem respond_bu (v : RspWord) (s : State) : (respond v s).bu = s.bu := rfl
@[simp] theorem respond_td (v : RspWord) (s : State) : (respond v s).td = s.td := rfl
@[simp] theorem respond_latch (v : RspWord) (s : State) : (respond v s).latch = s.latch := rfl
@[simp] theorem respond_out (v : RspWord) (s : State) : (respond v s).out = { s.out with rsp := s.out.rsp ++ [v] } := rfl
@[simp] theorem respond_input (v : RspWord) (s : State) : (respond v s).input = s.input := rfl

/-! ## emitEnc -/

@[simp] theorem emitEnc_tb (b : Byte) (s : State) : (emitEnc b s).tb = s.tb := rfl
@[simp] theorem emitEnc_ca (b : Byte) (s : State) : (emitEnc b s).ca = s.ca := rfl
@[simp] theorem emitEnc_bp (b : Byte) (s : State) : (emitEnc b s).bp = s.bp := rfl
@[simp] theorem emitEnc_bu (b : Byte) (s : State) : (emitEnc b s).bu = s.bu := rfl
@[simp] theorem emitEnc_td (b : Byte) (s : State) : (emitEnc b s).td = s.td := rfl
@[simp] theorem emitEnc_latch (b : Byte) (s : State) : (emitEnc b s).latch = s.latch := rfl
@[simp] theorem emitEnc_out (b : Byte) (s : State) : (emitEnc b s).out = { s.out with encOut := s.out.encOut ++ [b] } := rfl
@[simp] theorem emitEnc_input (b : Byte) (s : State) : (emitEnc b s).input = s.input := rfl

/-! ## emitDec -/

@[simp] theorem emitDec_tb (b : Byte) (s : State) : (emitDec b s).tb = s.tb := rfl
@[simp] theorem emitDec_ca (b : Byte) (s : State) : (emitDec b s).ca = s.ca := rfl
@[simp] theorem emitDec_bp (b : Byte) (s : State) : (emitDec b s).bp = s.bp := rfl
@[simp] theorem emitDec_bu (b : Byte) (s : State) : (emitDec b s).bu = s.bu := rfl
@[simp] theorem emitDec_td (b : Byte) (s : State) : (emitDec b s).td = s.td := rfl
@[simp] theorem emitDec_latch (b : Byte) (s : State) : (emitDec b s).latch = s.latch := rfl
@[simp] theorem emitDec_out (b : Byte) (s : State) : (emitDec b s).out = { s.out with decOut := s.out.decOut ++ [b] } := rfl
@[simp] theorem emitDec_input (b : Byte) (s : State) : (emitDec b s).input = s.input := rfl

/-! ## resetAll -/

@[simp] theorem resetAll_tb (s : State) : (resetAll s).tb = State.reset.tb := rfl
@[simp] theorem resetAll_ca (s : State) : (resetAll s).ca = State.reset.ca := rfl
@[simp] theorem resetAll_bp (s : State) : (resetAll s).bp = State.reset.bp := rfl
@[simp] theorem resetAll_bu (s : State) : (resetAll s).bu = State.reset.bu := rfl
@[simp] theorem resetAll_td (s : State) : (resetAll s).td = State.reset.td := rfl
@[simp] theorem resetAll_latch (s : State) : (resetAll s).latch = State.reset.latch := rfl
@[simp] theorem resetAll_out (s : State) : (resetAll s).out = s.out := rfl
@[simp] theorem resetAll_input (s : State) : (resetAll s).input = s.input := rfl

/-! ## setCt -/

@[simp] theorem setCt_tb (ct : Mem (Option Codeword)) (s : State) : (setCt ct s).tb = s.tb := rfl
@[simp] theorem setCt_ca (ct : Mem (Option Codeword)) (s : State) : (setCt ct s).ca = { s.ca with ct := ct } := rfl
@[simp] theorem setCt_bp (ct : Mem (Option Codeword)) (s : State) : (setCt ct s).bp = s.bp := rfl
@[simp] theorem setCt_bu (ct : Mem (Option Codeword)) (s : State) : (setCt ct s).bu = s.bu := rfl
@[simp] theorem setCt_td (ct : Mem (Option Codeword)) (s : State) : (setCt ct s).td = s.td := rfl
@[simp] theorem setCt_latch (ct : Mem (Option Codeword)) (s : State) : (setCt ct s).latch = s.latch := rfl
@[simp] theorem setCt_out (ct : Mem (Option Codeword)) (s : State) : (setCt ct s).out = s.out := rfl
@[simp] theorem setCt_input (ct : Mem (Option Codeword)) (s : State) : (setCt ct s).input = s.input := rfl

/-! ## setCw -/

@[simp] theorem setCw_tb (cw : Codeword) (s : State) : (setCw cw s).tb = s.tb := rfl
@[simp] theorem setCw_ca (cw : Codeword) (s : State) : (setCw cw s).ca = { s.ca with cw := cw } := rfl
@[simp] theorem setCw_bp (cw : Codeword) (s : State) : (setCw cw s).bp = s.bp := rfl
@[simp] theorem setCw_bu (cw : Codeword) (s : State) : (setCw cw s).bu = s.bu := rfl
@[simp] theorem setCw_td (cw : Codeword) (s : State) : (setCw cw s).td = s.td := rfl
@[simp] theorem setCw_latch (cw : Codeword) (s : State) : (setCw cw s).latch = s.latch := rfl
@[simp] theorem setCw_out (cw : Codeword) (s : State) : (setCw cw s).out = s.out := rfl
@[simp] theorem setCw_input (cw : Codeword) (s : State) : (setCw cw s).input = s.input := rfl

/-! ## setBp -/

@[simp] theorem setBp_tb (bp : BpState) (s : State) : (setBp bp s).tb = s.tb := rfl
@[simp] theorem setBp_ca (bp : BpState) (s : State) : (setBp bp s).ca = s.ca := rfl
@[simp] theorem setBp_bp (bp : BpState) (s : State) : (setBp bp s).bp = bp := rfl
@[simp] theorem setBp_bu (bp : BpState) (s : State) : (setBp bp s).bu = s.bu := rfl
@[simp] theorem setBp_td (bp : BpState) (s : State) : (setBp bp s).td = s.td := rfl
@[simp] theorem setBp_latch (bp : BpState) (s : State) : (setBp bp s).latch = s.latch := rfl
@[simp] theorem setBp_out (bp : BpState) (s : State) : (setBp bp s).out = s.out := rfl
@[simp] theorem setBp_input (bp : BpState) (s : State) : (setBp bp s).input = s.input := rfl

/-! ## setTd -/

@[simp] theorem setTd_tb (td : TdState) (s : State) : (setTd td s).tb = s.tb := rfl
@[simp] theorem setTd_ca (td : TdState) (s : State) : (setTd td s).ca = s.ca := rfl
@[simp] theorem setTd_bp (td : TdState) (s : State) : (setTd td s).bp = s.bp := rfl
@[simp] theorem setTd_bu (td : TdState) (s : State) : (setTd td s).bu = s.bu := rfl
@[simp] theorem setTd_td (td : TdState) (s : State) : (setTd td s).td = td := rfl
@[simp] theorem setTd_latch (td : TdState) (s : State) : (setTd td s).latch = s.latch := rfl
@[simp] theorem setTd_out (td : TdState) (s : State) : (setTd td s).out = s.out := rfl
@[simp] theorem setTd_input (td : TdState) (s : State) : (setTd td s).input = s.input := rfl

/-! ## buLoad -/

@[simp] theorem buLoad_tb (b : Byte) (s : State) : (buLoad b s).tb = s.tb := rfl
@[simp] theorem buLoad_ca (b : Byte) (s : State) : (buLoad b s).ca = s.ca := rfl
@[simp] theorem buLoad_bp (b : Byte) (s : State) : (buLoad b s).bp = s.bp := rfl
@[simp] theorem buLoad_bu (b : Byte) (s : State) : (buLoad b s).bu = { ubyte := b, urem := 8 } := rfl
@[simp] theorem buLoad_td (b : Byte) (s : State) : (buLoad b s).td = s.td := rfl
@[simp] theorem buLoad_latch (b : Byte) (s : State) : (buLoad b s).latch = s.latch := rfl
@[simp] theorem buLoad_out (b : Byte) (s : State) : (buLoad b s).out = s.out := rfl
@[simp] theorem buLoad_input (b : Byte) (s : State) : (buLoad b s).input = s.input := rfl

/-! ## buAdvance -/

@[simp] theorem buAdvance_tb (s : State) : (buAdvance s).tb = s.tb := rfl
@[simp] theorem buAdvance_ca (s : State) : (buAdvance s).ca = s.ca := rfl
@[simp] theorem buAdvance_bp (s : State) : (buAdvance s).bp = s.bp := rfl
@[simp] theorem buAdvance_bu (s : State) : (buAdvance s).bu = { ubyte := s.bu.ubyte <<< 1, urem := s.bu.urem - 1 } := rfl
@[simp] theorem buAdvance_td (s : State) : (buAdvance s).td = s.td := rfl
@[simp] theorem buAdvance_latch (s : State) : (buAdvance s).latch = s.latch := rfl
@[simp] theorem buAdvance_out (s : State) : (buAdvance s).out = s.out := rfl
@[simp] theorem buAdvance_input (s : State) : (buAdvance s).input = s.input := rfl

/-! ## buClear -/

@[simp] theorem buClear_tb (s : State) : (buClear s).tb = s.tb := rfl
@[simp] theorem buClear_ca (s : State) : (buClear s).ca = s.ca := rfl
@[simp] theorem buClear_bp (s : State) : (buClear s).bp = s.bp := rfl
@[simp] theorem buClear_bu (s : State) : (buClear s).bu = { ubyte := 0, urem := 0 } := rfl
@[simp] theorem buClear_td (s : State) : (buClear s).td = s.td := rfl
@[simp] theorem buClear_latch (s : State) : (buClear s).latch = s.latch := rfl
@[simp] theorem buClear_out (s : State) : (buClear s).out = s.out := rfl
@[simp] theorem buClear_input (s : State) : (buClear s).input = s.input := rfl

/-! ## raiseFatal: only the latch can change (R256) -/

@[simp] theorem raiseFatal_tb (c : Cause) (w : CmdWord) (s : State) : (raiseFatal c w s).tb = s.tb := by
  unfold raiseFatal; split <;> rfl
@[simp] theorem raiseFatal_ca (c : Cause) (w : CmdWord) (s : State) : (raiseFatal c w s).ca = s.ca := by
  unfold raiseFatal; split <;> rfl
@[simp] theorem raiseFatal_bp (c : Cause) (w : CmdWord) (s : State) : (raiseFatal c w s).bp = s.bp := by
  unfold raiseFatal; split <;> rfl
@[simp] theorem raiseFatal_bu (c : Cause) (w : CmdWord) (s : State) : (raiseFatal c w s).bu = s.bu := by
  unfold raiseFatal; split <;> rfl
@[simp] theorem raiseFatal_td (c : Cause) (w : CmdWord) (s : State) : (raiseFatal c w s).td = s.td := by
  unfold raiseFatal; split <;> rfl
@[simp] theorem raiseFatal_out (c : Cause) (w : CmdWord) (s : State) : (raiseFatal c w s).out = s.out := by
  unfold raiseFatal; split <;> rfl
@[simp] theorem raiseFatal_input (c : Cause) (w : CmdWord) (s : State) : (raiseFatal c w s).input = s.input := by
  unfold raiseFatal; split <;> rfl

theorem raiseFatal_of_fatal (c : Cause) (w : CmdWord) {s : State} (h : s.latch.fatal = true) :
    raiseFatal c w s = s := by simp [raiseFatal, h]

theorem raiseFatal_of_clear (c : Cause) (w : CmdWord) {s : State} (h : s.latch.fatal = false) :
    raiseFatal c w s = { s with latch := { fatal := true, fcause := c, fcmd := w } } := by simp [raiseFatal, h]

end Sys2Proof.Machine
end

