-- ==== Sys2Proof/Laws/Ops.lean ====
section
/-! SUPPORT. What the shared operations of Ops.lean can do, said once (R111, R112, R256, R257). -/

namespace Sys2Proof.Machine

/-- The latch after fault entry (R256). -/
theorem raiseFatal_latch (c : Cause) (w : CmdWord) (s : State) :
    (raiseFatal c w s).latch = if s.latch.fatal then s.latch else { fatal := true, fcause := c, fcmd := w } := by
  unfold raiseFatal; split <;> rfl

/-- Fault entry always leaves FATAL = 1. -/
@[simp] theorem raiseFatal_fatal (c : Cause) (w : CmdWord) (s : State) : (raiseFatal c w s).latch.fatal = true := by
  rw [raiseFatal_latch]; split <;> simp_all

/-- An illegal word changes the latch and, for a class R opcode, appends one response (R112). -/
theorem illegalWord_eq (w : CmdWord) (s : State) :
    illegalWord w s = { raiseFatal .illegalCmd w s with
      out := { s.out with rsp := if opClassR (opField w) then s.out.rsp ++ [0] else s.out.rsp } } := by
  unfold illegalWord raiseFatal
  cases opClassR (opField w) <;> cases s.latch.fatal <;> rfl

/-- A class W command either has an illegal encoding, or is discarded, or runs its own checks and effect. -/
theorem classW_cases (i : Instr) (s : State) (body : Out) :
    (i.wellFormed = false ∧ classW i s body = .next (illegalWord (encode i) s)) ∨
      (i.wellFormed = true ∧ s.latch.fatal = true ∧ classW i s body = .next s) ∨
      (i.wellFormed = true ∧ s.latch.fatal = false ∧ classW i s body = body) := by
  unfold classW
  cases i.wellFormed <;> cases s.latch.fatal <;> simp

/-- A permitted class W command runs its body. -/
theorem classW_run {i : Instr} {s : State} (hw : i.wellFormed = true) (hf : s.latch.fatal = false) (body : Out) :
    classW i s body = body := by simp [classW, hw, hf]

/-- A class R command with a legal encoding answers, whatever FATAL is. -/
theorem classR_run {i : Instr} (hw : i.wellFormed = true) (s : State) (v : RspWord) :
    classR i s v = .next (respond v s) := by simp [classR, hw]

/-- A class R command answers its value, or has an illegal encoding. -/
theorem classR_cases (i : Instr) (s : State) (v : RspWord) :
    (i.wellFormed = true ∧ classR i s v = .next (respond v s)) ∨
      (i.wellFormed = false ∧ classR i s v = .next (illegalWord (encode i) s)) := by
  unfold classR
  cases i.wellFormed <;> simp

/-- A fault raised in a state without one latches cause and word, and changes nothing else. -/
theorem fail_of_clear (c : Cause) (i : Instr) {s : State} (h : s.latch.fatal = false) :
    fail c i s = .next { s with latch := { fatal := true, fcause := c, fcmd := encode i } } := by
  rw [fail, raiseFatal_of_clear c (encode i) h]

end Sys2Proof.Machine
end

