-- ==== Sys2Proof/Laws/BitPacker.lean ====
section
/-! SUPPORT. What the packer primitives do (R181, R182). -/

namespace Sys2Proof.Machine

/-- `bp_push(b)` with room in the byte: one bit more is held, nothing is emitted (R181). -/
theorem bpPush_held {s : State} {b : Bool} (h : s.bp.nacc.toNat + 1 ≠ 8) :
    bpPush s b = { s with bp := { s.bp with
      acc := accShift s.bp.acc b, nacc := BitVec.ofNat 3 (s.bp.nacc.toNat + 1) } } := by
  simp [bpPush, h, setBp]

/-- `bp_push(b)` that completes the byte: it is emitted and nothing is held (R181). -/
theorem bpPush_emit {s : State} {b : Bool} (h : s.bp.nacc.toNat + 1 = 8) :
    bpPush s b = { s with
      bp := { s.bp with acc := 0, nacc := 0 }
      out := { s.out with encOut := s.out.encOut ++ [accShift s.bp.acc b] } } := by
  simp [bpPush, h, setBp, emitEnc]

@[simp] theorem pushCodeword_nil (s : State) : pushCodeword [] s = s := rfl
@[simp] theorem pushCodeword_cons (b : Bool) (c : Codeword) (s : State) :
    pushCodeword (b :: c) s = pushCodeword c (bpPush s b) := rfl
theorem pushCodeword_append (c d : Codeword) (s : State) :
    pushCodeword (c ++ d) s = pushCodeword d (pushCodeword c s) := by simp [pushCodeword]

/-- Bit `i` of the accumulator after a shift: the new bit below, the old bits one place up (R181). -/
theorem accShift_getLsbD (acc : BitVec 8) (b : Bool) (i : Nat) :
    (accShift acc b).getLsbD i = (decide (i < 8) && if i = 0 then b else acc.getLsbD (i - 1)) := by
  rcases i with _ | i <;> simp [accShift]

/-- A push changes only the packer's registers and ENC_OUT. -/
theorem bpPush_frame (s : State) (b : Bool) :
    ∃ ys, bpPush s b = { s with bp := (bpPush s b).bp, out := { s.out with encOut := s.out.encOut ++ ys } } ∧
      (bpPush s b).bp.active = s.bp.active := by
  by_cases h : s.bp.nacc.toNat + 1 = 8
  · exact ⟨[accShift s.bp.acc b], by rw [bpPush_emit h], by rw [bpPush_emit h]⟩
  · exact ⟨[], by rw [bpPush_held h]; simp, by rw [bpPush_held h]⟩

/-- `bp_flush()`: with bits held one byte is emitted, otherwise none; nothing is held after it (R182). -/
theorem bpFlush_eq (s : State) :
    bpFlush s = { s with
      bp := { s.bp with acc := 0, nacc := 0 }
      out := { s.out with encOut := s.out.encOut ++
        (if 1 ≤ s.bp.nacc.toNat then [s.bp.acc <<< (8 - s.bp.nacc.toNat)] else []) } } := by
  unfold bpFlush
  split <;> simp_all [setBp, emitEnc]

end Sys2Proof.Machine
end

