-- ==== Sys2Proof/Laws/CodeAssigner.lean ====
section
/-! SUPPORT. What the operations of the code assigner answer when they answer (R161, R164). -/

namespace Sys2Proof.Machine

/-- A pointer is followed inside ND only (R70). -/
theorem ndFollow_ok {nd : Mem Node} {i : Idx} {e : Node} (h : ndFollow nd i = .ok e) :
    i.toNat < ndSize ∧ e = ndRead nd i.toNat := by
  simp only [ndFollow] at h
  split at h
  · cases h; exact ⟨by assumption, rfl⟩
  · cases h

/-- The codewords below an inner node are those of its left child under bit 0 and of its right child under bit 1
(R161). -/
theorem codes_inner {nd : Mem Node} {n : Nat} {i : Idx} {p : Codeword} {l : List (Sym × Codeword)}
    (hi : (ndRead nd i.toNat).leaf = false) (h : codes nd (n + 1) i p = .ok l) :
    ∃ a b, codes nd n (ndRead nd i.toNat).left (p ++ [false]) = .ok a ∧
      codes nd n (ndRead nd i.toNat).right (p ++ [true]) = .ok b ∧ l = a ++ b := by
  simp only [codes] at h
  split at h
  · cases h
  · next e he =>
    obtain ⟨-, rfl⟩ := ndFollow_ok he
    simp only [hi, Bool.false_eq_true, if_false] at h
    split at h
    · next a b ha hb => cases h; exact ⟨a, b, ha, hb, rfl⟩
    · cases h
    · cases h

/-- A leaf has the path to it as its only codeword (R161). -/
theorem codes_leaf {nd : Mem Node} {n : Nat} {i : Idx} {p : Codeword} {l : List (Sym × Codeword)}
    (hi : (ndRead nd i.toNat).leaf = true) (h : codes nd n i p = .ok l) : l = [((ndRead nd i.toNat).sym, p)] := by
  cases n <;> simp only [codes] at h <;> split at h <;>
    first
    | cases h
    | next e he =>
      obtain ⟨-, rfl⟩ := ndFollow_ok he
      simp only [hi, if_true] at h
      cases h
      rfl

/-- Every codeword below a node extends the node's path, by at most as many bits as the path may grow. -/
theorem codes_extends {nd : Mem Node} {n : Nat} {i : Idx} {p : Codeword} {l : List (Sym × Codeword)}
    (h : codes nd n i p = .ok l) : ∀ e ∈ l, p <+: e.2 ∧ e.2.length ≤ p.length + n := by
  induction n generalizing i p l with
  | zero =>
    by_cases hi : (ndRead nd i.toNat).leaf = true
    · rw [codes_leaf hi h]; simp
    · simp only [codes] at h
      split at h
      · cases h
      · next e he =>
        obtain ⟨-, rfl⟩ := ndFollow_ok he
        simp [hi] at h
  | succ n ih =>
    by_cases hi : (ndRead nd i.toNat).leaf = true
    · rw [codes_leaf hi h]; simp
    · obtain ⟨a, b, ha, hb, rfl⟩ := codes_inner (by simpa using hi) h
      intro e he
      rcases List.mem_append.1 he with he | he
      · obtain ⟨h1, h2⟩ := ih ha e he
        exact ⟨(List.prefix_append _ _).trans h1, by simp at h2; omega⟩
      · obtain ⟨h1, h2⟩ := ih hb e he
        exact ⟨(List.prefix_append _ _).trans h1, by simp at h2; omega⟩

/-- What every write of a legal symbol's codeword keeps, writing a whole assignment keeps. -/
theorem writeCodes_keeps {P : Mem (Option Codeword) → Prop} {pairs : List (Sym × Codeword)}
    (hstep : ∀ ct, ∀ e ∈ pairs, P ct → symLegal e.1 = true → P (ctWrite ct e.1 (some e.2)))
    {ct ct' : Mem (Option Codeword)} (hp : P ct) (h : writeCodes pairs ct = .ok ct') : P ct' := by
  induction pairs generalizing ct with
  | nil => cases h; exact hp
  | cons e rest ih =>
    simp only [writeCodes] at h
    split at h
    · next hl =>
      exact ih (fun c x hx => hstep c x (by simp [hx])) (hstep ct e (by simp) hp hl) h
    · cases h

/-- ASSIGN's operation answers the assignment written into an erased table (R164). -/
theorem assignCodes_ok {nd : Mem Node} {root : Idx} {ct : Mem (Option Codeword)} (h : assignCodes nd root = .ok ct) :
    ∃ pairs, assignment nd root = .ok pairs ∧ writeCodes pairs [] = .ok ct := by
  simp only [assignCodes] at h
  split at h
  · cases h
  · next pairs hp => exact ⟨pairs, hp, h⟩

end Sys2Proof.Machine
end

