-- ==== Sys2Proof/Laws/Operands.lean ====
section
/-! SUPPORT. The operand forms and the 32-bit words made of bits (R102, R142, R171, R172). -/

namespace Sys2Proof.Machine

@[simp] theorem byteSym_toNat (b : Byte) : (byteSym b).toNat = b.toNat := by
  have := b.isLt
  simp [byteSym]; omega

/-- "A byte operand can never name EOS" (R102). -/
theorem byteSym_ne_eos (b : Byte) : byteSym b ≠ eos := by
  have := b.isLt
  intro h
  have := congrArg BitVec.toNat h
  simp at this
  omega

@[simp] theorem countWeight_toNat (c : Count) : (countWeight c).toNat = c.toNat := by
  have := c.isLt
  simp [countWeight]; omega

@[simp] theorem pushBits_length (n : BitVec 6) (bits : BitVec 32) : (pushBits n bits).length = n.toNat := by
  simp [pushBits]

/-- The `j`-th bit appended is D[n - 1 - j] (R171). -/
theorem pushBits_get (n : BitVec 6) (bits : BitVec 32) {j : Nat} (h : j < n.toNat) :
    (pushBits n bits)[j]? = some (bits.getLsbD (n.toNat - 1 - j)) := by
  simp [pushBits, h]

theorem foldl_bits_getLsbD (bit : Nat → Bool) (n i : Nat) (h : n ≤ 32) (hi : i < 32) :
    ((List.range n).foldl (fun (v : RspWord) j => (v <<< 1) ||| (BitVec.ofBool (bit j)).setWidth 32) 0).getLsbD i =
      (decide (i < n) && bit (n - 1 - i)) := by
  induction n generalizing i with
  | zero => simp
  | succ n ih =>
    rw [List.range_succ, List.foldl_append]
    rcases i with _ | i
    · simp
    · have := ih i (by omega) (by omega)
      rw [BitVec.getLsbD_eq_getElem (by omega)] at this
      simp only [BitVec.ofNat_eq_ofNat] at this
      simp [this, hi, show n - (i + 1) = n - 1 - i by omega]

/-- Bit 31 - j of a word made of bits is its `j`-th bit (R76). -/
theorem wordOfBits_getLsbD (bit : Nat → Bool) {j : Nat} (h : j < 32) :
    (wordOfBits bit).getLsbD (31 - j) = bit j := by
  unfold wordOfBits
  rw [foldl_bits_getLsbD bit 32 (31 - j) (by omega) (by omega)]
  simp [show 31 - j < 32 by omega, show 31 - (31 - j) = j by omega]

end Sys2Proof.Machine
end

