-- ==== Sys2Proof/Machine/HostOperations.lean ====
section
/-! DEFINITION. The three operations as the host carries them out, each next command chosen from the responses so far
(R225, R231, R284 to R286). They are what a host does, not part of the block. -/

namespace Sys2Proof.Machine

/-- What the host holds after some commands, and the machine then. -/
abbrev Answer (α : Type) := Host.Outcome (α × State) Fault Refusal

/-- The outcome of going on with `f` after a next state. -/
def thenDo {α β : Type} (o : Host.Outcome α Fault Refusal) (f : α → Host.Outcome β Fault Refusal) :
    Host.Outcome β Fault Refusal :=
  match o with
  | .next x => f x
  | .fault e => .fault e
  | .refused r => .refused r

/-- Issue a class R command and take its response, the newest word of RSP (R72). -/
def ask (i : Instr) (s : State) : Answer RspWord := thenDo (exec i s) fun t => .next (t.out.rsp.getLastD 0, t)

/-- Issue class R commands one after another; their responses in order. -/
def askAll : List Instr → State → Answer (List RspWord)
  | [], s => .next ([], s)
  | i :: rest, s =>
    thenDo (ask i s) fun a => thenDo (askAll rest a.2) fun b => .next (a.1 :: b.1, b.2)

/-! ## Fields of responses -/

/-- The symbol in the response of RDNODE i, 0 (R148). -/
def symOfView (v : RspWord) : Sym := v.extractLsb' 20 9

/-- The count in the two responses of RDWEIGHT i, low word first (R119, R148). -/
def countOfViews (lo hi : RspWord) : Nat := lo.toNat + 2 ^ 32 * (hi.extractLsb' 0 9).toNat

/-- The first `len` bits of the responses of CWRD 0, CWRD 1, ..., the earliest bit in bit 31 (R172). -/
def bitsOfWords (len : Nat) (words : List RspWord) : Codeword :=
  (words.flatMap fun v => (List.range 32).map fun j => v.getLsbD (31 - j)).take len

/-- TDST in the response of RDREG STATUS (R42). -/
def tdstOfStatus (v : RspWord) : BitVec 2 := v.extractLsb' 3 2

/-! ## `encode(input_bytes) -> (codebook_records, encoded_bytes)` (R284) -/

/-- The host reads the record of leaf `i`: the node, then CTGET of the symbol it shows, then as many words of CW as
CWLEN asks for (R225). -/
def readRecord (i : Idx) (s : State) : Answer SymbolRecord :=
  thenDo (askAll (leafSeq i) s) fun node =>
    thenDo (exec (.ctget (symOfView (node.1.getD 0 0))) node.2) fun s2 =>
      thenDo (ask (.rdreg 8) s2) fun len =>
        thenDo (askAll (cwrdSeq len.1.toNat) len.2) fun words =>
          .next (
            { symbol := symOfView (node.1.getD 0 0)
              count := countOfViews (node.1.getD 1 0) (node.1.getD 2 0)
              codeword := bitsOfWords len.1.toNat words.1 }, words.2)

/-- The records of the leaves listed, in this order. -/
def readRecords : List Nat → State → Answer (List SymbolRecord)
  | [], s => .next ([], s)
  | i :: rest, s =>
    thenDo (readRecord (BitVec.ofNat 10 i) s) fun a =>
      thenDo (readRecords rest a.2) fun b => .next (a.1 :: b.1, b.2)

/-- What `encode` gives the host (R284). -/
structure Encoded where
  records : List SymbolRecord
  bytes   : List Byte
  status  : RspWord
  deriving DecidableEq, Repr

/-- `encode(input_bytes)`: the symbol table of the input is loaded and built, the records are read out and put in
canonical order, the input is packed; the encoded bytes are what ENC_OUT received since ENCSTART (R220, R224, R229,
R284). None if a count has no LDSYM word. -/
def encodeOperation (treeOnly : Bool) (input : List Byte) (s : State) : Option (Answer Encoded) :=
  (loadable (symbolTable input)).map fun table =>
    thenDo (execAll (codebookSeq treeOnly table) s) fun s1 =>
      thenDo (readRecords (List.range table.length) s1) fun recs =>
        thenDo (execAll (packSeq input) recs.2) fun s3 =>
          thenDo (ask (.rdreg 1) s3) fun st =>
            .next (
              { records := canonicalOrder recs.1
                bytes := st.2.out.encOut.drop recs.2.out.encOut.length
                status := st.1 }, st.2)

/-! ## `build_decode_tree(codebook_records) -> tree` (R285) -/

/-- The tree is the trie the block then holds; a record's symbol and codeword are all that is used (R227). -/
def buildTreeOperation (callOpen : Bool) (records : List SymbolRecord) (s : State) : Out :=
  execAll (buildTreeSeq callOpen (records.map fun r => (r.symbol, r.codeword))) s

/-! ## `decode(tree, encoded_bytes) -> output_bytes` (R286) -/

/-- DECBYTE after DECBYTE "until STATUS.TDST = DONE or the bytes run out", STATUS read after each. -/
def feedUntilDone : List Byte → State → Out
  | [], s => .next s
  | b :: rest, s =>
    thenDo (exec (.decbyte b) s) fun s1 =>
      thenDo (ask (.rdreg 1) s1) fun st => if tdstOfStatus st.1 = 2 then .next st.2 else feedUntilDone rest st.2

/-- What `decode` gives the host: the output, STATUS as read before DECSTOP, and the diagnostic (R286). -/
structure Decoded where
  output : List Byte
  status : RspWord
  icwcnt : RspWord
  deriving DecidableEq, Repr

/-- `decode(tree, encoded_bytes)`; the output is what DEC_OUT received since DECSTART (R286). -/
def decodeOperation (bytes : List Byte) (s : State) : Answer Decoded :=
  thenDo (exec .decstart s) fun s1 =>
    thenDo (feedUntilDone bytes s1) fun s2 =>
      thenDo (ask (.rdreg 1) s2) fun st =>
        thenDo (ask (.rdreg 11) st.2) fun icw =>
          thenDo (exec .decstop icw.2) fun s5 =>
            .next ({ output := s5.out.decOut.drop s1.out.decOut.length, status := st.1, icwcnt := icw.1 }, s5)

end Sys2Proof.Machine
end

