-- ==== Sys2Proof/Laws/HostOperations.lean ====
section
/-! SUPPORT. What the host learns from responses: the record it reads out by commands is the one the state holds (R225). -/

namespace Sys2Proof.Machine

@[simp] theorem thenDo_next {α β : Type} (x : α) (f : α → Host.Outcome β Fault Refusal) : thenDo (.next x) f = f x := rfl

/-- Asking a class R command gives its response and appends it to RSP. -/
theorem ask_of_exec {i : Instr} {s : State} {v : RspWord} (h : exec i s = .next (respond v s)) :
    ask i s = .next (v, respond v s) := by
  rw [ask, h, thenDo_next]
  simp

/-- The machine with more words sent on RSP. -/
def respondAll (vs : List RspWord) (s : State) : State := { s with out := { s.out with rsp := s.out.rsp ++ vs } }

@[simp] theorem respondAll_nil (s : State) : respondAll [] s = s := by simp [respondAll]

@[simp] theorem respondAll_tb (vs : List RspWord) (s : State) : (respondAll vs s).tb = s.tb := rfl
theorem respond_respondAll (v : RspWord) (vs : List RspWord) (s : State) :
    respond v (respondAll vs s) = respondAll (vs ++ [v]) s := by simp [respondAll, respond]

/-- Asking class R commands whose answers do not depend on RSP gives all their responses. -/
theorem askAll_eq (is : List Instr) (answer : Instr → RspWord) (s : State)
    (h : ∀ i ∈ is, ∀ vs, exec i (respondAll vs s) = .next (respond (answer i) (respondAll vs s))) (vs : List RspWord) :
    askAll is (respondAll vs s) = .next (is.map answer, respondAll (vs ++ is.map answer) s) := by
  induction is generalizing vs with
  | nil => simp [askAll]
  | cons i is ih =>
    rw [askAll, ask_of_exec (h i (by simp) vs), thenDo_next]
    simp only [respond_respondAll]
    rw [ih (fun j hj => h j (by simp [hj])), thenDo_next]
    simp

/-- The symbol field of RDNODE's first view is the node's symbol (R148). -/
theorem symOfView_nodeView (e : Node) (q : Bool) : symOfView (nodeView e q 0) = e.sym := by
  apply BitVec.eq_of_getLsbD_eq
  intro k hk
  have h : nodeView e q 0 =
      ((BitVec.ofBool e.leaf ++ BitVec.ofBool q ++ 0#1 : BitVec 3) ++ e.sym ++ e.left : BitVec (3 + 9 + 10)) ++ e.right := rfl
  rw [symOfView, h, BitVec.getLsbD_extractLsb', BitVec.getLsbD_append, BitVec.getLsbD_append, BitVec.getLsbD_append]
  simp [hk, show ¬ 20 + k < 10 by omega, show 20 + k - 10 = 10 + k by omega]

/-- RDWEIGHT's two words make up the node's weight (R119, R148). -/
theorem countOfViews_nodeView (e : Node) (q : Bool) : countOfViews (nodeView e q 1) (nodeView e q 2) = e.weight.toNat := by
  have hw := e.weight.isLt
  have h2 : (nodeView e q 2).extractLsb' 0 9 = e.weight.extractLsb' 32 9 := by
    apply BitVec.eq_of_getLsbD_eq
    intro k hk
    have h : nodeView e q 2 = 0#23 ++ e.weight.extractLsb' 32 9 := rfl
    rw [h, BitVec.getLsbD_extractLsb', BitVec.getLsbD_append]
    simp [hk]
  have h1 : nodeView e q 1 = e.weight.extractLsb' 0 32 := rfl
  rw [countOfViews, h2, h1, BitVec.extractLsb'_toNat, BitVec.extractLsb'_toNat, Nat.shiftRight_zero, Nat.shiftRight_eq_div_pow]
  omega

/-- The bits of the words that CWRD answers are the codeword (R172). -/
theorem bitsOfWords_cwWord (cw : Codeword) (n : Nat) (hn : cw.length ≤ 32 * n) (h8 : n ≤ 8) :
    bitsOfWords cw.length ((List.range n).map fun k => cwWord cw (BitVec.ofNat 3 k)) = cw := by
  have hword : ∀ k < 8, ((List.range 32).map fun j => (cwWord cw (BitVec.ofNat 3 k)).getLsbD (31 - j)) =
      (List.range 32).map fun j => cw.getD (32 * k + j) false := by
    intro k hk
    apply List.map_congr_left
    intro j hj
    rw [cwWord, wordOfBits_getLsbD _ (by simpa using hj)]
    have : (BitVec.ofNat 3 k).toNat = k := by rw [BitVec.toNat_ofNat]; omega
    rw [this]
  have hall : ∀ m ≤ n, ((List.range m).map fun k => cwWord cw (BitVec.ofNat 3 k)).flatMap
      (fun v => (List.range 32).map fun j => v.getLsbD (31 - j)) = (List.range (32 * m)).map fun j => cw.getD j false := by
    intro m
    induction m with
    | zero => intro _; rfl
    | succ m ih =>
      intro hm
      rw [List.range_succ (n := m), List.map_append, List.flatMap_append, ih (by omega)]
      simp only [List.map_cons, List.map_nil, List.flatMap_cons, List.flatMap_nil, List.append_nil]
      rw [hword m (by omega), show 32 * (m + 1) = 32 * m + 32 by omega, List.range_add, List.map_append, List.map_map]
      rfl
  rw [bitsOfWords, hall n (Nat.le_refl n)]
  apply List.ext_getElem?
  intro j
  rw [List.getElem?_take]
  by_cases hj : j < cw.length
  · simp [hj, show j < 32 * n by omega]
  · simp [hj]

/-- The record that the host reads out of leaf `i` by commands is the record the state holds, whenever the leaf's symbol
and its codeword are legal; the read-out changes only CW and RSP (R225). -/
theorem readRecord_eq {s : State} {i : Idx} (hf : s.latch.fatal = false) (hi : i.toNat ≤ 512)
    (hs : (ndRead s.tb.nd i.toNat).sym.toNat ≤ 256)
    (hc : ∀ c, ctRead s.ca.ct (ndRead s.tb.nd i.toNat).sym = some c → c.length ≤ 256) :
    ∃ vs, readRecord i s =
      .next (recordOfLeaf s i.toNat, respondAll vs (setCw (recordOfLeaf s i.toNat).codeword s)) := by
  set e := ndRead s.tb.nd i.toNat with he
  set cw := (ctRead s.ca.ct e.sym).getD [] with hcw
  have hlen : cw.length ≤ 256 := by
    rw [hcw]
    cases h : ctRead s.ca.ct e.sym with
    | none => simp
    | some c => exact hc c h
  obtain ⟨q, hq⟩ : ∃ q, inqRead s.tb.inq i.toNat = q := ⟨_, rfl⟩
  have hnode : ∀ j ∈ leafSeq i, ∀ vs, exec j (respondAll vs s) = .next (respond (match j with
      | .rdnode _ sel => nodeView e q sel
      | _ => 0) (respondAll vs s)) := by
    intro j hj vs
    simp only [leafSeq, rdweight, List.mem_cons, List.not_mem_nil, or_false] at hj
    rcases hj with rfl | rfl | rfl <;>
      exact (classR_run (by simp [Instr.wellFormed, hi]) _ _).trans (by rw [respondAll_tb, ← he, hq])
  have hget : exec (.ctget e.sym) (respondAll [nodeView e q 0, nodeView e q 1, nodeView e q 2] s) =
      .next (respondAll [nodeView e q 0, nodeView e q 1, nodeView e q 2] (setCw cw s)) :=
    classW_run (i := .ctget e.sym) (s := respondAll _ s) (by simp [Instr.wellFormed, symLegal, hs]) hf _
  have hlenRead : ∀ vs, exec (.rdreg 8) (respondAll vs (setCw cw s)) =
      .next (respond (BitVec.ofNat 32 cw.length) (respondAll vs (setCw cw s))) := by
    intro vs
    refine (classR_run (i := .rdreg 8) (by decide) _ _).trans ?_
    have : controlReg (respondAll vs (setCw cw s)) 8 = (BitVec.ofNat 9 cw.length).setWidth 32 := rfl
    rw [this]
    congr 2
    apply BitVec.eq_of_toNat_eq
    simp only [BitVec.toNat_setWidth, BitVec.toNat_ofNat]
    omega
  have hwords : ∀ j ∈ cwrdSeq cw.length, ∀ vs, exec j (respondAll vs (setCw cw s)) = .next (respond (match j with
      | .cwrd k => cwWord cw k
      | _ => 0) (respondAll vs (setCw cw s))) := by
    intro j hj vs
    obtain ⟨k, -, rfl⟩ := List.mem_map.1 hj
    exact classR_run (i := .cwrd (BitVec.ofNat 3 k)) rfl _ _
  have hlast : (BitVec.ofNat 32 cw.length).toNat = cw.length := by rw [BitVec.toNat_ofNat]; omega
  have h1 := askAll_eq (leafSeq i) _ s hnode []
  rw [respondAll_nil] at h1
  have h3 := ask_of_exec (hlenRead [nodeView e q 0, nodeView e q 1, nodeView e q 2])
  have h4 := askAll_eq (cwrdSeq cw.length) _ (setCw cw s) hwords
    [nodeView e q 0, nodeView e q 1, nodeView e q 2, BitVec.ofNat 32 cw.length]
  have hbits : bitsOfWords cw.length ((cwrdSeq cw.length).map fun j => match j with
      | .cwrd k => cwWord cw k
      | _ => 0) = cw := by
    rw [cwrdSeq, List.map_map]
    exact bitsOfWords_cwWord cw _ (by omega) (by omega)
  rw [readRecord, h1, thenDo_next]
  simp only [leafSeq, rdweight, List.map_cons, List.map_nil, List.nil_append, List.getD_cons_zero, List.getD_cons_succ,
    symOfView_nodeView, countOfViews_nodeView]
  rw [hget, thenDo_next, h3, thenDo_next]
  simp only [hlast, respond_respondAll, List.cons_append, List.nil_append]
  rw [h4, thenDo_next]
  simp only [hbits]
  exact ⟨_, rfl⟩

end Sys2Proof.Machine
end

