-- ==== Sys2Proof/Laws/PerInstr.lean ====
section
/-! SUPPORT. Statements made for every command as syntax, one lemma per constructor: the opcode byte of its word is the
one of rule R104, and its word matches its row of the opcode table (R105). -/

namespace Sys2Proof

/-- Bit `k` of a command's word: D below 32, A below 56, OP above (R100). -/
theorem encode_getLsbD (i : Instr) (k : Nat) :
    (encode i).getLsbD k =
      if k < 32 then (dField i).getLsbD k
      else if k < 56 then (aField i).getLsbD (k - 32) else (opcodeOf i).getLsbD (k - 56) := by
  simp only [encode, BitVec.getLsbD_append]
  by_cases h : k < 32
  · simp [h]
  · by_cases h' : k < 56
    · simp [h, h', show k - 32 < 24 by omega]
    · simp [h, h', show ¬ k - 32 < 24 by omega, show k - 32 - 24 = k - 56 by omega]

/-- OP of a command's word is the command's opcode (R100, R104). -/
theorem opField_encode (i : Instr) : opField (encode i) = opcodeOf i := by
  apply BitVec.eq_of_getLsbD_eq
  intro k hk
  simp only [opField, BitVec.getLsbD_extractLsb', encode_getLsbD, hk, decide_true, Bool.true_and]
  simp [show ¬ 56 + k < 32 by omega]

/-- A mask of two fields side by side masks each field. -/
theorem append_and_append {m n : Nat} (a c : BitVec m) (b d : BitVec n) :
    (a ++ b) &&& (c ++ d) = (a &&& c) ++ (b &&& d) := by
  apply BitVec.eq_of_getLsbD_eq
  intro k hk
  simp only [BitVec.getLsbD_and, BitVec.getLsbD_append]
  by_cases h : k < n <;> simp [h]

/-- A mask that covers only the unassigned bits of A sees zeros (R101). -/
theorem masked_operand {m n : Nat} (c : BitVec m) (x : BitVec n) : (0#m ++ x) &&& (c ++ 0#n) = 0 := by
  rw [append_and_append]
  apply BitVec.eq_of_getLsbD_eq
  intro k hk
  simp

/-- Zero operand bits side by side are 56 zero bits. -/
theorem zeros_append (o : BitVec 8) : ((o ++ 0#24 : BitVec 32) ++ 0#32 : BitVec 64) = o ++ 0#56 := by
  apply BitVec.eq_of_getLsbD_eq
  intro k hk
  simp only [BitVec.getLsbD_append, BitVec.getLsbD_zero]
  by_cases h : k < 32
  · simp [h, show k < 56 by omega]
  · by_cases h' : k < 56
    · simp [h, h', show k - 32 < 24 by omega]
    · simp [h, h', show ¬ k - 32 < 24 by omega, show k - 32 - 24 = k - 56 by omega]

/-- A command whose operands the mask does not cover matches its row (R105). -/
theorem match_of_fields {i : Instr} {a : BitVec 24} {d : BitVec 32}
    (hm : formatMask (formatOf i) = (0xFF#8 ++ a : BitVec 32) ++ d) (ha : aField i &&& a = 0) (hd : dField i &&& d = 0) :
    encode i &&& formatMask (formatOf i) = opcodeOf i ++ 0#56 := by
  have h1 : (opcodeOf i ++ aField i : BitVec 32) &&& (0xFF#8 ++ a : BitVec 32) = opcodeOf i ++ 0#24 := by
    have := append_and_append (opcodeOf i) 0xFF#8 (aField i) a
    rw [ha, show (0xFF#8) = BitVec.allOnes 8 by decide, BitVec.and_allOnes] at this
    exact this
  have h2 := append_and_append (opcodeOf i ++ aField i : BitVec 32) (0xFF#8 ++ a : BitVec 32) (dField i) d
  rw [hm]
  refine Eq.trans h2 ?_
  rw [h1, hd]
  exact zeros_append _

end Sys2Proof

namespace Sys2Proof.Laws.OpcodeByte

/-- The opcode byte of the command's word is the one of rule R104. -/
def Statement (i : Instr) : Prop := opField (encode i) = opcodeOf i

theorem nop : Statement (.nop) := opField_encode _
theorem srst : Statement (.srst) := opField_encode _
theorem rdreg (r : BitVec 8) : Statement (.rdreg r) := opField_encode _
theorem tbclr : Statement (.tbclr) := opField_encode _
theorem ldsym (sym : Sym) (cnt : Count) : Statement (.ldsym sym cnt) := opField_encode _
theorem build : Statement (.build) := opField_encode _
theorem rdnode (idx : Idx) (sel : BitVec 2) : Statement (.rdnode idx sel) := opField_encode _
theorem assign : Statement (.assign) := opField_encode _
theorem ctclr : Statement (.ctclr) := opField_encode _
theorem ctset (sym : Sym) : Statement (.ctset sym) := opField_encode _
theorem ctget (sym : Sym) : Statement (.ctget sym) := opField_encode _
theorem cwclr : Statement (.cwclr) := opField_encode _
theorem cwpush (n : BitVec 6) (bits : BitVec 32) : Statement (.cwpush n bits) := opField_encode _
theorem cwrd (k : BitVec 3) : Statement (.cwrd k) := opField_encode _
theorem encstart : Statement (.encstart) := opField_encode _
theorem encbyte (b : Byte) : Statement (.encbyte b) := opField_encode _
theorem encend : Statement (.encend) := opField_encode _
theorem encstop : Statement (.encstop) := opField_encode _
theorem trclr : Statement (.trclr) := opField_encode _
theorem trins (sym : Sym) : Statement (.trins sym) := opField_encode _
theorem rdtrie (idx : Idx) : Statement (.rdtrie idx) := opField_encode _
theorem decstart : Statement (.decstart) := opField_encode _
theorem decbyte (b : Byte) : Statement (.decbyte b) := opField_encode _
theorem decstop : Statement (.decstop) := opField_encode _

end Sys2Proof.Laws.OpcodeByte

namespace Sys2Proof.Laws.TableMatch

/-- `w & mask = match` for the command's row of the opcode table: match is `OP << 56` (R105). -/
def Statement (i : Instr) : Prop := encode i &&& formatMask (formatOf i) = opcodeOf i ++ 0#56

theorem nop : Statement .nop := by unfold Statement; decide
theorem srst : Statement .srst := by unfold Statement; decide
theorem rdreg (r : BitVec 8) : Statement (.rdreg r) :=
  match_of_fields (a := 0xFFFF#16 ++ 0#8) (d := 0xFFFFFFFF#32) rfl (masked_operand 0xFFFF#16 r) BitVec.zero_and
theorem tbclr : Statement .tbclr := by unfold Statement; decide
theorem ldsym (sym : Sym) (cnt : Count) : Statement (.ldsym sym cnt) :=
  match_of_fields (a := 0x7FFF#15 ++ 0#9) (d := 0#32) rfl (masked_operand 0x7FFF#15 sym) (BitVec.and_zero)
theorem build : Statement .build := by unfold Statement; decide
theorem rdnode (idx : Idx) (sel : BitVec 2) : Statement (.rdnode idx sel) := by
  refine match_of_fields (a := 0x3F#6 ++ 0#2 ++ 0x3F#6 ++ 0#10) (d := 0xFFFFFFFF#32) rfl ?_ BitVec.zero_and
  have h1 := append_and_append (0#6 ++ sel ++ 0#6) (0x3F#6 ++ 0#2 ++ 0x3F#6) idx 0#10
  have h2 := append_and_append (0#6 ++ sel) (0x3F#6 ++ 0#2) 0#6 0x3F#6
  rw [masked_operand 0x3F#6 sel] at h2
  rw [h2, BitVec.and_zero] at h1
  exact h1.trans (by decide)
theorem assign : Statement .assign := by unfold Statement; decide
theorem ctclr : Statement .ctclr := by unfold Statement; decide
theorem ctset (sym : Sym) : Statement (.ctset sym) :=
  match_of_fields (a := 0x7FFF#15 ++ 0#9) (d := 0xFFFFFFFF#32) rfl (masked_operand 0x7FFF#15 sym) BitVec.zero_and
theorem ctget (sym : Sym) : Statement (.ctget sym) :=
  match_of_fields (a := 0x7FFF#15 ++ 0#9) (d := 0xFFFFFFFF#32) rfl (masked_operand 0x7FFF#15 sym) BitVec.zero_and
theorem cwclr : Statement .cwclr := by unfold Statement; decide
theorem cwpush (n : BitVec 6) (bits : BitVec 32) : Statement (.cwpush n bits) :=
  match_of_fields (a := 0x3FFFF#18 ++ 0#6) (d := 0#32) rfl (masked_operand 0x3FFFF#18 n) (BitVec.and_zero)
theorem cwrd (k : BitVec 3) : Statement (.cwrd k) :=
  match_of_fields (a := 0x1FFFFF#21 ++ 0#3) (d := 0xFFFFFFFF#32) rfl (masked_operand 0x1FFFFF#21 k) BitVec.zero_and
theorem encstart : Statement .encstart := by unfold Statement; decide
theorem encbyte (b : Byte) : Statement (.encbyte b) :=
  match_of_fields (a := 0xFFFF#16 ++ 0#8) (d := 0xFFFFFFFF#32) rfl (masked_operand 0xFFFF#16 b) BitVec.zero_and
theorem encend : Statement .encend := by unfold Statement; decide
theorem encstop : Statement .encstop := by unfold Statement; decide
theorem trclr : Statement .trclr := by unfold Statement; decide
theorem trins (sym : Sym) : Statement (.trins sym) :=
  match_of_fields (a := 0x7FFF#15 ++ 0#9) (d := 0xFFFFFFFF#32) rfl (masked_operand 0x7FFF#15 sym) BitVec.zero_and
theorem rdtrie (idx : Idx) : Statement (.rdtrie idx) :=
  match_of_fields (a := 0x3FFF#14 ++ 0#10) (d := 0xFFFFFFFF#32) rfl (masked_operand 0x3FFF#14 idx) BitVec.zero_and
theorem decstart : Statement .decstart := by unfold Statement; decide
theorem decbyte (b : Byte) : Statement (.decbyte b) :=
  match_of_fields (a := 0xFFFF#16 ++ 0#8) (d := 0xFFFFFFFF#32) rfl (masked_operand 0xFFFF#16 b) BitVec.zero_and
theorem decstop : Statement .decstop := by unfold Statement; decide

end Sys2Proof.Laws.TableMatch
end

