-- ==== Sys2Proof/Laws/Step.lean ====
section
/-! SUPPORT. What one step can do (R71, R111, R264, R280). -/

namespace Sys2Proof.Machine

/-- A step that answers a next state was idle, a hard reset, an illegal word, or one decoded command. -/
theorem step_cases {s t : State} (h : step s = .next t) :
    (s.input = [] ∧ t = s) ∨
    (∃ rest, s.input = .rst :: rest ∧ t = resetAll { s with input := rest }) ∨
    (∃ w rest why, s.input = .cmd w :: rest ∧ decode w = .error why ∧ t = illegalWord w { s with input := rest }) ∨
    (∃ w rest i, s.input = .cmd w :: rest ∧ decode w = .ok i ∧ exec i { s with input := rest } = .next t) := by
  simp only [step] at h
  split at h
  · next hi => cases h; exact .inl ⟨hi, rfl⟩
  · next m rest hi =>
    cases m with
    | rst => cases h; exact .inr (.inl ⟨rest, hi, rfl⟩)
    | cmd w =>
      simp only [takeMove, takeWord] at h
      split at h
      · next i hd => exact .inr (.inr (.inr ⟨w, rest, i, hi, hd, h⟩))
      · next why hd => cases h; exact .inr (.inr (.inl ⟨w, rest, why, hi, hd, rfl⟩))

end Sys2Proof.Machine
end

