-- ==== Sys2Proof/Laws/TreeBuilder.lean ====
section
/-! SUPPORT. What the operations of the tree builder answer when they answer (R142, R144, R146). -/

namespace Sys2Proof.Machine

/-- A bit that reads 1 is listed. -/
theorem mem_of_inqRead {inq : Mem Bool} {i : Nat} (h : inqRead inq i = true) : i ∈ inq.map Prod.fst := by
  induction inq with
  | nil => simp at h
  | cons e m ih =>
    by_cases hk : e.1 = i
    · simp [hk]
    · have : inqRead m i = true := by simpa [inqRead, memRead, hk] using h
      exact List.mem_cons_of_mem _ (ih this)

/-- The working set holds exactly the indices of the space whose INQ bit is 1 (R26). -/
theorem mem_workingSet {inq : Mem Bool} {i : Nat} : i ∈ workingSet inq ↔ i < ndSize ∧ inqRead inq i = true := by
  simp only [workingSet, List.mem_filter, List.mem_dedup, Bool.and_eq_true, decide_eq_true_eq]
  exact ⟨fun h => h.2, fun h => ⟨mem_of_inqRead h.2, h⟩⟩

/-- The working set names no index twice, so its length is the number of set bits (R146). -/
theorem workingSet_nodup (inq : Mem Bool) : (workingSet inq).Nodup := (List.nodup_dedup _).filter _

/-- LDSYM's operation answers the tree builder with one more leaf, if the counters have room (R142). -/
theorem loadLeaf_ok {sym : Sym} {cnt : Count} {tb tb' : TbState} (h : loadLeaf sym cnt tb = .ok tb') :
    tb.nsym.toNat + 1 ≤ 511 ∧ tb.nnode.toNat + 1 ≤ 1023 ∧
      tb' = { tb with
        nd := ndWrite tb.nd tb.nsym.toNat
          { leaf := true, sym := sym, left := 0, right := 0, weight := countWeight cnt }
        inq := inqWrite tb.inq tb.nsym.toNat true
        seen := seenWrite tb.seen sym true
        nsym := tb.nsym + 1
        nnode := tb.nnode + 1 } := by
  simp only [loadLeaf] at h
  split at h
  · cases h
  · cases h
    exact ⟨by omega, by omega, rfl⟩

/-- Placing a join answers ND with one more internal node, if there is room and the sum fits (R144, R149). -/
theorem placeJoin_ok {tb tb' : TbState} {a b : Nat} (h : placeJoin tb a b = .ok tb') :
    tb.nnode.toNat < ndSize ∧ (ndRead tb.nd a).weight.toNat + (ndRead tb.nd b).weight.toNat < 2 ^ 41 ∧
      tb' = { tb with
        nd := ndWrite tb.nd tb.nnode.toNat (joinNode tb.nd a b)
        inq := inqWrite tb.inq tb.nnode.toNat true
        nnode := tb.nnode + 1 } := by
  simp only [placeJoin] at h
  split at h
  · cases h
  · split at h
    · cases h
    · cases h
      exact ⟨by omega, by omega, rfl⟩

/-- A merge answers the join of the two nodes that `argmin` takes one after the other (R144). -/
theorem mergeStep_ok {tb tb' : TbState} (h : mergeStep tb = .ok tb') :
    ∃ a b, argmin tb = some a ∧ argmin { tb with inq := inqWrite tb.inq a false } = some b ∧
      placeJoin { tb with inq := inqWrite (inqWrite tb.inq a false) b false } a b = .ok tb' := by
  simp only [mergeStep] at h
  split at h
  · cases h
  · next a ha =>
    split at h
    · cases h
    · next b hb => exact ⟨a, b, ha, hb, h⟩

/-- What every merge keeps, the loop of BUILD keeps. -/
theorem mergeLoop_keeps {P : TbState → Prop} (hstep : ∀ tb tb', P tb → mergeStep tb = .ok tb' → P tb')
    {n : Nat} {tb tb' : TbState} (hp : P tb) (h : mergeLoop n tb = .ok tb') : P tb' := by
  induction n generalizing tb with
  | zero => cases h; exact hp
  | succ n ih =>
    simp only [mergeLoop] at h
    split at h
    · split at h
      · next tb1 h1 => exact ih (hstep _ _ hp h1) h
      · cases h
    · cases h; exact hp

/-- BUILD's operation answers the merged tree builder with the index that is left as root (R146). -/
theorem buildTree_ok {tb tb' : TbState} (h : buildTree tb = .ok tb') :
    ∃ tb1 r, mergeLoop (workingSet tb.inq).length tb = .ok tb1 ∧ argmin tb1 = some r ∧
      tb' = { tb1 with root := BitVec.ofNat 10 r, built := true } := by
  simp only [buildTree] at h
  split at h
  · cases h
  · next tb1 h1 =>
    split at h
    · cases h
    · next r hr => cases h; exact ⟨tb1, r, h1, hr, rfl⟩

/-- A tree-builder result becomes a next state with only the tree builder changed. -/
theorem withTb_next {s t : State} {r : Except Fault TbState} (h : withTb s r = .next t) :
    ∃ tb, r = .ok tb ∧ t = { s with tb := tb } := by
  cases r with
  | ok tb => cases h; exact ⟨tb, rfl, rfl⟩
  | error f => cases h

end Sys2Proof.Machine
end

