-- ==== Sys2Proof/Laws/TreeDecoder.lean ====
section
/-! SUPPORT. What the operations of the decoder do (R203, R207, R210). -/

namespace Sys2Proof.Machine

@[simp] theorem childOf_setChild_same (e : TrieNode) (b : Bool) (q : Idx) : childOf (setChild e b q) b = q := by
  cases b <;> rfl
@[simp] theorem childOf_setChild_other (e : TrieNode) (b : Bool) (q : Idx) :
    childOf (setChild e b q) (!b) = childOf e (!b) := by cases b <;> rfl
@[simp] theorem setChild_leaf (e : TrieNode) (b : Bool) (q : Idx) : (setChild e b q).leaf = e.leaf := by
  cases b <;> rfl
@[simp] theorem setChild_sym (e : TrieNode) (b : Bool) (q : Idx) : (setChild e b q).sym = e.sym := by
  cases b <;> rfl
@[simp] theorem childOf_zero (b : Bool) : childOf TrieNode.zero b = 0 := by cases b <;> rfl

/-- Phase 1 of TRINS stops at a node without the wanted child, before the end of the codeword (R203). -/
theorem trieFollow_some {tn : Mem TrieNode} {p q : Idx} {c r : Codeword} (h : trieFollow tn p c = some (q, r)) :
    ∃ b r', r = b :: r' ∧ (tnRead tn q).leaf = false ∧ childOf (tnRead tn q) b = 0 ∧ r.length ≤ c.length := by
  induction c generalizing p with
  | nil => cases h
  | cons b c ih =>
    simp only [trieFollow] at h
    split at h
    · cases h
    · next hl =>
      split at h
      · next hc => cases h; exact ⟨b, c, rfl, by simpa using hl, hc, le_rfl⟩
      · obtain ⟨b', r', h1, h2, h3, h4⟩ := ih h
        exact ⟨b', r', h1, h2, h3, by simp; omega⟩

/-- Phase 2 of TRINS changes only TN and TNCNT, and TNCNT by one per bit (R203). -/
theorem trieAllocate_frame (sym : Sym) (p : Idx) (c : Codeword) (td : TdState) :
    trieAllocate sym p c td = { td with
      tn := (trieAllocate sym p c td).tn, tncnt := td.tncnt + BitVec.ofNat 11 c.length } := by
  induction c generalizing p td with
  | nil => simp [trieAllocate]
  | cons b c ih =>
    rw [trieAllocate, ih]
    simp only [List.length_cons, BitVec.ofNat_add]
    ac_rfl

/-- `td_step` does one of four things: a dead end, END_OF_STREAM, a byte, or one node down (R207). -/
theorem tdStep_cases (b : Bool) (s : State) :
    (childOf (tnRead s.td.tn s.td.cur) b = 0 ∧
      tdStep b s = { s with td := { s.td with icwcnt := icwNext s.td.icwcnt, cur := 0 } }) ∨
    (childOf (tnRead s.td.tn s.td.cur) b ≠ 0 ∧
      (tnRead s.td.tn (childOf (tnRead s.td.tn s.td.cur) b)).leaf = true ∧
      (tnRead s.td.tn (childOf (tnRead s.td.tn s.td.cur) b)).sym = eos ∧
      tdStep b s = { s with td := { s.td with tdst := .done, cur := 0 } }) ∨
    (childOf (tnRead s.td.tn s.td.cur) b ≠ 0 ∧
      (tnRead s.td.tn (childOf (tnRead s.td.tn s.td.cur) b)).leaf = true ∧
      (tnRead s.td.tn (childOf (tnRead s.td.tn s.td.cur) b)).sym ≠ eos ∧
      tdStep b s = { s with
        td := { s.td with cur := 0 }
        out := { s.out with decOut := s.out.decOut ++
          [(tnRead s.td.tn (childOf (tnRead s.td.tn s.td.cur) b)).sym.setWidth 8] } }) ∨
    (childOf (tnRead s.td.tn s.td.cur) b ≠ 0 ∧
      (tnRead s.td.tn (childOf (tnRead s.td.tn s.td.cur) b)).leaf = false ∧
      tdStep b s = { s with td := { s.td with cur := childOf (tnRead s.td.tn s.td.cur) b } }) := by
  simp only [tdStep, setTd, emitDec]
  split
  · simp_all
  · split
    · split <;> simp_all
    · simp_all

/-- What every taken bit keeps, the loop of DECBYTE keeps. -/
theorem decodeLoop_keeps {P : State → Prop}
    (hstep : ∀ s, P s → 0 < s.bu.urem.toNat → s.td.tdst = .run → P (tdStep (buBit s) (buAdvance s)))
    (n : Nat) {s : State} (h : P s) : P (decodeLoop n s) := by
  induction n generalizing s with
  | zero => exact h
  | succ n ih =>
    unfold decodeLoop
    split
    · next hc => exact ih (hstep s h hc.1 hc.2)
    · exact h

/-- ICWCNT + 1 saturates (R34). -/
theorem icwNext_toNat (n : BitVec 32) : (icwNext n).toNat = min (n.toNat + 1) 0xFFFFFFFF := by
  have := n.isLt
  simp only [icwNext, icwMax, BitVec.toNat_ofNat]
  omega

end Sys2Proof.Machine
end

