-- ==== Sys2Proof/Machine/HostRun.lean ====
section
/-! DEFINITION. A run of the block, its trace and final state, and what they say of an operation (R134, R232, R298; how
the conditions are read off the events is DEDUCED, log 12). -/

namespace Sys2Proof.Machine

/-- One command word of a run, and the state after it has completed. -/
structure Event where
  word  : CmdWord
  after : State
  deriving DecidableEq, Repr

/-- The words taken one after another from `s` (R82, R111). It ends where the model itself stops (log 3), which no run
from reset does. -/
def history : List CmdWord → State → List Event
  | [], _ => []
  | w :: rest, s =>
    match takeWord w s with
    | .next t => { word := w, after := t } :: history rest t
    | .fault _ => []
    | .refused _ => []

/-- A run: "the reset state followed by a finite sequence of command words" (R298). -/
def runOf (words : List CmdWord) : List Event := history words State.reset

/-- The final state of a run: the state after its last word, or the reset state (R298). -/
def finalState (h : List Event) : State := (h.getLast?.map Event.after).getD State.reset

/-- The trace of a run: the three output streams (R298). -/
def trace (h : List Event) : Streams := (finalState h).out

/-- The event is the word of the command `i`. -/
def issued (i : Instr) (e : Event) : Bool :=
  match decode e.word with
  | .ok j => i == j
  | .error _ => false

/-- What follows the last element that `p` accepts; none if it accepts none. -/
def afterLast {α : Type} (p : α → Bool) : List α → Option (List α)
  | [] => none
  | e :: l =>
    match afterLast p l with
    | some r => some r
    | none => if p e then some l else none

/-- The events of the current operation: "SRST inside a run starts a new operation" (R298). -/
def currentOperation (h : List Event) : List Event := (afterLast (issued .srst) h).getD h

/-- The events of the current operation since its last `i`; none if it has none. -/
def sinceLast (i : Instr) (h : List Event) : Option (List Event) := afterLast (issued i) (currentOperation h)

/-- What the host has read: STATUS with TDST = DONE (R42, R286). -/
def readDone (e : Event) : Bool := issued (.rdreg 1) e && tdstOfStatus (e.after.out.rsp.getLastD 0) == 2

/-- The state right after the last `i` of the run; reset if there is none. -/
def stateAtLast (i : Instr) (h : List Event) : State := finalState (h.filter (issued i))

/-! ## The table of rule R298 -/

/-- "Failed outright": FATAL = 1. -/
def failedOutright (h : List Event) : Bool := (finalState h).latch.fatal

/-- Encode completed: "FATAL = 0 and BP_ACTIVE = 0 after an ENCEND was issued", since the last ENCSTART. -/
def encodeCompleted (h : List Event) : Bool :=
  !failedOutright h && !(finalState h).bp.active &&
    match sinceLast .encstart h with
    | some events => events.any (issued .encend)
    | none => false

/-- The encoded stream: ENC_OUT since the last ENCSTART. -/
def encodedStream (h : List Event) : List Byte :=
  (trace h).encOut.drop (stateAtLast .encstart h).out.encOut.length

/-- `build_decode_tree` completed: FATAL = 0. -/
def buildCompleted (h : List Event) : Bool := !failedOutright h

/-- Decode completed: "FATAL = 0 and TDST = DONE before DECSTOP (or DONE was read before it)", since the last
DECSTART. -/
def decodeCompleted (h : List Event) : Bool :=
  !failedOutright h &&
    match sinceLast .decstart h with
    | some events => (finalState h).td.tdst == .done || events.any readDone
    | none => false

/-- The output: DEC_OUT since the last DECSTART. -/
def decodedOutput (h : List Event) : List Byte :=
  (trace h).decOut.drop (stateAtLast .decstart h).out.decOut.length

/-- The event is a DECBYTE. -/
def issuedDecbyte (e : Event) : Bool :=
  match decode e.word with
  | .ok (.decbyte _) => true
  | _ => false

/-- Decode of a truncated stream: "FATAL = 0 and TDST = RUN when the encoded bytes ran out", that is, after the last
DECBYTE since the last DECSTART, or after the DECSTART if there was none; "neither success nor a fault" (R213, R298). -/
def decodeTruncated (h : List Event) : Bool :=
  !failedOutright h &&
    match sinceLast .decstart h with
    | some events => ((events.filter issuedDecbyte).getLast?.map fun e => e.after.td.tdst).getD .run == .run
    | none => false

/-- The exit status that the source's collaborator expects: "0 on success, 1 on any fatal error" (R134, R232). -/
def exitStatus (h : List Event) : Nat := if failedOutright h then 1 else 0

end Sys2Proof.Machine
end

