-- ==== Sys2Proof/Tests/Slice0.lean ====
section
/-! SUPPORT. Small tests: the checks of rule R103, the decoding of every command, one step of each command on the
spec's vectors, and a witness for every statement that has hypotheses. -/

namespace Sys2Proof.Tests

-- One theorem after another: many small evaluations at once would each hold a thread of their own.
set_option Elab.async false

open Sys2Proof Sys2Proof.Machine

/-! ## Ill-formed commands (R103), one for each check -/

theorem test_ill_rdreg_14 : (Instr.rdreg 14).wellFormed = false := by decide
theorem test_ill_ldsym_257 : (Instr.ldsym 257 1).wellFormed = false := by decide
theorem test_ill_ctset_257 : (Instr.ctset 257).wellFormed = false := by decide
theorem test_ill_ctget_511 : (Instr.ctget 511).wellFormed = false := by decide
theorem test_ill_trins_257 : (Instr.trins 257).wellFormed = false := by decide
theorem test_ill_rdnode_513 : (Instr.rdnode 513 0).wellFormed = false := by decide
theorem test_ill_rdnode_sel_3 : (Instr.rdnode 0 3).wellFormed = false := by decide
theorem test_ill_cwpush_0 : (Instr.cwpush 0 0).wellFormed = false := by decide
theorem test_ill_cwpush_33 : (Instr.cwpush 33 0).wellFormed = false := by decide
theorem test_ill_cwpush_stray : (Instr.cwpush 2 4).wellFormed = false := by decide
theorem test_legal_bounds : (Instr.rdreg 13).wellFormed = true ∧ (Instr.ldsym 256 0).wellFormed = true ∧
    (Instr.rdnode 512 2).wellFormed = true ∧ (Instr.cwpush 32 0xFFFFFFFF).wellFormed = true := by decide

/-! ## Decoding. Words written out from rules R100, R101, R104; the first of each unit bit by bit (OP, A, D). -/

theorem test_decode_nop : decode 0x0000000000000000 = .ok .nop := by decide +kernel
theorem test_decode_srst : decode 0x0100000000000000 = .ok .srst := by decide +kernel
theorem test_decode_rdreg :
    decode (0b00000010#8 ++ 0b000000000000000000001101#24 ++ 0b00000000000000000000000000000000#32) =
      .ok (.rdreg 13) := by decide +kernel
theorem test_decode_tbclr : decode 0x1000000000000000 = .ok .tbclr := by decide +kernel
theorem test_decode_ldsym :
    decode (0b00010001#8 ++ 0b000000000000000100000000#24 ++ 0b10000000000000000000000000000101#32) =
      .ok (.ldsym 256 0x80000005) := by decide +kernel
theorem test_decode_build : decode 0x1200000000000000 = .ok .build := by decide +kernel
theorem test_decode_rdnode_513 :
    decode (0b00010011#8 ++ 0b000000100000001000000001#24 ++ 0b00000000000000000000000000000000#32) =
      .error .operandRange := by decide +kernel
theorem test_decode_rdnode_512 :
    decode (0b00010011#8 ++ 0b000000100000001000000000#24 ++ 0b00000000000000000000000000000000#32) =
      .ok (.rdnode 512 2) := by decide +kernel
theorem test_decode_assign : decode 0x2000000000000000 = .ok .assign := by decide +kernel
theorem test_decode_ctclr : decode 0x2100000000000000 = .ok .ctclr := by decide +kernel
theorem test_decode_ctset : decode 0x2200006100000000 = .ok (.ctset 0x61) := by decide +kernel
theorem test_decode_ctget : decode 0x2300010000000000 = .ok (.ctget 256) := by decide +kernel
theorem test_decode_cwclr : decode 0x2800000000000000 = .ok .cwclr := by decide +kernel
theorem test_decode_cwpush :
    decode (0b00101001#8 ++ 0b000000000000000000100000#24 ++ 0b11011110101011011011111011101111#32) =
      .ok (.cwpush 32 0xDEADBEEF) := by decide +kernel
theorem test_decode_cwrd : decode 0x2A00000700000000 = .ok (.cwrd 7) := by decide +kernel
theorem test_decode_encstart : decode 0x3000000000000000 = .ok .encstart := by decide +kernel
theorem test_decode_encbyte :
    decode (0b00110001#8 ++ 0b000000000000000011100010#24 ++ 0b00000000000000000000000000000000#32) =
      .ok (.encbyte 0xE2) := by decide +kernel
theorem test_decode_encend : decode 0x3200000000000000 = .ok .encend := by decide +kernel
theorem test_decode_encstop : decode 0x3300000000000000 = .ok .encstop := by decide +kernel
theorem test_decode_trclr : decode 0x4000000000000000 = .ok .trclr := by decide +kernel
theorem test_decode_trins : decode 0x4100010000000000 = .ok (.trins 256) := by decide +kernel
theorem test_decode_rdtrie :
    decode (0b01000010#8 ++ 0b000000000000001111111111#24 ++ 0b00000000000000000000000000000000#32) =
      .ok (.rdtrie 1023) := by decide +kernel
theorem test_decode_decstart : decode 0x4800000000000000 = .ok .decstart := by decide +kernel
theorem test_decode_decbyte : decode 0x490000E200000000 = .ok (.decbyte 0xE2) := by decide +kernel
theorem test_decode_decstop : decode 0x4A00000000000000 = .ok .decstop := by decide +kernel

/-- The illegal words of V51, each with the check it fails. -/
theorem test_decode_illegal :
    decode 0x0300000000000000 = .error .reservedOpcode ∧ decode 0xFF00000000000000 = .error .reservedOpcode ∧
    decode 0x0000000000000001 = .error .mustBeZero ∧ decode 0x0100000100000000 = .error .mustBeZero ∧
    decode 0x0200000E00000000 = .error .operandRange ∧ decode 0x1100010100000001 = .error .operandRange ∧
    decode 0x3100010000000000 = .error .mustBeZero ∧ decode 0x1303000000000000 = .error .operandRange ∧
    decode 0x4200040000000000 = .error .mustBeZero ∧ decode 0x2A00000800000000 = .error .mustBeZero ∧
    decode 0x2900000000000000 = .error .operandRange ∧ decode 0x2900002100000000 = .error .operandRange ∧
    decode 0x2900000200000004 = .error .operandRange := by decide +kernel

/-- A word written as bytes, most significant first (R76), and the host's numbering of the table. -/
theorem test_word_bytes :
    bytesOfWord 0x490000E200000000 = [0x49, 0, 0, 0xE2, 0, 0, 0, 0] ∧
    wordOfBytes [0x49, 0, 0, 0xE2, 0, 0, 0, 0] = 0x490000E200000000 ∧
    decodeTableWord 64 0x490000E200000000 = some (.decbyte 0xE2) := by decide +kernel

/-! ## One step, from the vectors of spec/95_test_vectors.md -/

/-- What a step leaves, if it answers a next state. -/
def after {α : Type} (o : Out) (view : State → α) : Option α :=
  match o with
  | .next t => some (view t)
  | .fault _ => none
  | .refused _ => none

/-- A leaf of ND. -/
def leafNode (sym : Sym) (w : Weight) : Node := { leaf := true, sym := sym, left := 0, right := 0, weight := w }

/-- The tree builder of V1 after its three LDSYM commands. -/
def loadedTb : TbState :=
  { nd := [(0, leafNode 0x61 3), (1, leafNode 0x62 1), (2, leafNode 256 1)]
    inq := [(0, true), (1, true), (2, true)], seen := [(0x61, true), (0x62, true), (256, true)]
    nsym := 3, nnode := 3, root := 0, built := false }

/-- The tree builder of V1 after BUILD. -/
def builtTb : TbState :=
  { nd := [(0, leafNode 0x61 3), (1, leafNode 0x62 1), (2, leafNode 256 1),
      (3, { leaf := false, sym := 0, left := 1, right := 2, weight := 2 }),
      (4, { leaf := false, sym := 0, left := 3, right := 0, weight := 5 })]
    inq := [(4, true)], seen := [(0x61, true), (0x62, true), (256, true)]
    nsym := 3, nnode := 5, root := 4, built := true }

/-- The code table of V1. -/
def codeV1 : Mem (Option Codeword) :=
  [(0x61, some [true]), (0x62, some [false, false]), (256, some [false, true])]

/-- The trie of V42. -/
def trieV42 : Mem TrieNode :=
  [(0, { child0 := 2, child1 := 1, leaf := false, sym := 0 }), (1, { child0 := 0, child1 := 0, leaf := true, sym := 0x61 }),
    (2, { child0 := 3, child1 := 4, leaf := false, sym := 0 }), (3, { child0 := 0, child1 := 0, leaf := true, sym := 0x62 }),
    (4, { child0 := 0, child1 := 0, leaf := true, sym := 256 })]

def loaded : State := { State.reset with tb := loadedTb }
def built : State := { State.reset with tb := builtTb }
/-- After ASSIGN on V1 and ENCSTART. -/
def encoding : State :=
  { State.reset with tb := builtTb, ca := { ct := codeV1, cw := [] }, bp := { acc := 0, nacc := 0, active := true } }
/-- The trie of V42, idle. -/
def trie : State := { State.reset with td := { State.reset.td with tn := trieV42, tncnt := 5 } }
/-- The trie of V42 after DECSTART. -/
def decoding : State := { State.reset with td := { State.reset.td with tn := trieV42, tncnt := 5, tdst := .run } }
/-- The trie of V42 in DONE, with a byte dropped. -/
def decodedTrie : State := { trie with td := { trie.td with tdst := .done, drop := true } }
/-- Reset with a codeword in CW. -/
def withCw (c : Codeword) (s : State) : State := { s with ca := { s.ca with cw := c } }
/-- A faulted machine: BUILD of an empty table (V15). -/
def faulted : State := { State.reset with latch := { fatal := true, fcause := .badTable, fcmd := 0x1200000000000000 } }

theorem test_nop : after (exec .nop faulted) id = some faulted := by decide +kernel
/-- V53, V52: SRST clears the latch. -/
theorem test_srst : after (exec .srst faulted) id = some State.reset := by decide +kernel
/-- P1: `RDREG STATUS -> 0x0000000A`. -/
theorem test_rdreg_status : after (exec (.rdreg 1) { decoding with tb := builtTb }) (·.out.rsp) = some [0x0000000A] := by
  decide +kernel
/-- P2: `RDREG BUSTATE -> 0x00000700`. -/
theorem test_rdreg_bustate : after (exec (.rdreg 13) { State.reset with bu := { ubyte := 0, urem := 7 } }) (·.out.rsp) =
    some [0x00000700] := by decide +kernel
theorem test_tbclr : after (exec .tbclr built) id = some State.reset := by decide +kernel
/-- V1, the first entry. -/
theorem test_ldsym : after (exec (.ldsym 0x61 3) State.reset) (fun t => (t.tb.nd, t.tb.nsym, t.tb.nnode)) =
    some ([(0, leafNode 0x61 3)], 1, 1) := by decide +kernel
/-- V15: a repeated symbol. -/
theorem test_ldsym_repeat : after (exec (.ldsym 0x61 2) loaded) (fun t => (t.latch.fcause, t.latch.fcmd, t.tb.nsym)) =
    some (.badTable, 0x1100006100000002, 3) := by decide +kernel
/-- V1. -/
theorem test_build : after (exec .build loaded) (·.tb) = some builtTb := by decide +kernel
/-- V2: one entry, no merge. -/
theorem test_build_one : after (exec .build { State.reset with tb :=
      { loadedTb with nd := [(0, leafNode 256 1)], inq := [(0, true)], seen := [(256, true)], nsym := 1, nnode := 1 } })
    (fun t => (t.tb.nnode, t.tb.root, t.tb.inq, t.tb.built)) = some (1, 0, [(0, true)], true) := by decide +kernel
/-- V1: `RDNODE 4, 0` responds 0x40000C00. -/
theorem test_rdnode : after (exec (.rdnode 4 0) built) (·.out.rsp) = some [0x40000C00] := by decide +kernel
/-- V10: the ninth weight bit of the root, and its low word. -/
theorem test_rdnode_weight : nodeView { leaf := false, sym := 0, left := 2, right := 3, weight := 12884901885 } true 2 = 2 ∧
    nodeView { leaf := false, sym := 0, left := 2, right := 3, weight := 12884901885 } true 1 = 0xFFFFFFFD := by
  decide +kernel
/-- V1. -/
theorem test_assign : after (exec .assign built) (·.ca.ct) = some codeV1 := by decide +kernel
/-- V2: the single leaf gets "0". -/
theorem test_assign_one : after (exec .assign { State.reset with tb :=
      { builtTb with nd := [(0, leafNode 256 1)], inq := [(0, true)], nsym := 1, nnode := 1, root := 0 } })
    (·.ca.ct) = some [(256, some [false])] := by decide +kernel
/-- V35: CTCLR with a stream open. -/
theorem test_ctclr_open : after (exec .ctclr encoding) (fun t => (t.latch.fcause, t.ca.ct)) = some (.sequence, codeV1) := by
  decide +kernel
theorem test_ctclr : after (exec .ctclr { encoding with bp := State.reset.bp }) (·.ca.ct) = some [] := by decide +kernel
/-- P3: `CTSET 'a'` with CW = "0". -/
theorem test_ctset : after (exec (.ctset 0x61) (withCw [false] State.reset)) (·.ca.ct) = some [(0x61, some [false])] := by
  decide +kernel
theorem test_ctset_empty : after (exec (.ctset 0x61) State.reset) (fun t => (t.latch.fcause, t.ca.ct)) =
    some (.badCodeword, []) := by decide +kernel
/-- P1: `CTGET 'b'` while a stream is open; and a symbol without a codeword. -/
theorem test_ctget : after (exec (.ctget 0x62) encoding) (·.ca.cw) = some [false, false] ∧
    after (exec (.ctget 0x63) (withCw [true] encoding)) (·.ca.cw) = some [] := by decide +kernel
theorem test_cwclr : after (exec .cwclr (withCw [true, false] State.reset)) id = some State.reset := by decide +kernel
/-- R171: `CWPUSH 2, 0b01` gives CW = "01", behind what CW holds. -/
theorem test_cwpush : after (exec (.cwpush 2 0b01) (withCw [true] State.reset)) (·.ca.cw) = some [true, false, true] := by
  decide +kernel
/-- V21: CW has 256 bits; a ninth push of any size faults. -/
theorem test_cwpush_full : after (exec (.cwpush 1 1) (withCw (List.replicate 256 true) State.reset))
    (fun t => (t.latch.fcause, t.ca.cw.length)) = some (.badCodeword, 256) := by decide +kernel
/-- V20: "101" is 0xA0000000. -/
theorem test_cwrd : after (exec (.cwrd 0) (withCw [true, false, true] State.reset)) (·.out.rsp) = some [0xA0000000] ∧
    after (exec (.cwrd 7) (withCw [true, false, true] State.reset)) (·.out.rsp) = some [0] := by decide +kernel
theorem test_encstart : after (exec .encstart { State.reset with bp := { acc := 5, nacc := 3, active := true } }) id =
    some { State.reset with bp := { acc := 0, nacc := 0, active := true } } := by decide +kernel
/-- P1: ACC = 0b111, NACC = 3, then `ENCBYTE 'b'` gives ACC = 0b11100, NACC = 5. -/
theorem test_encbyte : after (exec (.encbyte 0x62) { encoding with bp := { acc := 7, nacc := 3, active := true } })
    (fun t => (t.bp, t.out.encOut)) = some ({ acc := 0b11100, nacc := 5, active := true }, []) := by decide +kernel
/-- V33: UNRESOLVED_SYMBOL leaves the packer as it was. -/
theorem test_encbyte_unresolved : after (exec (.encbyte 0x63) { encoding with bp := { acc := 2, nacc := 3, active := true } })
    (fun t => (t.latch, t.bp)) = some ({ fatal := true, fcause := .unresolvedSymbol, fcmd := 0x3100006300000000 },
      { acc := 2, nacc := 3, active := true }) := by decide +kernel
/-- P1: ENCEND emits 0xE2. -/
theorem test_encend : after (exec .encend { encoding with bp := { acc := 0b11100, nacc := 5, active := true } })
    (fun t => (t.bp, t.out.encOut)) = some ({ acc := 0, nacc := 0, active := false }, [0xE2]) := by decide +kernel
/-- V34. -/
theorem test_encend_unresolved : after (exec .encend { State.reset with bp := { acc := 0, nacc := 0, active := true } })
    (fun t => (t.latch.fcause, t.bp.active, t.out.encOut)) = some (.unresolvedSymbol, true, []) := by decide +kernel
/-- V36: the bits held are lost. -/
theorem test_encstop : after (exec .encstop { State.reset with bp := { acc := 5, nacc := 3, active := true } }) id =
    some State.reset := by decide +kernel
theorem test_trclr : after (exec .trclr trie) id = some State.reset := by decide +kernel
/-- V43: `DECSTART`, `TRCLR`. -/
theorem test_trclr_run : after (exec .trclr decoding) (fun t => (t.latch.fcause, t.td.tncnt)) = some (.sequence, 5) := by
  decide +kernel
/-- V42: `TRLOAD EOS, "01"` as the third insertion. -/
theorem test_trins : after (exec (.trins 256) (withCw [false, true] { State.reset with td := { State.reset.td with
      tn := [(0, { child0 := 2, child1 := 1, leaf := false, sym := 0 }),
        (1, { child0 := 0, child1 := 0, leaf := true, sym := 0x61 }),
        (2, { child0 := 3, child1 := 0, leaf := false, sym := 0 }),
        (3, { child0 := 0, child1 := 0, leaf := true, sym := 0x62 })], tncnt := 4 } }))
    (fun t => (t.td.tn, t.td.tncnt)) = some (trieV42, 5) := by decide +kernel
/-- V43: an inserted codeword is a proper prefix; the new one is a proper prefix. -/
theorem test_trins_conflict :
    after (exec (.trins 2) (withCw [false, true, false] trie)) (fun t => (t.latch.fcause, t.td.tncnt)) =
      some (.trieConflict, 5) ∧
    after (exec (.trins 2) (withCw [false] trie)) (fun t => (t.latch.fcause, t.td.tncnt)) = some (.trieConflict, 5) := by
  decide +kernel
/-- V42: `RDTRIE 2` responds 0x00000C04, `RDTRIE 1` 0x86100000. -/
theorem test_rdtrie : after (exec (.rdtrie 2) trie) (·.out.rsp) = some [0x00000C04] ∧
    after (exec (.rdtrie 1) trie) (·.out.rsp) = some [0x86100000] := by decide +kernel
theorem test_decstart : after (exec .decstart { trie with td := { trie.td with icwcnt := 2, drop := true, tdst := .done } }) id =
    some decoding := by decide +kernel
/-- V44. -/
theorem test_decbyte : after (exec (.decbyte 0xE2) decoding) (fun t => (t.out.decOut, t.td.tdst, t.td.cur, t.bu)) =
    some ([0x61, 0x61, 0x61, 0x62], .done, 0, { ubyte := 0, urem := 1 }) := by decide +kernel
/-- V46: truncated; and V47: an empty trie. -/
theorem test_decbyte_truncated :
    after (exec (.decbyte 0xE0) decoding) (fun t => (t.out.decOut, t.td.tdst, t.td.cur, t.bu)) =
      some ([0x61, 0x61, 0x61, 0x62, 0x62], .run, 2, { ubyte := 0, urem := 0 }) ∧
    after (exec (.decbyte 0) { State.reset with td := { State.reset.td with tdst := .run } }) (·.latch.fcause) =
      some .emptyCodebook := by decide +kernel
/-- V44: DROP stays after DECSTOP. -/
theorem test_decstop : after (exec .decstop { decodedTrie with bu := { ubyte := 0, urem := 1 } }) (fun t => (t.td.tdst, t.td.drop, t.bu)) =
    some (.idle, true, { ubyte := 0, urem := 0 }) := by decide +kernel

/-- V51: a step on an illegal class R word. -/
theorem test_step_illegal : after (step (State.reset.withFetchWord 64 0x0200000E00000000))
    (fun t => (t.latch.fcause, t.latch.fcmd, t.out.rsp)) = some (.illegalCmd, 0x0200000E00000000, [0]) := by
  decide +kernel
theorem test_step_command : after (step (State.reset.withFetchWord 64 0x1100006100000003)) (·.tb.nsym) = some 1 := by
  decide +kernel

/-- S1 and the record order of rule R230: b, then EOF (count 1 each), then a. -/
theorem test_records : (canonicalOrder ((List.range 3).map (recordOfLeaf encoding))).map (fun r => (r.symbol, r.count)) =
    [(0x62, 1), (256, 1), (0x61, 3)] := by decide +kernel
/-- R225 on leaf 1 of V1: the record that the responses give (P1: CWLEN 2, codeword "00"), and how many words they are. -/
theorem test_readRecord : (match readRecord 1 encoding with
      | .next a => some (a.1, a.2.out.rsp.length)
      | .fault _ => none
      | .refused _ => none) = some ({ symbol := 0x62, count := 1, codeword := [false, false] }, 5) := by decide +kernel
/-- R298: an abandoned stream, like no stream at all, is no completed encode. -/
theorem test_encode_not_completed : encodeCompleted (runOf [0x3000000000000000, 0x3300000000000000]) = false ∧
    encodeCompleted (runOf []) = false := by decide +kernel
/-- R298 on V44: DONE was read before DECSTOP. -/
theorem test_decode_completed : decodeCompleted (history
    [0x4800000000000000, 0x490000E200000000, 0x0200000100000000, 0x4A00000000000000] trie) = true := by decide +kernel
/-- R298 on V46: the bytes ran out in RUN. -/
theorem test_decode_truncated :
    decodeTruncated (history [0x4800000000000000, 0x490000E000000000, 0x4A00000000000000] trie) = true ∧
    decodeCompleted (history [0x4800000000000000, 0x490000E000000000, 0x4A00000000000000] trie) = false := by
  decide +kernel
/-- R224, for the input of S1. -/
theorem test_symbol_table : symbolTable [0x61, 0x61, 0x61, 0x62] = [(0x61, 3), (0x62, 1), (256, 1)] := by decide +kernel
/-- S4. -/
theorem test_render : renderSymbol 0x1F = ['0', 'x', '1', 'F'] ∧ renderSymbol 0x7E = ['~'] ∧ renderSymbol 10 = ['\\', 'n'] ∧
    renderSymbol 256 = ['E', 'O', 'F'] := by decide +kernel

/-! ## Witnesses: the invariants -/

theorem witness_tb_loaded : TbInv loadedTb where
  leaves :=
    { nsym_le := by decide
      leaf_entry := by decide +kernel
      sym_inj := by decide +kernel
      seen_iff := by decide +kernel
      unallocated := fun i hi => memRead_beyond (n := 3) (by decide) hi }
  before := fun _ => { nnode_eq := rfl, root_eq := rfl, inq_iff := by decide +kernel }
  after := fun h => absurd h (by decide)

theorem witness_tb_built : TbInv builtTb where
  leaves :=
    { nsym_le := by decide
      leaf_entry := by decide +kernel
      sym_inj := by decide +kernel
      seen_iff := by decide +kernel
      unallocated := fun i hi => memRead_beyond (n := 5) (by decide) hi }
  before := fun h => absurd h (by decide)
  after := fun _ =>
    { nsym_pos := by decide
      nnode_eq := by decide
      root_eq := by decide
      inq_iff := by decide +kernel
      internal := by decide +kernel
      one_parent := by decide +kernel }

theorem witness_trie : TrieInv trie.td where
  tncnt_pos := by decide
  tncnt_le := by decide
  unallocated := by decide +kernel
  child_gt := by decide +kernel
  one_parent := by decide +kernel
  root_inner := by decide
  leaf_childless := by decide +kernel
  inner_child := by decide +kernel

theorem witness_trie_empty : TrieInv State.reset.td where
  tncnt_pos := by decide
  tncnt_le := by decide
  unallocated := by decide +kernel
  child_gt := by decide +kernel
  one_parent := by decide +kernel
  root_inner := by decide
  leaf_childless := by decide +kernel
  inner_child := by decide +kernel

/-- A machine in the middle of both operations, the host's next word `DECBYTE 0xE2`. -/
def busy : State :=
  { decoding with
    tb := builtTb
    ca := { ct := codeV1, cw := [false, true] }
    bp := { acc := 0b11100, nacc := 5, active := true }
    input := [.cmd 0x490000E200000000] }

theorem witness_ca : CaInv busy.ca where
  cw_length := by decide
  ct_length := by
    have h : ∀ sym : Sym, ∀ c ∈ ctRead codeV1 sym, 1 ≤ c.length ∧ c.length ≤ cwMax := by decide +kernel
    exact fun sym c hc => h sym c (Option.mem_def.2 hc)

theorem witness_decoder : DecoderInv busy.td busy.bu where
  urem_le := by decide
  idle := fun h => absurd h (by decide)
  run := fun _ => ⟨rfl, rfl⟩
  done := fun h => absurd h (by decide)
  cur_lt := by decide
  cur_inner := by decide

theorem witness_mem : MemInv busy where
  nd := by decide +kernel
  inq := by decide +kernel
  seen := by decide +kernel
  ct := by decide +kernel
  tn := by decide +kernel

theorem witness_bp : BpInv busy.bp := { acc_lt := by decide, closed := fun h => absurd h (by decide) }
theorem witness_latch : LatchInv busy.latch := { cause_iff := by decide, cleared := fun _ => rfl }

theorem witness_inv : Inv busy :=
  { mem := witness_mem, tb := witness_tb_built, ca := witness_ca, bp := witness_bp, trie := { witness_trie with },
    decoder := witness_decoder, latch := witness_latch }

/-- A next state read off by `after`. -/
theorem eq_next {o : Out} {t : State} (h : after o id = some t) : o = .next t := by
  cases o <;> simp_all [after]

/-- Some next state. -/
theorem exists_next {o : Out} (h : (after o id).isSome = true) : ∃ t, o = .next t := by
  cases o with
  | next t => exact ⟨t, rfl⟩
  | fault f => simp [after] at h
  | refused r => simp [after] at h

/-- A step of `busy`: the hypotheses of the statements `StepKeeps…`. -/
theorem witness_step_busy : ∃ t, step busy = .next t := exists_next (by decide +kernel)

/-! ### A trie that is one path of zeros, as long as wanted -/

/-- Entry `p` of the path with `n` nodes. -/
def pathNode (n p : Nat) : TrieNode :=
  if p + 1 = n then { child0 := 0, child1 := 0, leaf := true, sym := 1 }
  else { child0 := BitVec.ofNat 10 (p + 1), child1 := 0, leaf := false, sym := 0 }

/-- The path with `n` nodes. -/
def pathTd (n : Nat) : TdState :=
  { State.reset.td with tn := (List.range' 0 n).map fun p => (p, pathNode n p), tncnt := BitVec.ofNat 11 n }

theorem memRead_range {α : Type} (zero : α) (f : Nat → α) (s n i : Nat) :
    memRead zero ((List.range' s n).map fun p => (p, f p)) i = if s ≤ i ∧ i < s + n then f i else zero := by
  induction n generalizing s with
  | zero => simp
  | succ n ih =>
    rw [List.range'_succ, List.map_cons, memRead]
    by_cases h : s = i
    · subst h; simp
    · rw [if_neg h, ih]
      exact if_congr (by omega) rfl rfl

theorem tnRead_path (n : Nat) (p : Idx) :
    tnRead (pathTd n).tn p = if p.toNat < n then pathNode n p.toNat else TrieNode.zero := by
  rw [tnRead, pathTd, memRead_range]
  exact if_congr (by omega) rfl rfl

theorem child_path {n : Nat} (hn : n ≤ 1024) {p : Idx} {b : Bool} (h : childOf (tnRead (pathTd n).tn p) b ≠ 0) :
    b = false ∧ p.toNat + 1 < n ∧ (childOf (tnRead (pathTd n).tn p) b).toNat = p.toNat + 1 := by
  rw [tnRead_path] at h ⊢
  by_cases hp : p.toNat < n
  · simp only [hp, if_true] at h ⊢
    unfold pathNode at h ⊢
    by_cases hl : p.toNat + 1 = n
    · simp [hl, childOf] at h
    · simp only [hl, if_false] at h ⊢
      cases b with
      | true => simp [childOf] at h
      | false => exact ⟨rfl, by omega, by simp [childOf, BitVec.toNat_ofNat]; omega⟩
  · simp [hp, childOf] at h

theorem path_count {n i : Nat} (hn : n ≤ 1024) (h1 : 1 ≤ i) (hi : i < n) :
    ∀ m ≤ n, ((List.range m).flatMap fun p =>
      [(tnRead (pathTd n).tn (BitVec.ofNat 10 p)).child0.toNat, (tnRead (pathTd n).tn (BitVec.ofNat 10 p)).child1.toNat]).count i
        = if i ≤ m then 1 else 0 := by
  intro m
  induction m with
  | zero => intro _; simp; omega
  | succ m ih =>
    intro hm
    have hp : (BitVec.ofNat 10 m).toNat = m := by rw [BitVec.toNat_ofNat]; omega
    rw [List.range_succ, List.flatMap_append, List.count_append, ih (by omega)]
    simp only [List.flatMap_cons, List.flatMap_nil, List.append_nil, tnRead_path, hp, show m < n by omega, if_true, pathNode]
    by_cases hl : m + 1 = n
    · have : i ≤ m := by omega
      simp [hl, this, show i ≤ n by omega, List.count_cons]; omega
    · have hq : (m + 1) % 1024 = m + 1 := by omega
      simp only [hl, if_false, BitVec.toNat_ofNat, Nat.reducePow, hq, BitVec.ofNat_eq_ofNat, Nat.zero_mod, List.count_cons,
        List.count_nil, beq_iff_eq]
      by_cases ha : i ≤ m
      · simp [ha, show i ≤ m + 1 by omega, show ¬ m + 1 = i by omega, show ¬ 0 = i by omega]
      · by_cases hb : i = m + 1
        · simp [hb]
        · simp [ha, show ¬ i ≤ m + 1 by omega, show ¬ m + 1 = i by omega, show ¬ 0 = i by omega]

theorem witness_path {n : Nat} (h2 : 2 ≤ n) (hn : n ≤ 1024) : TrieInv (pathTd n) := by
  have ht : (pathTd n).tncnt.toNat = n := by simp [pathTd, BitVec.toNat_ofNat]; omega
  refine
    { tncnt_pos := by omega, tncnt_le := by rw [ht]; exact hn, unallocated := ?_, child_gt := ?_, one_parent := ?_,
      root_inner := ?_, leaf_childless := ?_, inner_child := ?_ }
  · intro p hp
    rw [tnRead_path, if_neg (by omega)]
  · intro p b h
    have := child_path hn h
    omega
  · intro i h1 hi
    rw [tnChildren, ht, path_count hn h1 (by omega) n (Nat.le_refl n), if_pos (by omega)]
  · rw [tnRead_path]
    simp [pathNode, show 0 < n by omega, show ¬ 1 = n by omega]
  · intro p b hl
    by_contra hc
    have h := child_path hn hc
    rw [tnRead_path] at hl
    simp [pathNode, show p.toNat < n by omega, show ¬ p.toNat + 1 = n by omega] at hl
  · intro p _ hp hl
    refine ⟨false, ?_⟩
    rw [tnRead_path] at hl ⊢
    rw [if_pos (by omega)] at hl ⊢
    by_cases hq : p.toNat + 1 = n
    · simp [pathNode, hq] at hl
    · intro hc
      have := congrArg BitVec.toNat hc
      simp [pathNode, hq, childOf, BitVec.toNat_ofNat] at this
      omega

/-- No codeword of the path starts with a one. -/
theorem path_leads {n : Nat} (hn : n ≤ 1024) {c : Codeword} {y : Sym} (h : TrieLeads (pathTd n).tn 0 c y) :
    ∃ c', c = false :: c' := by
  match c, h with
  | [], h => exact h.elim
  | [b], h => exact ⟨[], by rw [(child_path hn h.1).1]⟩
  | b :: b' :: c, h => exact ⟨b' :: c, by rw [(child_path hn h.1).1]⟩

theorem path_free {n : Nat} (hn : n ≤ 1024) (c : Codeword) (y : Sym) (h : TrieLeads (pathTd n).tn 0 c y) :
    ¬ c <+: [true] ∧ ¬ [true] <+: c := by
  obtain ⟨c', rfl⟩ := path_leads hn h
  constructor
  · rintro ⟨d, hd⟩; simp at hd
  · rintro ⟨d, hd⟩; simp at hd

theorem path_depth {n : Nat} (hn : n ≤ 1024) : trieDepth (pathTd n).tn 0 [true] = 0 := by
  by_cases h : childOf (tnRead (pathTd n).tn 0) true = 0
  · exact if_pos h
  · exact absurd (child_path hn h).1 (by decide)

/-! ## Witnesses: for each statement with hypotheses, states and operands that meet them, one set per clause -/

/-- DecodeOfEncodeIsTheCommand: operands at their bounds. -/
theorem witness_decodeOfEncode : (Instr.ldsym 256 0xFFFFFFFF).wellFormed = true ∧ (Instr.rdnode 512 2).wellFormed = true ∧
    (Instr.cwpush 32 0xFFFFFFFF).wellFormed = true ∧ (Instr.cwpush 1 1).wellFormed = true := by decide

/-- DecodedWordIsTheEncoding. -/
theorem witness_decodedWord : decode 0x29000020DEADBEEF = .ok (.cwpush 32 0xDEADBEEF) := by decide +kernel

/-- IllegalWordsAreRefusedByName: an unassigned OP, NOP with D = 1, a symbol 257. -/
theorem witness_illegalWords :
    (∀ i : Instr, opcodeOf i ≠ opField 0xFF00000000000000) ∧
    (opcodeOf .nop = opField 0x0000000000000001 ∧
      0x0000000000000001 &&& formatMask (formatOf .nop) ≠ opcodeOf .nop ++ 0#56) ∧
    (Instr.ctset 257).wellFormed = false := by
  refine ⟨fun i => ?_, by decide +kernel, by decide⟩
  cases i <;> simp only [opcodeOf] <;> decide

/-- StepRunsTheDecodedCommand. -/
theorem witness_stepRuns : busy.input = .cmd 0x490000E200000000 :: [] ∧
    decode 0x490000E200000000 = .ok (.decbyte 0xE2) := by decide +kernel

/-- IllegalWordLatchesAndChangesNothingElse: class W and class R. -/
theorem witness_illegalStep : decode 0x0300000000000000 = .error .reservedOpcode ∧
    (State.reset.withFetchWord 64 0x0300000000000000).input = .cmd 0x0300000000000000 :: [] ∧
    decode 0x0200000E00000000 = .error .operandRange ∧
    (State.reset.withFetchWord 64 0x0200000E00000000).input = .cmd 0x0200000E00000000 :: [] := by decide +kernel

/-- IllegalOperandsFaultFirst: class W and class R. -/
theorem witness_illegalOperands : (Instr.ldsym 257 0).wellFormed = false ∧ (Instr.rdnode 513 0).wellFormed = false := by
  decide

/-- IdleHoldsAndHardResetClears. -/
theorem witness_idle : State.reset.input = [] ∧ { busy with input := [.rst] }.input = .rst :: [] := by decide

/-- ResetReadsAsTheSpecSays: the last register. -/
theorem witness_resetReads : (13 : BitVec 8).toNat ≤ 13 := by decide

/-- FaultedStateDiscardsClassW: a command with legal operands, one without, and NOP. -/
theorem witness_faultedState : faulted.latch.fatal = true ∧ opClassR (opcodeOf (.ldsym 1 1)) = false ∧
    opClassR (opcodeOf (.ldsym 257 1)) = false ∧ opClassR (opcodeOf .nop) = false ∧ Instr.nop ≠ .srst := by decide

/-- ClassRAnswersOneWordAndChangesNothing. -/
theorem witness_classR : (Instr.rdreg 13).wellFormed = true ∧ opClassR (opcodeOf (.rdreg 13)) = true := by decide

/-- OutputsAppendOnlyWhereTheSpecSays, FlagsChangeOnlyByTheirCommands, EachItemIsWrittenOnlyByItsCommands and the second
half of EncodeAndDecodeSidesAreIsolated: a DECBYTE that emits, ends the call and writes the cursor. -/
theorem witness_decbyte : Instr.decbyte 0xE2 ≠ .srst ∧ decodeSide (.decbyte 0xE2) = true ∧
    ∃ t, exec (.decbyte 0xE2) busy = .next t :=
  ⟨by decide, rfl, exists_next (by decide +kernel)⟩

/-- The first half of EncodeAndDecodeSidesAreIsolated: two states that agree on the encode side only. -/
theorem witness_isolation : encodeSide .encend = true ∧ (∃ t, exec .encend busy = .next t) ∧
    (∃ t', exec .encend { busy with td := State.reset.td } = .next t') ∧ { busy with td := State.reset.td }.tb = busy.tb ∧
    { busy with td := State.reset.td }.ca = busy.ca ∧ { busy with td := State.reset.td }.bp = busy.bp ∧
    { busy with td := State.reset.td }.latch = busy.latch ∧
    { busy with td := State.reset.td }.out.encOut = busy.out.encOut :=
  ⟨rfl, exists_next (by decide +kernel), exists_next (by decide +kernel), rfl, rfl, rfl, rfl, rfl⟩

/-- The same for the decode side. -/
theorem witness_isolation_decode : (∃ t, exec (.decbyte 0xE2) busy = .next t) ∧
    (∃ t', exec (.decbyte 0xE2) { busy with tb := State.reset.tb } = .next t') ∧
    { busy with tb := State.reset.tb }.td = busy.td ∧ { busy with tb := State.reset.tb }.bu = busy.bu ∧
    { busy with tb := State.reset.tb }.ca.cw = busy.ca.cw ∧ { busy with tb := State.reset.tb }.latch = busy.latch ∧
    { busy with tb := State.reset.tb }.out.decOut = busy.out.decOut :=
  ⟨exists_next (by decide +kernel), exists_next (by decide +kernel), rfl, rfl, rfl, rfl, rfl⟩

/-- FaultingCommandChangesOnlyTheLatch, and FATAL being set in FlagsChangeOnlyByTheirCommands: a fault of a class W command, and an illegal class R word. -/
theorem witness_faulting : State.reset.latch.fatal = false ∧ exec .build State.reset = .next faulted ∧
    faulted.latch.fatal = true ∧ after (exec (.rdreg 14) State.reset) (·.latch.fatal) = some true :=
  ⟨rfl, eq_next (by decide +kernel), rfl, by decide +kernel⟩

/-- LatchHoldsUntilSrst, and FATAL being kept in FlagsChangeOnlyByTheirCommands. -/
theorem witness_latchHolds : exec .build faulted = .next faulted ∧ faulted.latch.fatal = true ∧ Instr.build ≠ .srst :=
  ⟨eq_next (by decide +kernel), rfl, by decide⟩

/-- FatalPinFallsOnlyOnReset: by SRST and by `rst`. -/
theorem witness_pin : fatalO faulted = true ∧ fatalO State.reset = false ∧
    step { faulted with input := [.rst] } = .next State.reset ∧
    step (faulted.withFetchWord 64 0x0100000000000000) = .next State.reset :=
  ⟨rfl, rfl, eq_next (by decide +kernel), eq_next (by decide +kernel)⟩

/-- SequenceFaultsExactlyOutsideThePhase: a command out of phase; one in phase that answers a fault of its own. -/
theorem witness_sequence : (Instr.encbyte 0x63).wellFormed = true ∧ State.reset.latch.fatal = false ∧
    phaseAllows (.encbyte 0x63) State.reset = false ∧ phaseAllows (.encbyte 0x63) encoding = true ∧
    after (exec (.encbyte 0x63) encoding) (·.latch.fatal) = some true := by decide +kernel

/-- FlagsChangeOnlyByTheirCommands and EachItemIsWrittenOnlyByItsCommands: a BUILD, which writes TB_BUILT and ROOT. -/
theorem witness_flags : exec .build loaded = .next built ∧ Instr.build ≠ .srst ∧ built.tb.built ≠ loaded.tb.built :=
  ⟨eq_next (by decide +kernel), by decide, by decide⟩

/-- RdregReadsEveryControlRegister: the two ends; RdnodeShowsTheNode: the last entry and selector. -/
theorem witness_reads : (0 : BitVec 8).toNat ≤ 13 ∧ (13 : BitVec 8).toNat ≤ 13 ∧ (512 : Idx).toNat ≤ 512 ∧
    (0 : BitVec 2).toNat ≤ 2 ∧ (2 : BitVec 2).toNat ≤ 2 := by decide

/-- TbclrClearsOnlyTheTreeBuilder, EncstartOpensAndEncstopAbandons, DecstartOpensAndDecstopCloses, and the three clauses
of ClearingCommandsEmptyTheirMemory. -/
theorem witness_clears : State.reset.latch.fatal = false ∧ State.reset.bp.active = false ∧ State.reset.td.tdst ≠ .run ∧
    busy.latch.fatal = false := by decide

theorem witness_tb_reset : TbInv State.reset.tb where
  leaves :=
    { nsym_le := by decide
      leaf_entry := by decide +kernel
      sym_inj := by decide +kernel
      seen_iff := by decide +kernel
      unallocated := fun _ _ => rfl }
  before := fun _ => { nnode_eq := rfl, root_eq := rfl, inq_iff := by decide +kernel }
  after := fun h => absurd h (by decide)

/-- LdsymAppendsOneLeaf: END_OF_STREAM into an empty table; a fourth symbol with the largest count. -/
theorem witness_ldsym : (TbInv State.reset.tb ∧ State.reset.latch.fatal = false ∧ (256 : Sym).toNat ≤ 256 ∧
      State.reset.tb.built = false ∧ (1 : Count) ≠ 0 ∧ seenRead State.reset.tb.seen 256 = false) ∧
    (TbInv loaded.tb ∧ loaded.latch.fatal = false ∧ (0 : Sym).toNat ≤ 256 ∧
      loaded.tb.built = false ∧ (0xFFFFFFFF : Count) ≠ 0 ∧ seenRead loaded.tb.seen 0 = false) :=
  ⟨⟨witness_tb_reset, by decide⟩, witness_tb_loaded, by decide⟩

/-- BadTableFaults: count 0, a symbol already loaded, an empty table. -/
theorem witness_badTable : loaded.latch.fatal = false ∧ loaded.tb.built = false ∧ (256 : Sym).toNat ≤ 256 ∧
    seenRead loaded.tb.seen 256 = true ∧ State.reset.latch.fatal = false ∧ State.reset.tb.built = false ∧
    State.reset.tb.nsym = 0 := by decide +kernel

/-- ArgminTakesTheLightestThenTheOldest and MergeStepJoinsTheTwoLightest, on the table of V1. -/
theorem witness_merge : argmin loadedTb = some 1 ∧
    argmin { loadedTb with inq := inqWrite loadedTb.inq 1 false } = some 2 ∧ loadedTb.nnode.toNat < ndSize ∧
    (ndRead loadedTb.nd 1).weight.toNat + (ndRead loadedTb.nd 2).weight.toNat < 2 ^ 41 ∧
    (2 < ndSize ∧ inqRead loadedTb.inq 2 = true ∧ 2 ≠ 1) := by decide +kernel

/-- BuildMakesOneTree and BuildMergesTheLightestFirst. -/
theorem witness_build : TbInv loaded.tb ∧ loaded.latch.fatal = false ∧ loaded.tb.built = false ∧ 1 ≤ loaded.tb.nsym.toNat ∧
    exec .build loaded = .next built ∧ built.tb.nsym.toNat ≤ 3 ∧ 3 < built.tb.nnode.toNat ∧ 4 < built.tb.nnode.toNat ∧
    Waiting built.tb 3 0 ∧ 0 ≠ (ndRead built.tb.nd 3).left.toNat ∧ 0 ≠ (ndRead built.tb.nd 3).right.toNat :=
  ⟨witness_tb_loaded, rfl, rfl, by decide, eq_next (by decide +kernel), by decide, by decide, by decide,
    ⟨by decide, fun _ h1 h2 => absurd (Nat.lt_of_le_of_lt h1 h2) (by decide)⟩, by decide, by decide⟩

/-- The table with one entry (V2), loaded and built. -/
def oneTb (b : Bool) : TbState :=
  { nd := [(0, leafNode 256 1)], inq := [(0, true)], seen := [(256, true)], nsym := 1, nnode := 1, root := 0, built := b }

theorem witness_tb_one (b : Bool) : TbInv (oneTb b) where
  leaves :=
    { nsym_le := by cases b <;> decide
      leaf_entry := by cases b <;> decide +kernel
      sym_inj := by cases b <;> decide +kernel
      seen_iff := by cases b <;> decide +kernel
      unallocated := fun i hi => memRead_beyond (n := 1) (by cases b <;> decide) (by cases b <;> exact hi) }
  before := fun _ => { nnode_eq := rfl, root_eq := rfl, inq_iff := by cases b <;> decide +kernel }
  after := fun _ =>
    { nsym_pos := by cases b <;> decide
      nnode_eq := by cases b <;> decide
      root_eq := by cases b <;> decide
      inq_iff := by cases b <;> decide +kernel
      internal := by cases b <;> decide +kernel
      one_parent := by cases b <;> decide +kernel }

/-- BuildMakesOneTree at NSYM = 1, and AssignGivesEachLeafItsPath with its single leaf. -/
theorem witness_build_one : TbInv (oneTb false) ∧ 1 ≤ (oneTb false).nsym.toNat ∧ TbInv (oneTb true) ∧
    (oneTb true).built = true := ⟨witness_tb_one _, by decide, witness_tb_one _, rfl⟩

/-- AssignGivesEachLeafItsPath and AssignedCodebookIsPrefixFree. -/
theorem witness_assign : TbInv built.tb ∧ built.latch.fatal = false ∧ built.tb.built = true ∧ built.bp.active = false ∧
    exec .assign built = .next { built with ca := { ct := codeV1, cw := [] } } ∧ ctRead codeV1 256 = some [false, true] :=
  ⟨witness_tb_built, rfl, rfl, rfl, eq_next (by decide +kernel), by decide⟩

/-- CtsetStoresTheCodeword, both clauses. -/
theorem witness_ctset : (withCw [true] State.reset).latch.fatal = false ∧ (256 : Sym).toNat ≤ 256 ∧
    (withCw [true] State.reset).bp.active = false ∧ (withCw [true] State.reset).ca.cw ≠ [] ∧ State.reset.ca.cw = [] := by
  decide

/-- CtgetLoadsTheCodeword, both clauses. -/
theorem witness_ctget : encoding.latch.fatal = false ∧ (256 : Sym).toNat ≤ 256 ∧
    ctRead encoding.ca.ct 256 = some [false, true] ∧ ctRead encoding.ca.ct 0 = none := by decide +kernel

/-- CwpushAppendsTheBits where its clauses meet: 224 + 32 bits fit, 225 + 32 do not; one bit onto 255 fits. -/
theorem witness_cwpush : State.reset.latch.fatal = false ∧ 1 ≤ (32 : BitVec 6).toNat ∧ (32 : BitVec 6).toNat ≤ 32 ∧
    (0xFFFFFFFF : BitVec 32).toNat < 2 ^ (32 : BitVec 6).toNat ∧
    (withCw (List.replicate 224 true) State.reset).ca.cw.length + (32 : BitVec 6).toNat ≤ 256 ∧
    256 < (withCw (List.replicate 225 true) State.reset).ca.cw.length + (32 : BitVec 6).toNat ∧
    1 ≤ (1 : BitVec 6).toNat ∧ (1 : BitVec 32).toNat < 2 ^ (1 : BitVec 6).toNat ∧
    (withCw (List.replicate 255 true) State.reset).ca.cw.length + (1 : BitVec 6).toNat ≤ 256 := by decide +kernel

/-- CwstrLoadsTheString: the longest string and the empty one. -/
theorem witness_cwstr : (List.replicate 256 true).length ≤ 256 ∧ ([] : Codeword).length ≤ 256 ∧
    State.reset.latch.fatal = false := by decide +kernel

/-- EncbytePacksTheCodeword and EncendFlushesAndCloses: five bits held. -/
theorem witness_packing : BpInv busy.bp ∧ busy.latch.fatal = false ∧ busy.bp.active = true ∧
    ctRead busy.ca.ct ((0x61 : Byte).setWidth 9) = some [true] ∧ ctRead busy.ca.ct eos = some [false, true] :=
  ⟨witness_bp, rfl, rfl, by decide, by decide⟩

/-- UnresolvedSymbolFaults, both clauses. -/
theorem witness_unresolved : encoding.latch.fatal = false ∧ encoding.bp.active = true ∧
    ctRead encoding.ca.ct ((0x63 : Byte).setWidth 9) = none ∧
    ctRead { encoding with ca := State.reset.ca }.ca.ct eos = none := by decide +kernel

/-- The codebook of V1 as a function. -/
def codeFun (y : Sym) : Codeword := (ctRead codeV1 y).getD []

/-- The code table of V1 and the trie of V42 in one machine. -/
def roundTrip : State := { trie with ca := { ct := codeV1, cw := [] } }

/-- PackedStreamIsPackOfTheCodewords and DecodingThePackedStreamGivesTheInput, for the input of S1 and the empty one. -/
theorem witness_roundTrip : roundTrip.latch.fatal = false ∧
    (∀ b ∈ ([0x61, 0x61, 0x61, 0x62] : List Byte), ctRead roundTrip.ca.ct (b.setWidth 9) = some (codeFun (b.setWidth 9)) ∧
      TrieLeads roundTrip.td.tn 0 (codeFun (b.setWidth 9)) (b.setWidth 9)) ∧
    (∀ b ∈ ([] : List Byte), ctRead roundTrip.ca.ct (b.setWidth 9) = some (codeFun (b.setWidth 9)) ∧
      TrieLeads roundTrip.td.tn 0 (codeFun (b.setWidth 9)) (b.setWidth 9)) ∧
    ctRead roundTrip.ca.ct eos = some (codeFun eos) ∧ TrieLeads roundTrip.td.tn 0 (codeFun eos) eos := by
  refine ⟨rfl, ?_, fun b hb => absurd hb (by simp), by decide, ?_⟩
  · intro b hb
    have h : b = 0x61 ∨ b = 0x62 := by simp at hb; exact hb
    rcases h with rfl | rfl
    · exact ⟨by decide, (by decide +kernel : _ ∧ _ ∧ _)⟩
    · exact ⟨by decide, (by decide +kernel : _ ≠ _), (by decide +kernel : _ = _), (by decide +kernel : _ ∧ _ ∧ _)⟩
  · exact ⟨(by decide +kernel : _ ≠ _), (by decide +kernel : _ = _), (by decide +kernel : _ ∧ _ ∧ _)⟩

/-- TrinsAddsExactlyOneCodeword: into the empty trie, and into the last free entry. -/
theorem witness_trins :
    (TrieInv State.reset.td ∧ State.reset.td.tdst ≠ .run ∧ (∀ c y, TrieLeads State.reset.td.tn 0 c y → ¬ c <+: [true] ∧ ¬ [true] <+: c) ∧
      State.reset.td.tncnt.toNat + ([true].length - trieDepth State.reset.td.tn 0 [true]) ≤ 1024) ∧
    (TrieInv (pathTd 1023) ∧ (pathTd 1023).tdst ≠ .run ∧
      (∀ c y, TrieLeads (pathTd 1023).tn 0 c y → ¬ c <+: [true] ∧ ¬ [true] <+: c) ∧
      (pathTd 1023).tncnt.toNat + ([true].length - trieDepth (pathTd 1023).tn 0 [true]) ≤ 1024) := by
  refine ⟨⟨witness_trie_empty, by decide, ?_, by decide⟩, witness_path (by decide) (by decide), by decide,
    path_free (by decide), by rw [path_depth (by decide)]; decide⟩
  intro c y h
  match c, h with
  | [], h => exact h.elim
  | [b], h => exact absurd (by cases b <;> rfl) h.1
  | b :: b' :: c, h => exact absurd (by cases b <;> rfl) h.1

/-- TrinsFaultsInOrder: no codeword; the same codeword, an extension and a prefix of one inserted; no free entry. -/
theorem witness_trinsFaults :
    (TrieInv trie.td ∧ trie.latch.fatal = false ∧ (256 : Sym).toNat ≤ 256 ∧ trie.td.tdst ≠ .run ∧ trie.ca.cw = []) ∧
    (TrieLeads trie.td.tn 0 [false, true] 256 ∧ [false, true] <+: [false, true] ∧ [false, true] <+: [false, true, false] ∧
      [false] <+: [false, true]) ∧
    (TrieInv (pathTd 1024) ∧ (pathTd 1024).tdst ≠ .run ∧ [true] ≠ [] ∧
      (∀ c y, TrieLeads (pathTd 1024).tn 0 c y → ¬ c <+: [true] ∧ ¬ [true] <+: c) ∧
      1024 < (pathTd 1024).tncnt.toNat + ([true].length - trieDepth (pathTd 1024).tn 0 [true])) := by
  refine ⟨⟨witness_trie, by decide⟩, ⟨?_, by decide⟩, witness_path (by decide) (by decide), by decide, by decide,
    path_free (by decide), by rw [path_depth (by decide)]; decide⟩
  exact ⟨(by decide +kernel : _ ≠ _), (by decide +kernel : _ = _), (by decide +kernel : _ ∧ _ ∧ _)⟩

/-- DecbyteWalksTheTrie. -/
theorem witness_walk : decoding.latch.fatal = false ∧ decoding.td.tdst = .run ∧
    ¬((tnRead decoding.td.tn 0).child0 = 0 ∧ (tnRead decoding.td.tn 0).child1 = 0) := by decide +kernel

/-- DecbyteDropsOrFindsNoCodebook, both clauses. -/
theorem witness_drop : decodedTrie.latch.fatal = false ∧ decodedTrie.td.tdst = .done ∧
    { State.reset with td := { State.reset.td with tdst := .run } }.td.tdst = .run ∧
    (tnRead State.reset.td.tn 0).child0 = 0 ∧ (tnRead State.reset.td.tn 0).child1 = 0 := by decide +kernel

/-- ParsingARenderedSymbolGivesTheSymbol: the last symbol. -/
theorem witness_symbols : (256 : Sym).toNat ≤ 256 := by decide

/-- The statements `StepKeeps…` and LegalStatesStepToLegalStates: each invariant holds of `busy`, and it steps. -/
theorem witness_steps : MemInv busy ∧ TbInv busy.tb ∧ CaInv busy.ca ∧ BpInv busy.bp ∧ TrieInv busy.td ∧
    DecoderInv busy.td busy.bu ∧ LatchInv busy.latch ∧ Inv busy ∧ ∃ t, step busy = .next t :=
  ⟨witness_mem, witness_tb_built, witness_ca, witness_bp, witness_inv.trie, witness_decoder, witness_latch, witness_inv,
    witness_step_busy⟩

end Sys2Proof.Tests
end

/-! SUPPORT. Proofs of the statements of 00_scope.md: one command at a time (R12), class R commands (R10) and the
frame of a fault (R256). -/

namespace Sys2Proof.Machine

/-! ## One step and one command (R12, R71, R111) -/

/-- A word that decodes is taken as the command it decodes to (R111). -/
theorem takeWord_of_decode {w : CmdWord} {i : Instr} (hd : decode w = .ok i) (s : State) :
    takeWord w s = exec i s := by
  simp [takeWord, hd]

/-- A step takes the head of the host's coming moves (R71). -/
theorem step_of_input {s : State} {m : HostMove} {rest : List HostMove} (hi : s.input = m :: rest) :
    step s = takeMove m { s with input := rest } := by
  simp [step, hi]

/-- Settles O5: the step takes the host's word, and a word that decodes is run as its command. -/
theorem stepRunsTheDecodedCommand : Obligations.StepRunsTheDecodedCommand := by
  intro s w rest i hi hd
  rw [step_of_input hi]
  exact takeWord_of_decode hd _

/-! ## Class R commands (R10, R72, R257) -/

/-- A class R command goes through `classR` with a value that its own response does not touch: the views read no
output stream. -/
theorem exec_eq_classR {i : Instr} (hr : opClassR (opcodeOf i) = true) (s : State) :
    ∃ v, exec i s = classR i s v ∧ exec i (respond v s) = classR i (respond v s) v := by
  cases i with
  | rdreg r => exact ⟨controlReg s r, rfl, rfl⟩
  | rdnode idx sel => exact ⟨nodeView (ndRead s.tb.nd idx.toNat) (inqRead s.tb.inq idx.toNat) sel, rfl, rfl⟩
  | cwrd k => exact ⟨cwWord s.ca.cw k, rfl, rfl⟩
  | rdtrie idx => exact ⟨trieView (tnRead s.td.tn idx), rfl, rfl⟩
  | _ => cases hr

/-- Settles O13: with legal operands `classR` responds its value, whatever FATAL is, both times. -/
theorem classRAnswersOneWordAndChangesNothing : Obligations.ClassRAnswersOneWordAndChangesNothing := by
  intro s i hw hr
  obtain ⟨v, hfirst, hagain⟩ := exec_eq_classR hr s
  exact ⟨v, hfirst.trans (classR_run hw s v), hagain.trans (classR_run hw (respond v s) v)⟩

/-! ## Effects that keep the fault latch -/

/-- Pushing a codeword changes only the packer's registers and ENC_OUT. -/
theorem pushCodeword_frame (c : Codeword) (s : State) :
    ∃ ys, pushCodeword c s =
        { s with bp := (pushCodeword c s).bp, out := { s.out with encOut := s.out.encOut ++ ys } } ∧
      (pushCodeword c s).bp.active = s.bp.active := by
  induction c generalizing s with
  | nil => exact ⟨[], by simp, rfl⟩
  | cons b c ih =>
    obtain ⟨xs, hbit, hbitActive⟩ := bpPush_frame s b
    obtain ⟨ys, hrest, hrestActive⟩ := ih (bpPush s b)
    refine ⟨xs ++ ys, ?_, hrestActive.trans hbitActive⟩
    rw [pushCodeword_cons, hrest, hbit]
    simp

@[simp] theorem pushCodeword_latch (c : Codeword) (s : State) : (pushCodeword c s).latch = s.latch := by
  obtain ⟨ys, h, -⟩ := pushCodeword_frame c s
  rw [h]

@[simp] theorem closeStream_latch (s : State) : (closeStream s).latch = s.latch := by
  simp [closeStream, bpFlush_eq]

@[simp] theorem tdStep_latch (b : Bool) (s : State) : (tdStep b s).latch = s.latch := by
  rcases tdStep_cases b s with ⟨-, h⟩ | ⟨-, -, -, h⟩ | ⟨-, -, -, h⟩ | ⟨-, -, h⟩ <;> rw [h]

@[simp] theorem decodeLoop_latch (n : Nat) (s : State) : (decodeLoop n s).latch = s.latch :=
  decodeLoop_keeps (P := fun t => t.latch = s.latch) (fun t ht _ _ => by simpa using ht) n rfl

/-! ## What a command can do to the fault latch (R251, R256) -/

/-- What the outcome of the command `i` in `s` can be, as far as the fault latch goes: a next state with the same
latch, a fault whose cause `i` can raise, the illegal word, or a stop of the model. -/
inductive LatchEffect (i : Instr) (s : State) : Out → Prop where
  | keeps {t : State} (h : t.latch = s.latch) : LatchEffect i s (.next t)
  | faults {c : Cause} (h : raisedBy c i = true) : LatchEffect i s (fail c i s)
  | illegal (h : i.wellFormed = false) : LatchEffect i s (.next (illegalWord (encode i) s))
  | stops (f : Fault) : LatchEffect i s (.fault f)

section
variable {i : Instr} {s : State}

theorem LatchEffect.of_ite {p : Prop} [Decidable p] {a b : Out} (ha : LatchEffect i s a) (hb : LatchEffect i s b) :
    LatchEffect i s (if p then a else b) := by
  split
  · exact ha
  · exact hb

theorem LatchEffect.of_withTb (r : Except Fault TbState) : LatchEffect i s (withTb s r) := by
  cases r with
  | ok tb => exact .keeps rfl
  | error f => exact .stops f

/-- The encoding check and the discarding of rule R257 add no effect on the latch of their own. -/
theorem LatchEffect.of_classW {body : Out} (hb : LatchEffect i s body) : LatchEffect i s (classW i s body) := by
  rcases classW_cases i s body with ⟨hw, h⟩ | ⟨-, -, h⟩ | ⟨-, -, h⟩ <;> rw [h]
  · exact .illegal hw
  · exact .keeps rfl
  · exact hb

theorem LatchEffect.of_classR (v : RspWord) : LatchEffect i s (classR i s v) := by
  rcases classR_cases i s v with ⟨-, h⟩ | ⟨hw, h⟩ <;> rw [h]
  · exact .keeps rfl
  · exact .illegal hw

end

theorem execAssign_latchEffect (s : State) : LatchEffect .assign s (execAssign s) := by
  refine .of_classW (.of_ite (.faults rfl) (.of_ite (.faults rfl) ?_))
  split
  · exact .keeps rfl
  · exact .stops _

theorem execEncbyte_latchEffect (b : Byte) (s : State) : LatchEffect (.encbyte b) s (execEncbyte b s) := by
  refine .of_classW (.of_ite (.faults rfl) ?_)
  split
  · exact .faults rfl
  · exact .keeps (pushCodeword_latch _ s)

theorem execEncend_latchEffect (s : State) : LatchEffect .encend s (execEncend s) := by
  refine .of_classW (.of_ite (.faults rfl) ?_)
  split
  · exact .faults rfl
  · exact .keeps (by simp)

theorem execTrins_latchEffect (sym : Sym) (s : State) : LatchEffect (.trins sym) s (execTrins sym s) := by
  refine .of_classW (.of_ite (.faults rfl) (.of_ite (.faults rfl) ?_))
  split
  · exact .faults rfl
  · exact .of_ite (.faults rfl) (.keeps rfl)

theorem execDecbyte_latchEffect (b : Byte) (s : State) : LatchEffect (.decbyte b) s (execDecbyte b s) := by
  refine .of_classW ?_
  split
  · exact .faults rfl
  · exact .keeps rfl
  · exact .of_ite (.faults rfl) (.keeps (by simp))

/-- Every command but SRST keeps the latch, or faults with a cause of its row in rule R251, or is illegal, or stops. -/
theorem exec_latchEffect {i : Instr} (hi : i ≠ .srst) (s : State) : LatchEffect i s (exec i s) := by
  cases i with
  | nop => exact .keeps rfl
  | srst => exact absurd rfl hi
  | rdreg r => exact .of_classR _
  | tbclr => exact .of_classW (.keeps rfl)
  | ldsym sym cnt =>
    exact .of_classW (.of_ite (.faults rfl) (.of_ite (.faults rfl) (.of_ite (.faults rfl) (.of_withTb _))))
  | build => exact .of_classW (.of_ite (.faults rfl) (.of_ite (.faults rfl) (.of_withTb _)))
  | rdnode idx sel => exact .of_classR _
  | assign => exact execAssign_latchEffect s
  | ctclr => exact .of_classW (.of_ite (.faults rfl) (.keeps rfl))
  | ctset sym => exact .of_classW (.of_ite (.faults rfl) (.of_ite (.faults rfl) (.keeps rfl)))
  | ctget sym => exact .of_classW (.keeps rfl)
  | cwclr => exact .of_classW (.keeps rfl)
  | cwpush n bits => exact .of_classW (.of_ite (.faults rfl) (.keeps rfl))
  | cwrd k => exact .of_classR _
  | encstart => exact .of_classW (.keeps rfl)
  | encbyte b => exact execEncbyte_latchEffect b s
  | encend => exact execEncend_latchEffect s
  | encstop => exact .of_classW (.keeps rfl)
  | trclr => exact .of_classW (.of_ite (.faults rfl) (.keeps rfl))
  | trins sym => exact execTrins_latchEffect sym s
  | rdtrie idx => exact .of_classR _
  | decstart => exact .of_classW (.keeps rfl)
  | decbyte b => exact execDecbyte_latchEffect b s
  | decstop => exact .of_classW (.keeps rfl)

/-- A command that answers a next state resets the machine, keeps the latch, raises a fault of its own, or is illegal. -/
theorem exec_latch_cases {i : Instr} {s t : State} (h : exec i s = .next t) :
    (i = .srst ∧ t = resetAll s) ∨ t.latch = s.latch ∨
      (∃ c, raisedBy c i = true ∧ t = raiseFatal c (encode i) s) ∨
      (i.wellFormed = false ∧ t = illegalWord (encode i) s) := by
  by_cases hi : i = .srst
  · subst hi; cases h; exact .inl ⟨rfl, rfl⟩
  · have heffect := exec_latchEffect hi s
    rw [h] at heffect
    cases heffect with
    | keeps hl => exact .inr (.inl hl)
    | faults hc => exact .inr (.inr (.inl ⟨_, hc, rfl⟩))
    | illegal hw => exact .inr (.inr (.inr ⟨hw, rfl⟩))

/-! ## The frame of a fault (R12, R256) -/

/-- Code 0 of FCAUSE is no fault: no command raises it (R251). -/
theorem cause_ne_none_of_raisedBy {c : Cause} {i : Instr} (h : raisedBy c i = true) : c ≠ .none := by
  rintro rfl
  cases h

/-- An illegal word taken while no fault is latched: the latch of rule R112 and the answer 0 of a class R opcode. -/
theorem illegalWord_of_clear (w : CmdWord) {s : State} (h : s.latch.fatal = false) :
    illegalWord w s = { s with
      latch := { fatal := true, fcause := .illegalCmd, fcmd := w }
      out := { s.out with rsp := s.out.rsp ++ if opClassR (opField w) then [0] else [] } } := by
  rw [illegalWord_eq, raiseFatal_of_clear _ _ h]
  split <;> simp

/-- Settles O15: the latch goes up only by a fault of the command's own or by an illegal word, and both are fault
entry with nothing around it but the answer to an illegal class R word. -/
theorem faultingCommandChangesOnlyTheLatch : Obligations.FaultingCommandChangesOnlyTheLatch := by
  intro s t i h hs ht
  rcases exec_latch_cases h with ⟨-, rfl⟩ | hl | ⟨c, hc, rfl⟩ | ⟨hw, rfl⟩
  · cases ht
  · rw [hl, hs] at ht; cases ht
  · rw [raiseFatal_of_clear c _ hs]
    exact ⟨cause_ne_none_of_raisedBy hc, rfl, hc, [], by simp, .inl rfl⟩
  · rw [illegalWord_of_clear _ hs, opField_encode]
    refine ⟨by simp, rfl, rfl, _, rfl, ?_⟩
    cases opClassR (opcodeOf i) with
    | true => exact .inr ⟨rfl, rfl, hw⟩
    | false => exact .inl rfl

end Sys2Proof.Machine

/-! SUPPORT. Proofs of the statements of 10_state.md. First what one command can do to the state, said once; every
frame and every invariant below is a case split on it. -/

namespace Sys2Proof.Machine

/-! ## What a step keeps -/

/-- What resets, illegal words and commands keep, every step keeps. -/
theorem step_keeps {P : State → Prop} (hinput : ∀ s rest, P s → P { s with input := rest })
    (hreset : ∀ s, P (resetAll s)) (hillegal : ∀ w s, P s → P (illegalWord w s))
    (hexec : ∀ i s t, P s → exec i s = .next t → P t) {s t : State} (hs : P s) (h : step s = .next t) : P t := by
  rcases step_cases h with ⟨-, rfl⟩ | ⟨rest, -, rfl⟩ | ⟨w, rest, -, -, -, rfl⟩ | ⟨w, rest, i, -, -, he⟩
  · exact hs
  · exact hreset _
  · exact hillegal w _ (hinput s rest hs)
  · exact hexec i _ t (hinput s rest hs) he

@[simp] theorem illegalWord_tb (w : CmdWord) (s : State) : (illegalWord w s).tb = s.tb := by simp [illegalWord_eq]
@[simp] theorem illegalWord_ca (w : CmdWord) (s : State) : (illegalWord w s).ca = s.ca := by simp [illegalWord_eq]
@[simp] theorem illegalWord_bp (w : CmdWord) (s : State) : (illegalWord w s).bp = s.bp := by simp [illegalWord_eq]
@[simp] theorem illegalWord_bu (w : CmdWord) (s : State) : (illegalWord w s).bu = s.bu := by simp [illegalWord_eq]
@[simp] theorem illegalWord_td (w : CmdWord) (s : State) : (illegalWord w s).td = s.td := by simp [illegalWord_eq]
@[simp] theorem illegalWord_input (w : CmdWord) (s : State) : (illegalWord w s).input = s.input := by
  simp [illegalWord_eq]
@[simp] theorem illegalWord_latch (w : CmdWord) (s : State) :
    (illegalWord w s).latch = (raiseFatal .illegalCmd w s).latch := by simp [illegalWord_eq]
@[simp] theorem illegalWord_out (w : CmdWord) (s : State) :
    (illegalWord w s).out = { s.out with rsp := if opClassR (opField w) then s.out.rsp ++ [0] else s.out.rsp } := by
  simp [illegalWord_eq]

/-! ## The frames of DECBYTE and ENCEND -/

/-- `t` is `s` after some bits of a byte: only the cursor, CUR, TDST and ICWCNT have moved, bytes were appended to
DEC_OUT, and ICWCNT did not fall (R207, R255). -/
def WalkedFrom (s t : State) : Prop :=
  s.td.icwcnt.toNat ≤ t.td.icwcnt.toNat ∧
    ∃ bu cur tdst icw ys, t = { s with
      bu := bu
      td := { s.td with cur := cur, tdst := tdst, icwcnt := icw }
      out := { s.out with decOut := s.out.decOut ++ ys } }

theorem WalkedFrom.refl (s : State) : WalkedFrom s s := ⟨le_rfl, s.bu, s.td.cur, s.td.tdst, s.td.icwcnt, [], by simp⟩

theorem WalkedFrom.trans {s t u : State} (h : WalkedFrom s t) (h' : WalkedFrom t u) : WalkedFrom s u := by
  obtain ⟨hle, bu, cur, tdst, icw, ys, rfl⟩ := h
  obtain ⟨hle', bu', cur', tdst', icw', ys', rfl⟩ := h'
  exact ⟨hle.trans hle', bu', cur', tdst', icw', ys ++ ys', by simp⟩

theorem le_icwNext (n : BitVec 32) : n.toNat ≤ (icwNext n).toNat := by
  have := n.isLt
  rw [icwNext_toNat]
  omega

theorem walkedFrom_tdStep (b : Bool) (s : State) : WalkedFrom s (tdStep b s) := by
  rcases tdStep_cases b s with ⟨-, h⟩ | ⟨-, -, -, h⟩ | ⟨-, -, -, h⟩ | ⟨-, -, h⟩ <;> rw [h]
  · exact ⟨le_icwNext _, s.bu, 0, s.td.tdst, icwNext s.td.icwcnt, [], by simp⟩
  · exact ⟨le_rfl, s.bu, 0, .done, s.td.icwcnt, [], by simp⟩
  · exact ⟨le_rfl, s.bu, 0, s.td.tdst, s.td.icwcnt, _, rfl⟩
  · exact ⟨le_rfl, s.bu, childOf (tnRead s.td.tn s.td.cur) b, s.td.tdst, s.td.icwcnt, [], by simp⟩

theorem walkedFrom_buAdvance (s : State) : WalkedFrom s (buAdvance s) :=
  ⟨le_rfl, (buAdvance s).bu, s.td.cur, s.td.tdst, s.td.icwcnt, [], by simp [buAdvance]⟩

theorem walkedFrom_buLoad (b : Byte) (s : State) : WalkedFrom s (buLoad b s) :=
  ⟨le_rfl, (buLoad b s).bu, s.td.cur, s.td.tdst, s.td.icwcnt, [], by simp [buLoad]⟩

theorem walkedFrom_decodeLoop (n : Nat) (s : State) : WalkedFrom s (decodeLoop n s) :=
  decodeLoop_keeps (P := WalkedFrom s)
    (fun t ht _ _ => (ht.trans (walkedFrom_buAdvance t)).trans (walkedFrom_tdStep _ _)) n (.refl s)

/-- ENCEND leaves an empty closed packer; the codeword and the filled last byte go to ENC_OUT (R185). -/
theorem closeStream_pushCodeword_frame (e : Codeword) (s : State) :
    ∃ ys, closeStream (pushCodeword e s) = { s with
      bp := { acc := 0, nacc := 0, active := false }
      out := { s.out with encOut := s.out.encOut ++ ys } } := by
  obtain ⟨ys, h, -⟩ := pushCodeword_frame e s
  refine ⟨ys ++ if 1 ≤ (pushCodeword e s).bp.nacc.toNat then
    [(pushCodeword e s).bp.acc <<< (8 - (pushCodeword e s).bp.nacc.toNat)] else [], ?_⟩
  rw [closeStream, bpFlush_eq, h]
  simp [setBp]

/-! ## What a command can do (R111, R254, R257) -/

/-- The outcomes that a command can have in the state `s`: a common one of every class W or class R command, its own
effect with the conditions under which it comes to it, or a stop of the model. -/
inductive Effect (s : State) : Instr → Out → Prop where
  | nothing {i : Instr} (hw : opClassR (opcodeOf i) = false) : Effect s i (.next s)
  | answer {i : Instr} (hr : opClassR (opcodeOf i) = true) (v : RspWord) : Effect s i (.next (respond v s))
  | fault {i : Instr} {c : Cause} (hw : opClassR (opcodeOf i) = false) : Effect s i (.next (raiseFatal c (encode i) s))
  | illegal {i : Instr} : Effect s i (.next (illegalWord (encode i) s))
  | reset : Effect s .srst (.next (resetAll s))
  | tbclr : Effect s .tbclr (.next { s with tb := tbCleared })
  | ldsym {sym : Sym} {cnt : Count} {tb : TbState} (hsym : symLegal sym = true) (hopen : s.tb.built = false)
      (hcnt : cnt ≠ 0) (hnew : seenRead s.tb.seen sym = false) (hload : loadLeaf sym cnt s.tb = .ok tb) :
      Effect s (.ldsym sym cnt) (.next { s with tb := tb })
  | ldsymStop {sym : Sym} {cnt : Count} {f : Fault} (hsym : symLegal sym = true) (hopen : s.tb.built = false)
      (hnew : seenRead s.tb.seen sym = false) (hload : loadLeaf sym cnt s.tb = .error f) :
      Effect s (.ldsym sym cnt) (.fault f)
  | build {tb : TbState} (hopen : s.tb.built = false) (hpos : 1 ≤ s.tb.nsym.toNat) (hbuild : buildTree s.tb = .ok tb) :
      Effect s .build (.next { s with tb := tb })
  | buildStop {f : Fault} (hopen : s.tb.built = false) (hpos : 1 ≤ s.tb.nsym.toNat)
      (hbuild : buildTree s.tb = .error f) : Effect s .build (.fault f)
  | assign {ct : Mem (Option Codeword)} (hassign : assignCodes s.tb.nd s.tb.root = .ok ct) :
      Effect s .assign (.next (setCt ct s))
  | assignStop {f : Fault} (hbuilt : s.tb.built = true) (hassign : assignCodes s.tb.nd s.tb.root = .error f) :
      Effect s .assign (.fault f)
  | ctclr : Effect s .ctclr (.next (setCt [] s))
  | ctset {sym : Sym} (hsym : symLegal sym = true) (hcw : s.ca.cw.length ≠ 0) :
      Effect s (.ctset sym) (.next (setCt (ctWrite s.ca.ct sym (some s.ca.cw)) s))
  | ctget {sym : Sym} : Effect s (.ctget sym) (.next (setCw ((ctRead s.ca.ct sym).getD []) s))
  | cwclr : Effect s .cwclr (.next (setCw [] s))
  | cwpush {n : BitVec 6} {bits : BitVec 32} (hroom : s.ca.cw.length + n.toNat ≤ cwMax) :
      Effect s (.cwpush n bits) (.next (setCw (s.ca.cw ++ pushBits n bits) s))
  | encstart : Effect s .encstart (.next (setBp { acc := 0, nacc := 0, active := true } s))
  | encbyte {b : Byte} {e : Codeword} {bp : BpState} {ys : List Byte} (hopen : s.bp.active = true)
      (hactive : bp.active = s.bp.active)
      (hpush : pushCodeword e s = { s with bp := bp, out := { s.out with encOut := s.out.encOut ++ ys } }) :
      Effect s (.encbyte b) (.next { s with bp := bp, out := { s.out with encOut := s.out.encOut ++ ys } })
  | encend (ys : List Byte) : Effect s .encend (.next { s with
      bp := { acc := 0, nacc := 0, active := false }
      out := { s.out with encOut := s.out.encOut ++ ys } })
  | encstop : Effect s .encstop (.next (setBp { acc := 0, nacc := 0, active := false } s))
  | trclr (hphase : s.td.tdst ≠ .run) : Effect s .trclr (.next (setTd { s.td with tn := [], tncnt := 1 } s))
  | trins {sym : Sym} {p : Idx} {rest : Codeword} (hphase : s.td.tdst ≠ .run)
      (hfollow : trieFollow s.td.tn 0 s.ca.cw = some (p, rest)) (hroom : s.td.tncnt.toNat + rest.length ≤ tnSize) :
      Effect s (.trins sym) (.next (setTd (trieAllocate sym p rest s.td) s))
  | decstart : Effect s .decstart
      (.next (buClear (setTd { s.td with cur := 0, icwcnt := 0, drop := false, tdst := .run } s)))
  | drop {b : Byte} (hphase : s.td.tdst = .done) : Effect s (.decbyte b) (.next (setTd { s.td with drop := true } s))
  | decbyte {b : Byte} {bu : BuState} {cur : Idx} {tdst : Tdst} {icw : BitVec 32} {ys : List Byte}
      (hphase : s.td.tdst = .run) (hicw : s.td.icwcnt.toNat ≤ icw.toNat)
      (hloop : decodeLoop 8 (buLoad b s) = { s with
        bu := bu
        td := { s.td with cur := cur, tdst := tdst, icwcnt := icw }
        out := { s.out with decOut := s.out.decOut ++ ys } }) :
      Effect s (.decbyte b) (.next { s with
        bu := bu
        td := { s.td with cur := cur, tdst := tdst, icwcnt := icw }
        out := { s.out with decOut := s.out.decOut ++ ys } })
  | decstop : Effect s .decstop (.next (buClear (setTd { s.td with cur := 0, tdst := .idle } s)))

namespace Effect

variable {i : Instr} {s : State}

theorem of_ite {p : Prop} [Decidable p] {a b : Out} (ha : p → Effect s i a) (hb : ¬p → Effect s i b) :
    Effect s i (if p then a else b) := by
  split
  · exact ha ‹_›
  · exact hb ‹_›

/-- A check that raises a fault, with the rest of a class W command behind it. -/
theorem check {p : Prop} [Decidable p] {c : Cause} {b : Out} (hw : opClassR (opcodeOf i) = false)
    (hb : ¬p → Effect s i b) : Effect s i (if p then fail c i s else b) := of_ite (fun _ => .fault hw) hb

/-- The encoding check and the discarding of rule R257 around a class W command. -/
theorem of_classW {body : Out} (hw : opClassR (opcodeOf i) = false) (hb : i.wellFormed = true → Effect s i body) :
    Effect s i (classW i s body) := by
  rcases classW_cases i s body with ⟨-, h⟩ | ⟨-, -, h⟩ | ⟨hlegal, -, h⟩ <;> rw [h]
  · exact .illegal
  · exact .nothing hw
  · exact hb hlegal

theorem of_classR (hr : opClassR (opcodeOf i) = true) (v : RspWord) : Effect s i (classR i s v) := by
  rcases classR_cases i s v with ⟨-, h⟩ | ⟨-, h⟩ <;> rw [h]
  · exact .answer hr v
  · exact .illegal

end Effect

theorem execLdsym_effect (sym : Sym) (cnt : Count) (s : State) : Effect s (.ldsym sym cnt) (execLdsym sym cnt s) := by
  refine .of_classW rfl fun hsym => .check rfl fun hopen => .check rfl fun hcnt => .check rfl fun hnew => ?_
  rw [Bool.not_eq_true] at hopen hnew
  cases hload : loadLeaf sym cnt s.tb with
  | ok tb => exact .ldsym hsym hopen hcnt hnew hload
  | error f => exact .ldsymStop hsym hopen hnew hload

theorem execBuild_effect (s : State) : Effect s .build (execBuild s) := by
  refine .of_classW rfl fun _ => .check rfl fun hopen => .check rfl fun hnsym => ?_
  rw [Bool.not_eq_true] at hopen
  have hpos : 1 ≤ s.tb.nsym.toNat := Nat.one_le_iff_ne_zero.2 fun h0 => hnsym (BitVec.eq_of_toNat_eq h0)
  cases hbuild : buildTree s.tb with
  | ok tb => exact .build hopen hpos hbuild
  | error f => exact .buildStop hopen hpos hbuild

theorem execAssign_effect (s : State) : Effect s .assign (execAssign s) := by
  refine .of_classW rfl fun _ => .check rfl fun hbuilt => .check rfl fun _ => ?_
  split
  · next ct hassign => exact .assign hassign
  · next f hassign => exact .assignStop (by simpa using hbuilt) hassign

theorem execEncbyte_effect (b : Byte) (s : State) : Effect s (.encbyte b) (execEncbyte b s) := by
  refine .of_classW rfl fun _ => .check rfl fun hopen => ?_
  split
  · exact .fault rfl
  · next e _ =>
    obtain ⟨ys, hpush, hactive⟩ := pushCodeword_frame e s
    rw [hpush]
    exact .encbyte (by simpa using hopen) hactive hpush

theorem execEncend_effect (s : State) : Effect s .encend (execEncend s) := by
  refine .of_classW rfl fun _ => .check rfl fun _ => ?_
  split
  · exact .fault rfl
  · next e _ =>
    obtain ⟨ys, hclose⟩ := closeStream_pushCodeword_frame e s
    rw [hclose]
    exact .encend ys

theorem execTrins_effect (sym : Sym) (s : State) : Effect s (.trins sym) (execTrins sym s) := by
  refine .of_classW rfl fun _ => .check rfl fun hphase => .check rfl fun _ => ?_
  split
  · exact .fault rfl
  · next p rest hfollow => exact .check rfl fun hroom => .trins hphase hfollow (Nat.not_lt.1 hroom)

theorem execDecbyte_effect (b : Byte) (s : State) : Effect s (.decbyte b) (execDecbyte b s) := by
  refine .of_classW rfl fun _ => ?_
  split
  · exact .fault rfl
  · next hphase => exact .drop hphase
  · next hphase =>
    refine .check rfl fun _ => ?_
    obtain ⟨hicw, bu, cur, tdst, icw, ys, hloop⟩ :=
      (walkedFrom_buLoad b s).trans (walkedFrom_decodeLoop 8 (buLoad b s))
    rw [hloop] at hicw ⊢
    exact .decbyte hphase hicw hloop

/-- Every command has one of the outcomes of `Effect`. -/
theorem exec_effect (i : Instr) (s : State) : Effect s i (exec i s) := by
  cases i with
  | nop => exact .nothing rfl
  | srst => exact .reset
  | rdreg r => exact .of_classR rfl _
  | tbclr => exact .of_classW rfl fun _ => .tbclr
  | ldsym sym cnt => exact execLdsym_effect sym cnt s
  | build => exact execBuild_effect s
  | rdnode idx sel => exact .of_classR rfl _
  | assign => exact execAssign_effect s
  | ctclr => exact .of_classW rfl fun _ => .check rfl fun _ => .ctclr
  | ctset sym => exact .of_classW rfl fun hsym => .check rfl fun _ => .check rfl fun hcw => .ctset hsym hcw
  | ctget sym => exact .of_classW rfl fun _ => .ctget
  | cwclr => exact .of_classW rfl fun _ => .cwclr
  | cwpush n bits => exact .of_classW rfl fun _ => .check rfl fun hroom => .cwpush (Nat.not_lt.1 hroom)
  | cwrd k => exact .of_classR rfl _
  | encstart => exact .of_classW rfl fun _ => .encstart
  | encbyte b => exact execEncbyte_effect b s
  | encend => exact execEncend_effect s
  | encstop => exact .of_classW rfl fun _ => .encstop
  | trclr => exact .of_classW rfl fun _ => .check rfl fun hphase => .trclr hphase
  | trins sym => exact execTrins_effect sym s
  | rdtrie idx => exact .of_classR rfl _
  | decstart => exact .of_classW rfl fun _ => .decstart
  | decbyte b => exact execDecbyte_effect b s
  | decstop => exact .of_classW rfl fun _ => .decstop

/-- A command that answers the next state `t` has one of the effects that answer `t`. -/
theorem effect_of_exec {i : Instr} {s t : State} (h : exec i s = .next t) : Effect s i (.next t) :=
  h ▸ exec_effect i s

/-! ## Writers of each item (R20, R21, R43, R70, R72) -/

/-- A merge writes ND, INQ and NNODE only (R144). -/
theorem mergeStep_frame {tb tb' : TbState} (h : mergeStep tb = .ok tb') :
    tb' = { tb with nd := tb'.nd, inq := tb'.inq, nnode := tb'.nnode } := by
  obtain ⟨a, b, -, -, hplace⟩ := mergeStep_ok h
  obtain ⟨-, -, rfl⟩ := placeJoin_ok hplace
  rfl

/-- BUILD leaves SEEN and NSYM alone (R146). -/
theorem buildTree_frame {tb tb' : TbState} (h : buildTree tb = .ok tb') : tb'.seen = tb.seen ∧ tb'.nsym = tb.nsym := by
  obtain ⟨tb1, r, hloop, -, rfl⟩ := buildTree_ok h
  have hkeeps : tb1.seen = tb.seen ∧ tb1.nsym = tb.nsym := by
    refine mergeLoop_keeps (P := fun u => u.seen = tb.seen ∧ u.nsym = tb.nsym) (fun u u' hu hm => ?_) ⟨rfl, rfl⟩ hloop
    rw [mergeStep_frame hm]
    exact hu
  exact hkeeps

/-- LDSYM leaves ROOT and TB_BUILT alone (R142). -/
theorem loadLeaf_frame {sym : Sym} {cnt : Count} {tb tb' : TbState} (h : loadLeaf sym cnt tb = .ok tb') :
    tb'.root = tb.root ∧ tb'.built = tb.built := by
  obtain ⟨-, -, rfl⟩ := loadLeaf_ok h
  exact ⟨rfl, rfl⟩

/-- TRINS writes TN and TNCNT only (R203). -/
theorem trieAllocate_registers (sym : Sym) (p : Idx) (c : Codeword) (td : TdState) :
    (trieAllocate sym p c td).cur = td.cur ∧ (trieAllocate sym p c td).tdst = td.tdst ∧
      (trieAllocate sym p c td).icwcnt = td.icwcnt ∧ (trieAllocate sym p c td).drop = td.drop := by
  rw [trieAllocate_frame]
  exact ⟨rfl, rfl, rfl, rfl⟩

/-- Settles O14: `respond` and the answer to an illegal word write RSP, the packer ENC_OUT, the walk DEC_OUT. -/
theorem outputsAppendOnlyWhereTheSpecSays : Obligations.OutputsAppendOnlyWhereTheSpecSays := by
  intro s t i h
  cases effect_of_exec h with
  | nothing hw => simp [hw]
  | answer hr v => simp [hr]
  | fault hw => simp [hw]
  | illegal => cases hr : opClassR (opcodeOf i) <;> simp [hr, opField_encode]
  | encbyte => exact ⟨rfl, ⟨_, rfl, fun _ => .inr ⟨_, rfl⟩⟩, by simp, rfl⟩
  | encend ys => exact ⟨rfl, ⟨_, rfl, fun _ => .inl rfl⟩, by simp, rfl⟩
  | decbyte => exact ⟨rfl, by simp, ⟨_, rfl, fun _ => ⟨_, rfl⟩⟩, rfl⟩
  | _ => simp [opcodeOf, opClassR]

/-- Settles O19: FATAL by what a command can do to the latch, the other flags by its effect. -/
theorem flagsChangeOnlyByTheirCommands : Obligations.FlagsChangeOnlyByTheirCommands := by
  intro s t i h hi
  have hfatal : s.latch.fatal = true → t.latch.fatal = true := fun hs => by
    rcases exec_latch_cases h with ⟨rfl, -⟩ | hl | ⟨c, -, rfl⟩ | ⟨-, rfl⟩
    · exact absurd rfl hi
    · rw [hl, hs]
    · exact raiseFatal_fatal c _ s
    · rw [illegalWord_latch, raiseFatal_fatal]
  have hraised : s.latch.fatal = false → t.latch.fatal = true → raisedBy t.latch.fcause i = true := fun hs ht => by
    obtain ⟨-, -, hraised, -⟩ := faultingCommandChangesOnlyTheLatch s t i h hs ht
    exact hraised
  refine ⟨hfatal, hraised, ?_⟩
  cases effect_of_exec h with
  | reset => exact absurd rfl hi
  | ldsym _ _ _ _ hload => simp [(loadLeaf_frame hload).2]
  | encbyte _ hactive => simp [hactive]
  | trins => simp [trieAllocate_registers]
  | decbyte _ hicw => simpa using hicw
  | _ => simp

/-- Settles O20: the effect of each command names the items it writes. -/
theorem eachItemIsWrittenOnlyByItsCommands : Obligations.EachItemIsWrittenOnlyByItsCommands := by
  intro s t i h hi
  cases effect_of_exec h with
  | reset => exact absurd rfl hi
  | ldsym _ _ _ _ hload => simp [(loadLeaf_frame hload).1]
  | build _ _ hbuild => simp [buildTree_frame hbuild]
  | trins => simp [trieAllocate_registers]
  | _ => simp

/-! ## Reads (R41, R42, R133) -/

/-- The fields of STATUS stand at the places of rule R42. -/
theorem statusWord_fields (s : State) :
    (statusWord s).getLsbD 0 = s.latch.fatal ∧ (statusWord s).getLsbD 1 = s.tb.built ∧
      (statusWord s).getLsbD 2 = s.bp.active ∧ (statusWord s).extractLsb' 3 2 = tdstCode s.td.tdst ∧
      (statusWord s).getLsbD 5 = icwFlag s ∧ (statusWord s).getLsbD 6 = s.td.drop ∧
      (statusWord s).extractLsb' 7 25 = 0 := by
  unfold statusWord
  generalize s.latch.fatal = fatal, s.tb.built = built, s.bp.active = active, icwFlag s = icw, s.td.drop = drop,
    tdstCode s.td.tdst = code
  revert fatal built active icw drop code
  decide

/-- A field of `m` bits above the `n` low bits of a word with zeros on top. -/
theorem extractLsb'_append_fields {k m n : Nat} (z : BitVec k) (a : BitVec m) (b : BitVec n) :
    (z ++ a ++ b).extractLsb' 0 n = b ∧ (z ++ a ++ b).extractLsb' n m = a ∧
      (z ++ a ++ b).extractLsb' (m + n) k = z := by
  refine ⟨?_, ?_, ?_⟩ <;> apply BitVec.eq_of_getLsbD_eq <;> intro j hj <;>
    simp only [BitVec.getLsbD_extractLsb', BitVec.getLsbD_append, hj, decide_true, Bool.true_and]
  · simp [hj]
  · simp [hj]
  · simp [show ¬ m + n + j < n by omega, show m + n + j - n = m + j by omega]

/-- Settles O22: RDREG responds the register's view, and the view has the fields of rules R41 and R42. -/
theorem rdregReadsEveryControlRegister : Obligations.RdregReadsEveryControlRegister := by
  intro s r hr
  refine ⟨controlReg s r, classR_run (i := .rdreg r) (by simpa [Instr.wellFormed] using hr) s _, ?_⟩
  refine ⟨?_, ?_, ?_, ?_, ?_, ?_, ?_, ?_, ?_, ?_, ?_, ?_, ?_, ?_⟩ <;> intro h <;> simp only [controlReg, h]
  · obtain ⟨hfatal, hbuilt, hactive, htdst, hicw, hdrop, hzero⟩ := statusWord_fields s
    refine ⟨hfatal, hbuilt, hactive, ?_, by rw [hicw, icwFlag, bne_iff_ne], hdrop, hzero⟩
    rw [htdst]
    cases s.td.tdst <;> rfl
  · cases s.latch.fcause <;> rfl
  · rw [BitVec.toNat_setWidth_of_le (by omega)]
  · rw [BitVec.toNat_setWidth_of_le (by omega)]
  · rw [BitVec.toNat_setWidth_of_le (by omega)]
  · rw [BitVec.toNat_setWidth_of_le (by omega), BitVec.toNat_ofNat]
  · rw [BitVec.toNat_setWidth_of_le (by omega)]
  · rw [BitVec.toNat_setWidth_of_le (by omega)]
  · exact extractLsb'_append_fields _ _ _
  · exact extractLsb'_append_fields _ _ _

/-- Settles O8: a step without a move answers the same state, and `rst` is `resetAll`. -/
theorem idleHoldsAndHardResetClears : Obligations.IdleHoldsAndHardResetClears := by
  refine ⟨fun s hi => by simp [step, hi], fun s rest hi => ?_⟩
  rw [step_of_input hi]
  rfl

/-- Settles O10: every view of the reset state, register by register. -/
theorem resetReadsAsTheSpecSays : Obligations.ResetReadsAsTheSpecSays := by
  refine ⟨by decide, fun i sel => ?_, fun p => ?_, fun y => ⟨rfl, rfl⟩, fun k => ?_, rfl, rfl⟩
  · have hview : ∀ sel : BitVec 2, nodeView Node.zero false sel = 0 := by decide
    exact hview sel
  · have hview : trieView TrieNode.zero = 0 := by decide
    exact hview
  · have hview : ∀ k : BitVec 3, cwWord [] k = 0 := by decide
    exact hview k

/-! ## The fault latch (R44 item 10) -/

/-- Fault entry with a real cause keeps the latch consistent (R256). -/
theorem latchInv_raiseFatal {c : Cause} (hc : c ≠ .none) (w : CmdWord) {s : State} (hs : LatchInv s.latch) :
    LatchInv (raiseFatal c w s).latch := by
  rw [raiseFatal_latch]
  split
  · exact hs
  · exact ⟨by simp [hc], nofun⟩

theorem latchInv_reset : LatchInv State.reset.latch := ⟨by decide, fun _ => rfl⟩

/-- Settles O55: a command keeps the latch, clears it by SRST, or enters a fault whose cause is none of code 0. -/
theorem stepKeepsTheLatchInvariant : Obligations.StepKeepsTheLatchInvariant := by
  intro s t hs h
  refine step_keeps (P := fun u => LatchInv u.latch) (fun _ _ hu => hu) (fun _ => latchInv_reset)
    (fun w u hu => ?_) (fun i u v hu he => ?_) hs h
  · rw [illegalWord_latch]
    exact latchInv_raiseFatal (by decide) w hu
  · rcases exec_latch_cases he with ⟨-, rfl⟩ | hl | ⟨c, hc, rfl⟩ | ⟨-, rfl⟩
    · exact latchInv_reset
    · rwa [hl]
    · exact latchInv_raiseFatal (cause_ne_none_of_raisedBy hc) _ hu
    · rw [illegalWord_latch]
      exact latchInv_raiseFatal (by decide) _ hu

/-! ## The bit packer (R44 item 7) -/

/-- One more bit needs one more place in the accumulator (R181). -/
theorem accShift_lt {acc : BitVec 8} {n : Nat} (h : acc.toNat < 2 ^ n) (b : Bool) :
    (accShift acc b).toNat < 2 ^ (n + 1) := by
  apply Nat.lt_pow_two_of_testBit
  intro i hi
  have hhigh : acc.getLsbD (i - 1) = false := by
    rw [← BitVec.testBit_toNat]
    exact Nat.testBit_lt_two_pow (h.trans_le (Nat.pow_le_pow_right (by decide) (by omega)))
  rw [BitVec.testBit_toNat, accShift_getLsbD, hhigh]
  simp [show i ≠ 0 by omega]

theorem bpPush_acc_lt {s : State} (h : s.bp.acc.toNat < 2 ^ s.bp.nacc.toNat) (b : Bool) :
    (bpPush s b).bp.acc.toNat < 2 ^ (bpPush s b).bp.nacc.toNat := by
  by_cases hfull : s.bp.nacc.toNat + 1 = 8
  · simp [bpPush_emit hfull]
  · have hnacc := s.bp.nacc.isLt
    rw [bpPush_held hfull, BitVec.toNat_ofNat, Nat.mod_eq_of_lt (by omega)]
    exact accShift_lt h b

/-- Packing a codeword keeps ACC below 2^NACC (R181). -/
theorem pushCodeword_acc_lt (c : Codeword) {s : State} (h : s.bp.acc.toNat < 2 ^ s.bp.nacc.toNat) :
    (pushCodeword c s).bp.acc.toNat < 2 ^ (pushCodeword c s).bp.nacc.toNat := by
  induction c generalizing s with
  | nil => exact h
  | cons b c ih => exact ih (bpPush_acc_lt h b)

/-- A packer that holds no bit meets the invariant, open or closed. -/
theorem bpInv_empty (active : Bool) : BpInv { acc := 0, nacc := 0, active := active } :=
  ⟨by simp, fun _ => ⟨rfl, rfl⟩⟩

/-- Settles O56: only the packer's own commands write it, and all but ENCBYTE leave it empty. -/
theorem stepKeepsThePackerInvariant : Obligations.StepKeepsThePackerInvariant := by
  intro s t hs h
  refine step_keeps (P := fun u => BpInv u.bp) (fun _ _ hu => hu) (fun _ => bpInv_empty false)
    (fun w u hu => by simpa using hu) (fun i u v hu he => ?_) hs h
  cases effect_of_exec he with
  | reset => exact bpInv_empty false
  | encstart => exact bpInv_empty true
  | @encbyte b e bp ys hopen hactive hpush =>
    have hacc := pushCodeword_acc_lt e hu.acc_lt
    rw [hpush] at hacc
    exact ⟨hacc, fun hclosed => by simp [hactive, hopen] at hclosed⟩
  | encend => exact bpInv_empty false
  | encstop => exact bpInv_empty false
  | _ => simpa using hu

/-! ## The lengths of codewords (R44 items 5 and 6) -/

/-- Every codeword of an assignment has 1 to 256 bits (R161 to R163). -/
theorem assignment_lengths {nd : Mem Node} {root : Idx} {pairs : List (Sym × Codeword)}
    (h : assignment nd root = .ok pairs) : ∀ e ∈ pairs, 1 ≤ e.2.length ∧ e.2.length ≤ cwMax := by
  simp only [assignment] at h
  split at h
  · cases h
  · next n hn =>
    obtain ⟨-, rfl⟩ := ndFollow_ok hn
    split at h
    · cases h
      simp
    · next hinner =>
      obtain ⟨l, r, hl, hr, rfl⟩ := codes_inner (by simpa using hinner) h
      have hside : ∀ {i : Idx} {b : Bool} {ps : List (Sym × Codeword)}, codes nd 255 i [b] = .ok ps →
          ∀ e ∈ ps, 1 ≤ e.2.length ∧ e.2.length ≤ cwMax := fun hps e he => by
        obtain ⟨hprefix, hmax⟩ := codes_extends hps e he
        have hmin := hprefix.length_le
        simp only [List.length_cons, List.length_nil] at hmin hmax
        exact ⟨by omega, by omega⟩
      intro e he
      rcases List.mem_append.1 he with he | he
      · exact hside hl e he
      · exact hside hr e he

/-- The lengths of the codewords that a code table holds (R44 item 6). -/
def CtLengths (ct : Mem (Option Codeword)) : Prop :=
  ∀ sym c, ctRead ct sym = some c → 1 ≤ c.length ∧ c.length ≤ cwMax

theorem ctLengths_write {ct : Mem (Option Codeword)} (hct : CtLengths ct) (sym : Sym) {c : Codeword}
    (hc : 1 ≤ c.length ∧ c.length ≤ cwMax) : CtLengths (ctWrite ct sym (some c)) := by
  intro y d hd
  rw [ctRead_write] at hd
  split at hd
  · cases hd
    exact hc
  · exact hct y d hd

theorem ctLengths_nil : CtLengths [] := fun sym c hc => by simp at hc

/-- ASSIGN leaves only codewords of 1 to 256 bits in CT (R163, R164). -/
theorem ctLengths_assignCodes {nd : Mem Node} {root : Idx} {ct : Mem (Option Codeword)}
    (h : assignCodes nd root = .ok ct) : CtLengths ct := by
  obtain ⟨pairs, hpairs, hwrite⟩ := assignCodes_ok h
  refine writeCodes_keeps (P := CtLengths) (fun ct' e he hct _ => ?_) ctLengths_nil hwrite
  exact ctLengths_write hct e.1 (assignment_lengths hpairs e he)

/-- CTGET loads a codeword within the bounds, or the empty one (R168). -/
theorem getD_ctRead_length {ct : Mem (Option Codeword)} (hct : CtLengths ct) (sym : Sym) :
    ((ctRead ct sym).getD []).length ≤ cwMax := by
  cases hc : ctRead ct sym with
  | none => simp
  | some c => exact (hct sym c hc).2

theorem caInv_reset : CaInv State.reset.ca := ⟨by simp [State.reset], ctLengths_nil⟩

/-- Settles O57: CTSET stores what CW holds, CWPUSH checks the length, and ASSIGN's paths have 1 to 256 bits. -/
theorem stepKeepsTheCodewordLengths : Obligations.StepKeepsTheCodewordLengths := by
  intro s t hs h
  refine step_keeps (P := fun u => CaInv u.ca) (fun _ _ hu => hu) (fun _ => caInv_reset)
    (fun w u hu => by simpa using hu) (fun i u v hu he => ?_) hs h
  cases effect_of_exec he with
  | reset => exact caInv_reset
  | assign hassign => exact ⟨hu.cw_length, ctLengths_assignCodes hassign⟩
  | ctclr => exact ⟨hu.cw_length, ctLengths_nil⟩
  | ctset hsym hcw => exact ⟨hu.cw_length, ctLengths_write hu.ct_length _ ⟨Nat.one_le_iff_ne_zero.2 hcw, hu.cw_length⟩⟩
  | ctget => exact ⟨getD_ctRead_length hu.ct_length _, hu.ct_length⟩
  | cwclr => exact ⟨by simp, hu.ct_length⟩
  | cwpush hroom => exact ⟨by simpa using hroom, hu.ct_length⟩
  | _ => simpa using hu

/-! ## The decode trie (R44 item 8) -/

/-- The trie while TRINS allocates (R203): everything of `TrieInv`, but the node `p` where the path stands is inner and
may still have no child. -/
structure TrieOpen (td : TdState) (p : Idx) : Prop where
  tncnt_pos : 1 ≤ td.tncnt.toNat
  tncnt_le : td.tncnt.toNat ≤ tnSize
  unallocated : ∀ q : Idx, td.tncnt.toNat ≤ q.toNat → tnRead td.tn q = TrieNode.zero
  child_gt : ∀ (q : Idx) (b : Bool), childOf (tnRead td.tn q) b ≠ 0 →
    q.toNat < (childOf (tnRead td.tn q) b).toNat ∧ (childOf (tnRead td.tn q) b).toNat < td.tncnt.toNat
  one_parent : ∀ i, 1 ≤ i → i < td.tncnt.toNat → (tnChildren td).count i = 1
  root_inner : (tnRead td.tn 0).leaf = false
  leaf_childless : ∀ (q : Idx) (b : Bool), (tnRead td.tn q).leaf = true → childOf (tnRead td.tn q) b = 0
  inner_child : ∀ q : Idx, q ≠ p → 1 ≤ q.toNat → q.toNat < td.tncnt.toNat → (tnRead td.tn q).leaf = false →
    ∃ b, childOf (tnRead td.tn q) b ≠ 0
  here_lt : p.toNat < td.tncnt.toNat
  here_inner : (tnRead td.tn p).leaf = false

/-- How many of an entry's two pointers name `i`. -/
def childCount (i : Nat) (e : TrieNode) : Nat := [e.child0.toNat, e.child1.toNat].count i

theorem childCount_zero {i : Nat} (hi : 1 ≤ i) : childCount i TrieNode.zero = 0 := by
  simp [childCount, show (0 : Nat) ≠ i by omega]

/-- A pointer set where none was names one child more. -/
theorem childCount_setChild {i : Nat} (hi : 1 ≤ i) {e : TrieNode} {b : Bool} (he : childOf e b = 0) (q : Idx) :
    childCount i (setChild e b q) = childCount i e + if q.toNat = i then 1 else 0 := by
  have h0 : (0 : Nat) ≠ i := by omega
  cases b <;> simp only [childOf, Bool.false_eq_true, if_false, if_true] at he <;>
    simp [childCount, setChild, List.count_cons, he, h0, Nat.add_comm]

/-- The children named by the trie, counted entry by entry. -/
theorem count_tnChildren (td : TdState) (i : Nat) :
    (tnChildren td).count i = ∑ p ∈ Finset.range td.tncnt.toNat, childCount i (tnRead td.tn (BitVec.ofNat 10 p)) := by
  rw [tnChildren, List.count_flatMap]
  rfl

/-- No index at or beyond TNCNT is a child. -/
theorem TrieOpen.count_tnChildren_beyond {td : TdState} {p : Idx} (h : TrieOpen td p) {i : Nat} (hi : 1 ≤ i)
    (hbeyond : td.tncnt.toNat ≤ i) : (tnChildren td).count i = 0 := by
  have hne : ∀ (q : Idx) (b : Bool), (childOf (tnRead td.tn q) b).toNat ≠ i := fun q b hq => by
    by_cases h0 : childOf (tnRead td.tn q) b = 0
    · have hzero : 0 = i := by simpa [h0] using hq
      omega
    · have hchild := h.child_gt q b h0
      omega
  rw [count_tnChildren]
  refine Finset.sum_eq_zero fun q _ => ?_
  have hright := hne (BitVec.ofNat 10 q) true
  have hleft := hne (BitVec.ofNat 10 q) false
  simpa [childCount, childOf, List.count_cons] using And.intro hright hleft

/-- The trie after one turn of TRINS's phase 2: the entry at TNCNT is the new child of `p` on the side `b` (R203). -/
def trieExtend (p : Idx) (b : Bool) (td : TdState) : TdState :=
  { td with
    tn := tnWrite td.tn p (setChild (tnRead td.tn p) b (td.tncnt.setWidth 10))
    tncnt := td.tncnt + 1 }

theorem trieAllocate_cons (sym : Sym) (p : Idx) (b : Bool) (c : Codeword) (td : TdState) :
    trieAllocate sym p (b :: c) td = trieAllocate sym (td.tncnt.setWidth 10) c (trieExtend p b td) := rfl

theorem tnRead_trieExtend (p q : Idx) (b : Bool) (td : TdState) :
    tnRead (trieExtend p b td).tn q =
      if p = q then setChild (tnRead td.tn p) b (td.tncnt.setWidth 10) else tnRead td.tn q := tnRead_write ..

section
variable {td : TdState} {p : Idx} {b : Bool} (hroom : td.tncnt.toNat < tnSize)
include hroom

theorem tncnt_setWidth_toNat : (td.tncnt.setWidth 10 : Idx).toNat = td.tncnt.toNat := by
  rw [BitVec.toNat_setWidth]
  exact Nat.mod_eq_of_lt hroom

theorem trieExtend_tncnt : (trieExtend p b td).tncnt.toNat = td.tncnt.toNat + 1 := by
  have hcnt : (trieExtend p b td).tncnt = td.tncnt + 1 := rfl
  rw [hcnt, BitVec.toNat_add]
  exact Nat.mod_eq_of_lt (Nat.lt_of_le_of_lt (Nat.succ_le_of_lt hroom) (by decide))

/-- One turn of phase 2 adds the new node to the children, once. -/
theorem TrieOpen.count_tnChildren_trieExtend (h : TrieOpen td p) (hb : childOf (tnRead td.tn p) b = 0) {i : Nat}
    (hi : 1 ≤ i) :
    (tnChildren (trieExtend p b td)).count i = (tnChildren td).count i + if td.tncnt.toNat = i then 1 else 0 := by
  have hentry : ∀ k ∈ Finset.range (td.tncnt.toNat + 1),
      childCount i (tnRead (trieExtend p b td).tn (BitVec.ofNat 10 k)) =
        childCount i (tnRead td.tn (BitVec.ofNat 10 k)) +
          if k = p.toNat then (if td.tncnt.toNat = i then 1 else 0) else 0 := fun k hk => by
    have hk' : k < 2 ^ 10 := (Finset.mem_range.1 hk).trans_le hroom
    rw [tnRead_trieExtend]
    by_cases hpk : k = p.toNat
    · subst hpk
      simp [childCount_setChild hi hb, tncnt_setWidth_toNat hroom]
    · have hne : p ≠ BitVec.ofNat 10 k := fun hp => hpk (by rw [hp, BitVec.toNat_ofNat, Nat.mod_eq_of_lt hk'])
      simp [hpk, hne]
  have hlast : tnRead td.tn (BitVec.ofNat 10 td.tncnt.toNat) = TrieNode.zero :=
    h.unallocated _ (by rw [BitVec.toNat_ofNat, Nat.mod_eq_of_lt hroom])
  rw [count_tnChildren, count_tnChildren, trieExtend_tncnt hroom, Finset.sum_congr rfl hentry,
    Finset.sum_add_distrib, Finset.sum_range_succ, hlast, childCount_zero hi, Finset.sum_ite_eq',
    if_pos (Finset.mem_range.2 (h.here_lt.trans (Nat.lt_succ_self _)))]
  rfl

/-- The node that a turn of phase 2 makes is not the root. -/
theorem TrieOpen.new_ne_zero (h : TrieOpen td p) : (td.tncnt.setWidth 10 : Idx) ≠ 0 := fun h0 =>
  Nat.ne_of_gt h.tncnt_pos ((tncnt_setWidth_toNat hroom).symm.trans (congrArg BitVec.toNat h0))

end

/-- One turn of phase 2 sets one pointer: that of `p` on the side `b`. -/
theorem childOf_trieExtend (p x : Idx) (b b' : Bool) (td : TdState) :
    childOf (tnRead (trieExtend p b td).tn x) b' =
      if p = x ∧ b = b' then td.tncnt.setWidth 10 else childOf (tnRead td.tn x) b' := by
  rw [tnRead_trieExtend]
  by_cases hx : p = x
  · subst hx
    by_cases hb : b = b'
    · simp [hb]
    · obtain rfl : b' = !b := by cases b <;> cases b' <;> simp_all
      simp
  · simp [hx]

@[simp] theorem leaf_trieExtend (p x : Idx) (b : Bool) (td : TdState) :
    (tnRead (trieExtend p b td).tn x).leaf = (tnRead td.tn x).leaf := by
  rw [tnRead_trieExtend]
  split
  · next hx => simp [hx]
  · rfl

/-- One turn of phase 2 (R203): the path then stands on the new node. -/
theorem TrieOpen.extend {td : TdState} {p : Idx} {b : Bool} (h : TrieOpen td p)
    (hb : childOf (tnRead td.tn p) b = 0) (hroom : td.tncnt.toNat < tnSize) :
    TrieOpen (trieExtend p b td) (td.tncnt.setWidth 10) := by
  have hnew := tncnt_setWidth_toNat hroom
  have hcnt := trieExtend_tncnt (p := p) (b := b) hroom
  have hpos := h.tncnt_pos
  have hp := h.here_lt
  have hold : ∀ {x b'}, ¬(p = x ∧ b = b') →
      childOf (tnRead (trieExtend p b td).tn x) b' = childOf (tnRead td.tn x) b' := fun hx => by
    rw [childOf_trieExtend, if_neg hx]
  have hset : childOf (tnRead (trieExtend p b td).tn p) b = td.tncnt.setWidth 10 := by
    rw [childOf_trieExtend, if_pos ⟨rfl, rfl⟩]
  refine
    { tncnt_pos := by omega
      tncnt_le := by rw [hcnt]; exact hroom
      unallocated := fun x hx => ?_
      child_gt := fun x b' hx => ?_
      one_parent := fun i hi hlt => ?_
      root_inner := by rw [leaf_trieExtend]; exact h.root_inner
      leaf_childless := fun x b' hx => ?_
      inner_child := fun x hx hx1 hlt hinner => ?_
      here_lt := by rw [hcnt, hnew]; exact Nat.lt_succ_self _
      here_inner := by rw [leaf_trieExtend, h.unallocated _ hnew.ge] }
  · rw [hcnt] at hx
    rw [tnRead_trieExtend, if_neg (by rintro rfl; omega)]
    exact h.unallocated x (by omega)
  · rw [hcnt]
    by_cases hside : p = x ∧ b = b'
    · obtain ⟨rfl, rfl⟩ := hside
      rw [hset, hnew]
      omega
    · rw [hold hside] at hx ⊢
      have := h.child_gt x b' hx
      omega
  · rw [hcnt] at hlt
    rw [h.count_tnChildren_trieExtend hroom hb hi]
    rcases Nat.lt_succ_iff_lt_or_eq.1 hlt with hlt | rfl
    · rw [h.one_parent i hi hlt, if_neg (by omega)]
    · rw [h.count_tnChildren_beyond hi le_rfl, if_pos rfl]
  · rw [leaf_trieExtend] at hx
    rw [hold (by rintro ⟨rfl, -⟩; simp [h.here_inner] at hx)]
    exact h.leaf_childless x b' hx
  · rw [leaf_trieExtend] at hinner
    rw [hcnt] at hlt
    have hne : x.toNat ≠ td.tncnt.toNat := fun heq => hx (BitVec.eq_of_toNat_eq (heq.trans hnew.symm))
    by_cases hpx : x = p
    · subst hpx
      exact ⟨b, by rw [hset]; exact h.new_ne_zero hroom⟩
    · obtain ⟨b', hb'⟩ := h.inner_child x hpx hx1 (by omega) hinner
      exact ⟨b', by rwa [hold (by rintro ⟨rfl, -⟩; exact hpx rfl)]⟩

/-- The last write of phase 2 (R203): a childless node other than the root becomes a leaf, and the trie is whole. -/
theorem TrieOpen.close {td : TdState} {p : Idx} (h : TrieOpen td p) (hroot : p ≠ 0)
    (hfree : ∀ b, childOf (tnRead td.tn p) b = 0) (sym : Sym) : TrieInv (trieAllocate sym p [] td) := by
  have hread : ∀ x, tnRead (trieAllocate sym p [] td).tn x =
      if p = x then { tnRead td.tn p with leaf := true, sym := sym } else tnRead td.tn x := fun x => tnRead_write ..
  have hchild : ∀ x b, childOf (tnRead (trieAllocate sym p [] td).tn x) b = childOf (tnRead td.tn x) b := fun x b => by
    rw [hread]
    split
    · next hx => subst hx; rfl
    · rfl
  have hchildren : tnChildren (trieAllocate sym p [] td) = tnChildren td := by
    have hpointers : ∀ x, (tnRead (trieAllocate sym p [] td).tn x).child0 = (tnRead td.tn x).child0 ∧
        (tnRead (trieAllocate sym p [] td).tn x).child1 = (tnRead td.tn x).child1 := fun x =>
      ⟨hchild x false, hchild x true⟩
    simp only [tnChildren, hpointers]
    rfl
  refine
    { tncnt_pos := h.tncnt_pos
      tncnt_le := h.tncnt_le
      unallocated := fun x hx => ?_
      child_gt := fun x b hx => ?_
      one_parent := fun i hi hlt => ?_
      root_inner := by rw [hread, if_neg hroot]; exact h.root_inner
      leaf_childless := fun x b hx => ?_
      inner_child := fun x hx hlt hinner => ?_ }
  · have hp := h.here_lt
    rw [hread, if_neg (by rintro rfl; exact absurd hp (Nat.not_lt.2 hx))]
    exact h.unallocated x hx
  · rw [hchild] at hx ⊢
    exact h.child_gt x b hx
  · rw [hchildren]
    exact h.one_parent i hi hlt
  · rw [hchild]
    by_cases hpx : p = x
    · subst hpx; exact hfree b
    · rw [hread, if_neg hpx] at hx
      exact h.leaf_childless x b hx
  · have hpx : p ≠ x := by
      rintro rfl
      simp [hread] at hinner
    rw [hread, if_neg hpx] at hinner
    obtain ⟨b, hb⟩ := h.inner_child x hpx.symm hx hlt hinner
    exact ⟨b, by rwa [hchild]⟩

/-- The node that a turn of phase 2 makes has no child. -/
theorem TrieOpen.new_childless {td : TdState} {p : Idx} (h : TrieOpen td p) (b : Bool) (hroom : td.tncnt.toNat < tnSize)
    (b' : Bool) : childOf (tnRead (trieExtend p b td).tn (td.tncnt.setWidth 10)) b' = 0 := by
  have hnew := tncnt_setWidth_toNat hroom
  have hne : p ≠ td.tncnt.setWidth 10 := fun hp => absurd h.here_lt (by rw [hp, hnew]; exact Nat.lt_irrefl _)
  rw [childOf_trieExtend, if_neg (fun hx => hne hx.1), h.unallocated _ hnew.ge, childOf_zero]

/-- Phase 2 of TRINS from a new node (R203): as many nodes as bits are left, then the leaf. -/
theorem trieAllocate_closes (sym : Sym) (c : Codeword) {td : TdState} {p : Idx} (h : TrieOpen td p) (hroot : p ≠ 0)
    (hfree : ∀ b, childOf (tnRead td.tn p) b = 0) (hroom : td.tncnt.toNat + c.length ≤ tnSize) :
    TrieInv (trieAllocate sym p c td) := by
  induction c generalizing p td with
  | nil => exact h.close hroot hfree sym
  | cons b c ih =>
    rw [List.length_cons] at hroom
    have hroom' : td.tncnt.toNat < tnSize := by omega
    rw [trieAllocate_cons]
    exact ih (h.extend (hfree b) hroom') (h.new_ne_zero hroom') (h.new_childless b hroom')
      (by rw [trieExtend_tncnt hroom']; omega)

/-- A whole trie with the path at an inner node of it. -/
theorem TrieInv.toOpen {td : TdState} (h : TrieInv td) {p : Idx} (hlt : p.toNat < td.tncnt.toNat)
    (hinner : (tnRead td.tn p).leaf = false) : TrieOpen td p :=
  { h with inner_child := fun q _ => h.inner_child q, here_lt := hlt, here_inner := hinner }

/-- Phase 1 of TRINS stays on allocated nodes (R203). -/
theorem trieFollow_lt {td : TdState} (h : TrieInv td) {c r : Codeword} {p q : Idx} (hp : p.toNat < td.tncnt.toNat)
    (hfollow : trieFollow td.tn p c = some (q, r)) : q.toNat < td.tncnt.toNat := by
  induction c generalizing p with
  | nil => cases hfollow
  | cons b c ih =>
    simp only [trieFollow] at hfollow
    split at hfollow
    · cases hfollow
    · split at hfollow
      · cases hfollow
        exact hp
      · next hchild => exact ih (h.child_gt p b hchild).2 hfollow

/-- The effect of TRINS keeps the trie a tree (R203). -/
theorem trieInv_trins {td : TdState} (h : TrieInv td) {c rest : Codeword} {p : Idx}
    (hfollow : trieFollow td.tn 0 c = some (p, rest)) (hroom : td.tncnt.toNat + rest.length ≤ tnSize) (sym : Sym) :
    TrieInv (trieAllocate sym p rest td) := by
  obtain ⟨b, rest, rfl, hinner, hfree, -⟩ := trieFollow_some hfollow
  rw [List.length_cons] at hroom
  have hroom' : td.tncnt.toNat < tnSize := by omega
  have hopen := h.toOpen (trieFollow_lt (p := 0) h h.tncnt_pos hfollow) hinner
  rw [trieAllocate_cons]
  exact trieAllocate_closes sym rest (hopen.extend hfree hroom') (hopen.new_ne_zero hroom')
    (hopen.new_childless b hroom') (by rw [trieExtend_tncnt hroom']; omega)

/-- The trie invariant speaks of TN and TNCNT only. -/
theorem TrieInv.congr {td td' : TdState} (h : TrieInv td) (htn : td'.tn = td.tn) (hcnt : td'.tncnt = td.tncnt) :
    TrieInv td' := by
  obtain ⟨tn, tncnt, cur, tdst, icwcnt, drop⟩ := td'
  cases htn
  cases hcnt
  exact ⟨h.tncnt_pos, h.tncnt_le, h.unallocated, h.child_gt, h.one_parent, h.root_inner, h.leaf_childless,
    h.inner_child⟩

/-- A trie without entries and with TNCNT = 1 is a tree: the root alone (R202, R280). -/
theorem trieInv_empty (td : TdState) : TrieInv { td with tn := [], tncnt := 1 } where
  tncnt_pos := le_rfl
  tncnt_le := by simp
  unallocated := fun _ _ => rfl
  child_gt := fun p b hb => absurd (childOf_zero b) hb
  one_parent := fun i h1 hi => absurd hi (Nat.not_lt.2 h1)
  root_inner := rfl
  leaf_childless := fun p b hp => by simp at hp
  inner_child := fun p h1 hp => absurd hp (Nat.not_lt.2 h1)

/-! ## The decoder (R44 item 9) -/

/-- The decoder inside DECBYTE, with the trie `tn` and TNCNT as before it: it stands on an inner node, and the bits
already shifted out of UBYTE have left zeros below (R33, R197). -/
structure Walking (td : TdState) (s : State) : Prop where
  tn_eq : s.td.tn = td.tn
  tncnt_eq : s.td.tncnt = td.tncnt
  urem_le : s.bu.urem.toNat ≤ 8
  shifted : s.bu.ubyte.toNat % 2 ^ (8 - s.bu.urem.toNat) = 0
  not_idle : s.td.tdst ≠ .idle
  done : s.td.tdst = .done → s.td.cur = 0
  cur_lt : s.td.cur.toNat < td.tncnt.toNat
  cur_inner : (tnRead td.tn s.td.cur).leaf = false

/-- A bit taken from a cursor that holds bits leaves one bit less (R197). -/
theorem urem_pred_toNat {u : BitVec 4} (h : 0 < u.toNat) : (u - 1).toNat = u.toNat - 1 :=
  BitVec.toNat_sub_of_le (BitVec.le_def.2 h)

/-- One bit taken shifts UBYTE (R197). -/
theorem Walking.advance {td : TdState} {s : State} (h : Walking td s) (hurem : 0 < s.bu.urem.toNat) :
    Walking td (buAdvance s) := by
  have hle := h.urem_le
  have hnext := urem_pred_toNat hurem
  refine { h with urem_le := ?_, shifted := ?_ }
  · rw [buAdvance_bu, hnext]
    omega
  · have hpow : 2 ^ (8 - (s.bu.urem.toNat - 1)) = 2 ^ (8 - s.bu.urem.toNat) * 2 := by
      rw [← pow_succ]
      congr 1
      omega
    have hdvd : 2 ^ (8 - s.bu.urem.toNat) * 2 ∣ 2 ^ 8 := by
      rw [← pow_succ]
      exact pow_dvd_pow 2 (by omega)
    rw [buAdvance_bu, hnext, hpow, BitVec.toNat_shiftLeft, Nat.mod_mod_of_dvd _ hdvd, Nat.shiftLeft_eq, pow_one,
      Nat.mul_mod_mul_right, h.shifted, Nat.zero_mul]

/-- One bit walked in RUN: back to the root, or one allocated inner node down (R207). -/
theorem Walking.tdStep {td : TdState} {s : State} (htrie : TrieInv td) (h : Walking td s) (hrun : s.td.tdst = .run)
    (b : Bool) : Walking td (tdStep b s) := by
  obtain ⟨htn, htncnt, hurem, hshifted, hidle, hdone, hlt, hinner⟩ := h
  rcases tdStep_cases b s with ⟨-, hs⟩ | ⟨-, -, -, hs⟩ | ⟨-, -, -, hs⟩ | ⟨hchild, hnext, hs⟩ <;> rw [hs]
  · exact ⟨htn, htncnt, hurem, hshifted, hidle, fun _ => rfl, htrie.tncnt_pos, htrie.root_inner⟩
  · exact ⟨htn, htncnt, hurem, hshifted, nofun, fun _ => rfl, htrie.tncnt_pos, htrie.root_inner⟩
  · exact ⟨htn, htncnt, hurem, hshifted, hidle, fun _ => rfl, htrie.tncnt_pos, htrie.root_inner⟩
  · rw [htn] at hchild hnext
    refine ⟨htn, htncnt, hurem, hshifted, hidle, fun hd => ?_, ?_, ?_⟩
    · simp [hrun] at hd
    · rw [htn]
      exact (htrie.child_gt _ b hchild).2
    · rwa [htn]

theorem tdStep_bu (b : Bool) (s : State) : (tdStep b s).bu = s.bu := by
  rcases tdStep_cases b s with ⟨-, h⟩ | ⟨-, -, -, h⟩ | ⟨-, -, -, h⟩ | ⟨-, -, h⟩ <;> rw [h]

/-- The loop of DECBYTE leaves RUN or takes every loaded bit (R210). -/
theorem decodeLoop_urem (n : Nat) {s : State} (hn : s.bu.urem.toNat ≤ n) (hrun : (decodeLoop n s).td.tdst = .run) :
    (decodeLoop n s).bu.urem.toNat = 0 := by
  induction n generalizing s with
  | zero => exact Nat.le_zero.1 hn
  | succ n ih =>
    simp only [decodeLoop] at hrun ⊢
    split at hrun
    · next hmore =>
      rw [if_pos hmore]
      refine ih ?_ hrun
      rw [tdStep_bu, buAdvance_bu, urem_pred_toNat hmore.1]
      exact Nat.sub_le_of_le_add hn
    · next hstop =>
      rw [if_neg hstop]
      exact Nat.eq_zero_of_not_pos fun hpos => hstop ⟨hpos, hrun⟩

/-- A decoder inside DECBYTE that has left RUN or taken every bit stands as between commands. -/
theorem Walking.decoderInv {td : TdState} {s : State} (h : Walking td s)
    (hend : s.td.tdst = .run → s.bu.urem.toNat = 0) : DecoderInv s.td s.bu where
  urem_le := h.urem_le
  idle := fun hi => absurd hi h.not_idle
  run := fun hr => by
    have hurem := hend hr
    have hshifted := h.shifted
    have hbyte := s.bu.ubyte.isLt
    rw [hurem] at hshifted
    exact ⟨BitVec.eq_of_toNat_eq hurem, BitVec.eq_of_toNat_eq (by simp; omega)⟩
  done := h.done
  cur_lt := by rw [h.tncnt_eq]; exact h.cur_lt
  cur_inner := by rw [h.tn_eq]; exact h.cur_inner

/-- The walk of DECBYTE over a loaded byte keeps the decoder on the trie (R210). -/
theorem decoderInv_decbyte {s : State} (htrie : TrieInv s.td) (hdec : DecoderInv s.td s.bu) (hrun : s.td.tdst = .run)
    (b : Byte) : DecoderInv (decodeLoop 8 (buLoad b s)).td (decodeLoop 8 (buLoad b s)).bu := by
  have hstart : Walking s.td (buLoad b s) :=
    ⟨rfl, rfl, le_rfl, Nat.mod_one _, by simp [hrun], by simp [hrun], hdec.cur_lt, hdec.cur_inner⟩
  have hend : Walking s.td (decodeLoop 8 (buLoad b s)) :=
    decodeLoop_keeps (fun u hu hurem hphase => (hu.advance hurem).tdStep htrie hphase _) 8 hstart
  exact hend.decoderInv (decodeLoop_urem 8 le_rfl)

/-- The decoder at rest on the root of a trie, with an empty cursor, in any phase (R202, R208, R212). -/
theorem decoderInv_root {td : TdState} (htrie : TrieInv td) (hcur : td.cur = 0) :
    DecoderInv td { ubyte := 0, urem := 0 } where
  urem_le := by simp
  idle := fun _ => ⟨hcur, rfl, rfl⟩
  run := fun _ => ⟨rfl, rfl⟩
  done := fun _ => hcur
  cur_lt := by rw [hcur]; exact htrie.tncnt_pos
  cur_inner := by rw [hcur]; exact htrie.root_inner

/-- Outside RUN the decoder stands on the root. -/
theorem DecoderInv.cur_eq_zero {td : TdState} {bu : BuState} (h : DecoderInv td bu) (hphase : td.tdst ≠ .run) :
    td.cur = 0 := by
  cases hst : td.tdst with
  | idle => exact (h.idle hst).1
  | run => exact absurd hst hphase
  | done => exact h.done hst

/-- Outside RUN another trie may take the place of the old one (R202, R203). -/
theorem DecoderInv.replaceTrie {td td' : TdState} {bu : BuState} (h : DecoderInv td bu) (hphase : td.tdst ≠ .run)
    (htrie : TrieInv td') (hcur : td'.cur = td.cur) (hst : td'.tdst = td.tdst) : DecoderInv td' bu := by
  have hroot : td'.cur = 0 := hcur.trans (h.cur_eq_zero hphase)
  exact
    { urem_le := h.urem_le
      idle := fun hi => ⟨hroot, (h.idle (hst ▸ hi)).2⟩
      run := fun hr => absurd (hst ▸ hr) hphase
      done := fun _ => hroot
      cur_lt := by rw [hroot]; exact htrie.tncnt_pos
      cur_inner := by rw [hroot]; exact htrie.root_inner }

theorem decoderInv_reset : TrieInv State.reset.td ∧ DecoderInv State.reset.td State.reset.bu :=
  ⟨trieInv_empty State.reset.td, decoderInv_root (trieInv_empty State.reset.td) rfl⟩

/-- Settles O58: TRINS closes the path it opens, the walk of DECBYTE stays on inner nodes, and outside RUN the decoder
stands on the root. -/
theorem stepKeepsTheTrieAndTheDecoder : Obligations.StepKeepsTheTrieAndTheDecoder := by
  intro s t htrie hdec h
  refine step_keeps (P := fun u => TrieInv u.td ∧ DecoderInv u.td u.bu) (fun _ _ hu => hu) (fun _ => decoderInv_reset)
    (fun w u hu => by simpa using hu) (fun i u v hu he => ?_) ⟨htrie, hdec⟩ h
  obtain ⟨htrie, hdec⟩ := hu
  cases effect_of_exec he with
  | reset => exact decoderInv_reset
  | trclr hphase => exact ⟨trieInv_empty u.td, hdec.replaceTrie hphase (trieInv_empty u.td) rfl rfl⟩
  | @trins sym p rest hphase hfollow hroom =>
    obtain ⟨hcur, hst, -⟩ := trieAllocate_registers sym p rest u.td
    have htrie' := trieInv_trins htrie hfollow hroom sym
    exact ⟨htrie', hdec.replaceTrie hphase htrie' hcur hst⟩
  | decstart => exact ⟨htrie.congr rfl rfl, decoderInv_root (htrie.congr rfl rfl) rfl⟩
  | drop hphase =>
    exact ⟨htrie.congr rfl rfl, hdec.replaceTrie (by simp [hphase]) (htrie.congr rfl rfl) rfl rfl⟩
  | @decbyte b _ _ _ _ _ hphase _ hloop =>
    have hwalk := decoderInv_decbyte htrie hdec hphase b
    rw [hloop] at hwalk
    exact ⟨htrie.congr rfl rfl, hwalk⟩
  | decstop => exact ⟨htrie.congr rfl rfl, decoderInv_root (htrie.congr rfl rfl) rfl⟩
  | _ => exact ⟨by simpa using htrie, by simpa using hdec⟩

/-! ## The working set and `argmin` (R26, R145) -/

/-- The working set as a finite set. -/
def waitingSet (inq : Mem Bool) : Finset Nat := (workingSet inq).toFinset

theorem mem_waitingSet {inq : Mem Bool} {i : Nat} : i ∈ waitingSet inq ↔ i < ndSize ∧ inqRead inq i = true := by
  rw [waitingSet, List.mem_toFinset, mem_workingSet]

theorem card_waitingSet (inq : Mem Bool) : (waitingSet inq).card = (workingSet inq).length :=
  List.toFinset_card_of_nodup (workingSet_nodup inq)

theorem waitingSet_write_true (inq : Mem Bool) {i : Nat} (hi : i < ndSize) :
    waitingSet (inqWrite inq i true) = insert i (waitingSet inq) := by
  ext k
  by_cases hk : i = k
  · subst hk
    simp [mem_waitingSet, inqRead_write, hi]
  · simp [mem_waitingSet, inqRead_write, hk, Ne.symm hk]

theorem waitingSet_write_false (inq : Mem Bool) (i : Nat) :
    waitingSet (inqWrite inq i false) = (waitingSet inq).erase i := by
  ext k
  by_cases hk : i = k
  · subst hk
    simp [mem_waitingSet, inqRead_write]
  · simp [mem_waitingSet, inqRead_write, hk, Ne.symm hk]

/-- A fold that at each element takes it or keeps what it has ends with an element of the list, or the one it began
with. -/
theorem foldl_choice {f : Option Nat → Nat → Option Nat} (hf : ∀ o i, f o i = some i ∨ o ≠ none ∧ f o i = o)
    {l : List Nat} (hl : l ≠ []) (o : Option Nat) : ∃ a, l.foldl f o = some a ∧ (a ∈ l ∨ o = some a) := by
  induction l generalizing o with
  | nil => exact absurd rfl hl
  | cons i l ih =>
    obtain ⟨a, ha, hfrom⟩ : ∃ a, f o i = some a ∧ (a = i ∨ o = some a) := by
      rcases hf o i with hi | ⟨hne, ho⟩
      · exact ⟨i, hi, .inl rfl⟩
      · obtain ⟨a, rfl⟩ := Option.ne_none_iff_exists'.1 hne
        exact ⟨a, ho, .inr rfl⟩
    rw [List.foldl_cons, ha]
    by_cases hnil : l = []
    · subst hnil
      exact ⟨a, rfl, by simpa using hfrom⟩
    · obtain ⟨c, hc, hmem⟩ := ih hnil (some a)
      refine ⟨c, hc, ?_⟩
      rcases hmem with hmem | hca
      · exact .inl (List.mem_cons_of_mem i hmem)
      · cases hca
        rcases hfrom with rfl | ho
        · exact .inl List.mem_cons_self
        · exact .inr ho

/-- What `argmin` keeps after looking at one more member of the working set (R145). -/
def keepLighter (nd : Mem Node) (best : Option Nat) (i : Nat) : Option Nat :=
  match best with
  | none => some i
  | some b => if selectedBefore nd i b then some i else some b

theorem argmin_eq_foldl (tb : TbState) : argmin tb = (workingSet tb.inq).foldl (keepLighter tb.nd) none := rfl

theorem keepLighter_choice (nd : Mem Node) (best : Option Nat) (i : Nat) :
    keepLighter nd best i = some i ∨ best ≠ none ∧ keepLighter nd best i = best := by
  cases best with
  | none => exact .inl rfl
  | some b =>
    by_cases hsel : selectedBefore nd i b
    · exact .inl (if_pos hsel)
    · exact .inr ⟨nofun, if_neg hsel⟩

/-- `argmin` of a working set that is not empty is a member of it (R145). -/
theorem argmin_of_nonempty {tb : TbState} (h : (waitingSet tb.inq).Nonempty) :
    ∃ a ∈ waitingSet tb.inq, argmin tb = some a := by
  have hne : workingSet tb.inq ≠ [] := fun hnil => by simp [waitingSet, hnil] at h
  obtain ⟨a, ha, hmem⟩ := foldl_choice (keepLighter_choice tb.nd) hne none
  refine ⟨a, ?_, (argmin_eq_foldl tb).trans ha⟩
  rw [waitingSet, List.mem_toFinset]
  exact hmem.resolve_right nofun

theorem argmin_mem {tb : TbState} {a : Nat} (h : argmin tb = some a) : a ∈ waitingSet tb.inq := by
  by_cases hne : (waitingSet tb.inq).Nonempty
  · obtain ⟨c, hc, hsome⟩ := argmin_of_nonempty hne
    rw [h] at hsome
    cases hsome
    exact hc
  · have hnil : workingSet tb.inq = [] := by simpa [waitingSet] using hne
    simp [argmin, hnil] at h

/-! ## One merge (R144, R147) -/

/-- The tree builder after a merge of `a` and `b` (R144). -/
def joined (tb : TbState) (a b : Nat) : TbState :=
  { tb with
    nd := ndWrite tb.nd tb.nnode.toNat (joinNode tb.nd a b)
    inq := inqWrite (inqWrite (inqWrite tb.inq a false) b false) tb.nnode.toNat true
    nnode := tb.nnode + 1 }

/-- The weight of node `i`. -/
def weightOf (tb : TbState) (i : Nat) : Nat := (ndRead tb.nd i).weight.toNat

/-- With two nodes waiting, room in ND and a sum within 41 bits, a merge joins two waiting nodes. -/
theorem mergeStep_joins {tb : TbState} (htwo : 2 ≤ (waitingSet tb.inq).card) (hroom : tb.nnode.toNat < ndSize)
    (hsum : ∀ a ∈ waitingSet tb.inq, ∀ b ∈ (waitingSet tb.inq).erase a, weightOf tb a + weightOf tb b < 2 ^ 41) :
    ∃ a ∈ waitingSet tb.inq, ∃ b ∈ (waitingSet tb.inq).erase a, mergeStep tb = .ok (joined tb a b) := by
  obtain ⟨a, ha, hargmin⟩ := argmin_of_nonempty (Finset.card_pos.1 (by omega : 0 < (waitingSet tb.inq).card))
  have hrest : (waitingSet (inqWrite tb.inq a false)).Nonempty := by
    rw [waitingSet_write_false, ← Finset.card_pos, Finset.card_erase_of_mem ha]
    omega
  obtain ⟨b, hb, hargmin'⟩ := argmin_of_nonempty (tb := { tb with inq := inqWrite tb.inq a false }) hrest
  rw [waitingSet_write_false] at hb
  refine ⟨a, ha, b, hb, ?_⟩
  have hfits : ¬2 ^ 41 ≤ (ndRead tb.nd a).weight.toNat + (ndRead tb.nd b).weight.toNat := Nat.not_le.2 (hsum a ha b hb)
  simp only [mergeStep, hargmin, hargmin', placeJoin, if_neg (Nat.not_le.2 hroom), if_neg hfits]
  rfl

/-! ## The loop of BUILD (R146) -/

/-- Node `j` joins two different older nodes and weighs what they weigh (R44 item 3). -/
def IsJoin (tb : TbState) (j : Nat) : Prop :=
  (ndRead tb.nd j).leaf = false ∧ (ndRead tb.nd j).sym = 0 ∧
    (ndRead tb.nd j).left.toNat < j ∧ (ndRead tb.nd j).right.toNat < j ∧
    (ndRead tb.nd j).left ≠ (ndRead tb.nd j).right ∧
    weightOf tb j = weightOf tb (ndRead tb.nd j).left.toNat + weightOf tb (ndRead tb.nd j).right.toNat

/-- The sum of all loaded counts. -/
def loadedWeight (tb : TbState) : Nat := ((List.range tb.nsym.toNat).map (weightOf tb)).sum

/-- The tree builder between two merges of BUILD on the loaded table `tb0`: a forest whose roots are the waiting nodes,
the newest node among them. -/
structure Merging (tb0 tb : TbState) : Prop where
  seen_eq : tb.seen = tb0.seen
  nsym_eq : tb.nsym = tb0.nsym
  leaf_eq : ∀ i < tb0.nsym.toNat, ndRead tb.nd i = ndRead tb0.nd i
  nsym_le : tb0.nsym.toNat ≤ tb.nnode.toNat
  unallocated : ∀ i, tb.nnode.toNat ≤ i → ndRead tb.nd i = Node.zero
  internal : ∀ j, tb0.nsym.toNat ≤ j → j < tb.nnode.toNat → IsJoin tb j
  children : ∀ i, (ndChildren tb).count i = if i < tb.nnode.toNat ∧ inqRead tb.inq i = false then 1 else 0
  waiting_lt : ∀ i ∈ waitingSet tb.inq, i < tb.nnode.toNat
  newest : tb.nnode.toNat - 1 ∈ waitingSet tb.inq
  size : (waitingSet tb.inq).card + tb.nnode.toNat = 2 * tb0.nsym.toNat
  weight : ∑ i ∈ waitingSet tb.inq, weightOf tb i = loadedWeight tb0

/-- Before the first merge every leaf waits and no node has a child. -/
theorem Merging.start {tb : TbState} (h : TbLeaves tb) (hopen : TbOpen tb) (hpos : 1 ≤ tb.nsym.toNat) :
    Merging tb tb := by
  have hle := h.nsym_le
  have hset : waitingSet tb.inq = Finset.range tb.nsym.toNat := by
    ext i
    rw [mem_waitingSet, Finset.mem_range]
    constructor
    · rintro ⟨hi, hq⟩
      exact (hopen.inq_iff i hi).1 hq
    · intro hi
      have hi' : i < ndSize := hi.trans_le (hle.trans (by decide))
      exact ⟨hi', (hopen.inq_iff i hi').2 hi⟩
  have hnone : ndChildren tb = [] := by
    rw [ndChildren, hopen.nnode_eq, List.flatMap_eq_nil_iff]
    intro j hj
    rw [if_pos (h.leaf_entry j (List.mem_range.1 hj)).1]
  refine
    { seen_eq := rfl
      nsym_eq := rfl
      leaf_eq := fun _ _ => rfl
      nsym_le := hopen.nnode_eq.ge
      unallocated := h.unallocated
      internal := fun j h1 h2 => ?_
      children := fun i => ?_
      waiting_lt := fun i hi => ?_
      newest := ?_
      size := ?_
      weight := ?_ }
  · rw [hopen.nnode_eq] at h2
    exact absurd h2 (Nat.not_lt.2 h1)
  · rw [hnone, List.count_nil, if_neg]
    rintro ⟨hi, hq⟩
    rw [hopen.nnode_eq] at hi
    rw [(hopen.inq_iff i (hi.trans_le (hle.trans (by decide)))).2 hi] at hq
    cases hq
  · rw [hset, Finset.mem_range] at hi
    rwa [hopen.nnode_eq]
  · rw [hset, Finset.mem_range, hopen.nnode_eq]
    omega
  · rw [hset, Finset.card_range, hopen.nnode_eq]
    omega
  · rw [hset]
    rfl

section
variable {tb : TbState} {a b : Nat}

theorem ndRead_joined (i : Nat) :
    ndRead (joined tb a b).nd i = if tb.nnode.toNat = i then joinNode tb.nd a b else ndRead tb.nd i := ndRead_write ..

theorem inqRead_joined (i : Nat) :
    inqRead (joined tb a b).inq i =
      if tb.nnode.toNat = i then true else if b = i then false else if a = i then false else inqRead tb.inq i := by
  simp only [joined, inqRead_write]

theorem joined_nnode (hroom : tb.nnode.toNat < ndSize) : (joined tb a b).nnode.toNat = tb.nnode.toNat + 1 := by
  have hnnode : (joined tb a b).nnode = tb.nnode + 1 := rfl
  rw [hnnode, BitVec.toNat_add]
  exact Nat.mod_eq_of_lt (Nat.lt_of_le_of_lt (Nat.succ_le_of_lt hroom) (by decide))

theorem waitingSet_joined (hroom : tb.nnode.toNat < ndSize) :
    waitingSet (joined tb a b).inq = insert tb.nnode.toNat (((waitingSet tb.inq).erase a).erase b) := by
  simp only [joined, waitingSet_write_true _ hroom, waitingSet_write_false]

theorem joinNode_weight (hsum : weightOf tb a + weightOf tb b < 2 ^ 41) :
    (joinNode tb.nd a b).weight.toNat = weightOf tb a + weightOf tb b := by
  rw [joinNode, BitVec.toNat_add]
  exact Nat.mod_eq_of_lt hsum

/-- A pointer to a node of ND holds its index. -/
theorem idx_toNat {i : Nat} (hi : i < ndSize) : (BitVec.ofNat 10 i).toNat = i :=
  (BitVec.toNat_ofNat i 10).trans (Nat.mod_eq_of_lt (hi.trans (by decide)))

theorem weightOf_joined_of_lt {i : Nat} (hi : i < tb.nnode.toNat) : weightOf (joined tb a b) i = weightOf tb i := by
  rw [weightOf, ndRead_joined, if_neg hi.ne', weightOf]

/-- A merge of two different older nodes makes the newest node their join. -/
theorem isJoin_joined_new (hroom : tb.nnode.toNat < ndSize) (ha : a < tb.nnode.toNat) (hb : b < tb.nnode.toNat)
    (hab : b ≠ a) (hsum : weightOf tb a + weightOf tb b < 2 ^ 41) : IsJoin (joined tb a b) tb.nnode.toNat := by
  have hleft : (joinNode tb.nd a b).left.toNat = a := idx_toNat (ha.trans hroom)
  have hright : (joinNode tb.nd a b).right.toNat = b := idx_toNat (hb.trans hroom)
  rw [IsJoin, weightOf, ndRead_joined, if_pos rfl, hleft, hright, weightOf_joined_of_lt ha, weightOf_joined_of_lt hb,
    joinNode_weight hsum]
  exact ⟨rfl, rfl, ha, hb, fun h => hab (hright.symm.trans ((congrArg BitVec.toNat h).symm.trans hleft)), rfl⟩

/-- A merge leaves the older joins alone. -/
theorem isJoin_joined_old {j : Nat} (hj : j < tb.nnode.toNat) (h : IsJoin tb j) : IsJoin (joined tb a b) j := by
  obtain ⟨hleaf, hsym, hleft, hright, hne, hweight⟩ := h
  rw [IsJoin, weightOf_joined_of_lt hj, ndRead_joined, if_neg hj.ne', weightOf_joined_of_lt (hleft.trans hj),
    weightOf_joined_of_lt (hright.trans hj)]
  exact ⟨hleaf, hsym, hleft, hright, hne, hweight⟩

/-- A merge adds its two nodes to the children. -/
theorem ndChildren_joined (hroom : tb.nnode.toNat < ndSize) (ha : a < tb.nnode.toNat) (hb : b < tb.nnode.toNat) :
    ndChildren (joined tb a b) = ndChildren tb ++ [a, b] := by
  rw [ndChildren, joined_nnode hroom, List.range_succ, List.flatMap_append, List.flatMap_singleton, ndRead_joined,
    if_pos rfl, ndChildren]
  congr 1
  · refine List.flatMap_congr fun j hj => ?_
    rw [ndRead_joined, if_neg (List.mem_range.1 hj).ne']
  · have hleft : (joinNode tb.nd a b).left.toNat = a := idx_toNat (ha.trans hroom)
    have hright : (joinNode tb.nd a b).right.toNat = b := idx_toNat (hb.trans hroom)
    rw [hleft, hright]
    rfl

end

/-- The sum over a finite set is that of two members and that of the rest. -/
theorem sum_erase_erase {W : Finset Nat} {a b : Nat} (ha : a ∈ W) (hb : b ∈ W.erase a) (f : Nat → Nat) :
    f a + f b + ∑ i ∈ (W.erase a).erase b, f i = ∑ i ∈ W, f i := by
  rw [← Finset.add_sum_erase W f ha, ← Finset.add_sum_erase (W.erase a) f hb, Nat.add_assoc]

/-- After a merge each node that does not wait is a child once: the two joined nodes newly, the newest node not. -/
theorem Merging.children_joined {tb0 tb : TbState} (h : Merging tb0 tb) {a b : Nat} (ha : a ∈ waitingSet tb.inq)
    (hb : b ∈ waitingSet tb.inq) (hab : b ≠ a) (hroom : tb.nnode.toNat < ndSize) (i : Nat) :
    (ndChildren (joined tb a b)).count i =
      if i < (joined tb a b).nnode.toNat ∧ inqRead (joined tb a b).inq i = false then 1 else 0 := by
  have halt := h.waiting_lt a ha
  have hblt := h.waiting_lt b hb
  obtain ⟨-, haq⟩ := mem_waitingSet.1 ha
  obtain ⟨-, hbq⟩ := mem_waitingSet.1 hb
  rw [ndChildren_joined hroom halt hblt, List.count_append, h.children, joined_nnode hroom, inqRead_joined]
  by_cases hia : a = i
  · subst hia
    simp [haq, hab, halt.ne', Nat.lt_succ_of_lt halt]
  by_cases hib : b = i
  · subst hib
    simp [hbq, hab.symm, hblt.ne', Nat.lt_succ_of_lt hblt]
  by_cases hin : tb.nnode.toNat = i
  · simp [hin, hia, hib]
  · have hlt : i < tb.nnode.toNat + 1 ↔ i < tb.nnode.toNat := by omega
    simp [hia, hib, hin, hlt]

/-- A merge of two waiting nodes keeps the forest (R144, R149). -/
theorem Merging.join {tb0 tb : TbState} (h : Merging tb0 tb) {a b : Nat} (ha : a ∈ waitingSet tb.inq)
    (hb : b ∈ (waitingSet tb.inq).erase a) (hroom : tb.nnode.toNat < ndSize)
    (hsum : weightOf tb a + weightOf tb b < 2 ^ 41) : Merging tb0 (joined tb a b) := by
  obtain ⟨hab, hb'⟩ := Finset.mem_erase.1 hb
  have halt := h.waiting_lt a ha
  have hblt := h.waiting_lt b hb'
  have hnnode := joined_nnode (a := a) (b := b) hroom
  have hset := waitingSet_joined (a := a) (b := b) hroom
  have hfresh : tb.nnode.toNat ∉ ((waitingSet tb.inq).erase a).erase b := fun hmem =>
    absurd (h.waiting_lt _ (Finset.mem_of_mem_erase (Finset.mem_of_mem_erase hmem))) (Nat.lt_irrefl _)
  refine
    { seen_eq := h.seen_eq
      nsym_eq := h.nsym_eq
      leaf_eq := fun i hi => ?_
      nsym_le := by rw [hnnode]; exact h.nsym_le.trans (Nat.le_succ _)
      unallocated := fun i hi => ?_
      internal := fun j h1 h2 => ?_
      children := h.children_joined ha hb' hab hroom
      waiting_lt := fun i hi => ?_
      newest := by rw [hset, hnnode]; exact Finset.mem_insert_self _ _
      size := ?_
      weight := ?_ }
  · rw [ndRead_joined, if_neg (hi.trans_le h.nsym_le).ne']
    exact h.leaf_eq i hi
  · rw [hnnode] at hi
    rw [ndRead_joined, if_neg (Nat.ne_of_lt hi)]
    exact h.unallocated i (Nat.le_of_succ_le hi)
  · rw [hnnode] at h2
    rcases Nat.lt_succ_iff_lt_or_eq.1 h2 with h2 | rfl
    · exact isJoin_joined_old h2 (h.internal j h1 h2)
    · exact isJoin_joined_new hroom halt hblt hab hsum
  · rw [hset, Finset.mem_insert] at hi
    rw [hnnode]
    rcases hi with rfl | hi
    · exact Nat.lt_succ_self _
    · exact (h.waiting_lt i (Finset.mem_of_mem_erase (Finset.mem_of_mem_erase hi))).trans (Nat.lt_succ_self _)
  · have hsize := h.size
    have htwo := Finset.card_pos.2 ⟨b, hb⟩
    rw [Finset.card_erase_of_mem ha] at htwo
    rw [hset, Finset.card_insert_of_notMem hfresh, Finset.card_erase_of_mem hb, Finset.card_erase_of_mem ha, hnnode]
    omega
  · have hold : ∑ i ∈ ((waitingSet tb.inq).erase a).erase b, weightOf (joined tb a b) i =
        ∑ i ∈ ((waitingSet tb.inq).erase a).erase b, weightOf tb i := Finset.sum_congr rfl fun i hi =>
      weightOf_joined_of_lt (h.waiting_lt i (Finset.mem_of_mem_erase (Finset.mem_of_mem_erase hi)))
    rw [hset, Finset.sum_insert hfresh, hold, weightOf, ndRead_joined, if_pos rfl, joinNode_weight hsum,
      sum_erase_erase ha hb, h.weight]

/-- The counts of a legal table add up to a weight (R5, R149). -/
theorem loadedWeight_lt {tb : TbState} (h : TbLeaves tb) : loadedWeight tb < 2 ^ 41 := by
  have hle := h.nsym_le
  have hsum : loadedWeight tb ≤ tb.nsym.toNat * (2 ^ 32 - 1) := by
    have hcard := List.sum_le_card_nsmul ((List.range tb.nsym.toNat).map (weightOf tb)) (2 ^ 32 - 1) fun w hw => by
      obtain ⟨i, hi, rfl⟩ := List.mem_map.1 hw
      obtain ⟨-, -, -, -, -, hcount⟩ := h.leaf_entry i (List.mem_range.1 hi)
      exact hcount
    simpa [loadedWeight] using hcard
  calc loadedWeight tb ≤ tb.nsym.toNat * (2 ^ 32 - 1) := hsum
    _ ≤ nsymMax * (2 ^ 32 - 1) := Nat.mul_le_mul_right _ hle
    _ < 2 ^ 41 := by decide

/-- While two nodes wait, BUILD can merge (R144, R149). -/
theorem Merging.mergeStep {tb0 tb : TbState} (h : Merging tb0 tb) (hleaves : TbLeaves tb0)
    (htwo : 2 ≤ (waitingSet tb.inq).card) :
    ∃ tb', mergeStep tb = .ok tb' ∧ Merging tb0 tb' ∧ tb'.nnode.toNat = tb.nnode.toNat + 1 := by
  have hle := hleaves.nsym_le
  have hsize := h.size
  have hroom : tb.nnode.toNat < ndSize := by simp only [nsymMax, ndSize] at *; omega
  have hsum : ∀ a ∈ waitingSet tb.inq, ∀ b ∈ (waitingSet tb.inq).erase a, weightOf tb a + weightOf tb b < 2 ^ 41 := by
    intro a ha b hb
    calc weightOf tb a + weightOf tb b ≤ loadedWeight tb0 := by
          rw [← h.weight, ← sum_erase_erase ha hb]
          exact Nat.le_add_right _ _
      _ < 2 ^ 41 := loadedWeight_lt hleaves
  obtain ⟨a, ha, b, hb, hstep⟩ := mergeStep_joins htwo hroom hsum
  exact ⟨_, hstep, h.join ha hb hroom (hsum a ha b hb), joined_nnode hroom⟩

/-- The loop of BUILD ends with one waiting node (R146). -/
theorem Merging.mergeLoop {tb0 : TbState} (hleaves : TbLeaves tb0) (n : Nat) {tb : TbState} (h : Merging tb0 tb)
    (hn : (waitingSet tb.inq).card ≤ n + 1) :
    ∃ tb', mergeLoop n tb = .ok tb' ∧ Merging tb0 tb' ∧ (waitingSet tb'.inq).card ≤ 1 := by
  induction n generalizing tb with
  | zero => exact ⟨tb, rfl, h, hn⟩
  | succ n ih =>
    by_cases htwo : 2 ≤ (waitingSet tb.inq).card
    · obtain ⟨tb1, hstep, hmerging, hnnode⟩ := h.mergeStep hleaves htwo
      have hsize := h.size
      have hsize1 := hmerging.size
      obtain ⟨tb', hloop, hrest⟩ := ih hmerging (by omega)
      refine ⟨tb', ?_, hrest⟩
      rw [card_waitingSet] at htwo
      simp only [Machine.mergeLoop, if_pos htwo, hstep, hloop]
    · refine ⟨tb, ?_, h, by omega⟩
      rw [card_waitingSet] at htwo
      simp only [Machine.mergeLoop, if_neg htwo]

/-- The leaves of a table that is only merged stay as they were loaded. -/
theorem Merging.leaves {tb0 tb : TbState} (h : Merging tb0 tb) (hleaves : TbLeaves tb0) : TbLeaves tb := by
  have hnsym := h.nsym_eq
  refine ⟨hnsym ▸ hleaves.nsym_le, fun i hi => ?_, fun i hi j hj hsym => ?_, fun sym => ?_, h.unallocated⟩
  · rw [hnsym] at hi
    rw [h.leaf_eq i hi]
    exact hleaves.leaf_entry i hi
  · rw [hnsym] at hi hj
    rw [h.leaf_eq i hi, h.leaf_eq j hj] at hsym
    exact hleaves.sym_inj i hi j hj hsym
  · rw [h.seen_eq, hleaves.seen_iff, hnsym]
    refine exists_congr fun i => and_congr_right fun hi => ?_
    rw [h.leaf_eq i hi]

/-- One waiting node is the root of the whole tree, and BUILD's last writes say so (R44 item 3, R146). -/
theorem Merging.finish {tb0 tb : TbState} (h : Merging tb0 tb) (hleaves : TbLeaves tb0) (hpos : 1 ≤ tb0.nsym.toNat)
    (hone : (waitingSet tb.inq).card ≤ 1) {r : Nat} (hr : r ∈ waitingSet tb.inq) :
    TbInv { tb with root := BitVec.ofNat 10 r, built := true } ∧ weightOf tb r = loadedWeight tb0 := by
  have hsingle : waitingSet tb.inq = {r} := Finset.eq_singleton_iff_unique_mem.2
    ⟨hr, fun i hi => Finset.card_le_one.1 hone i hi r hr⟩
  have hnewest := h.newest
  rw [hsingle, Finset.mem_singleton] at hnewest
  have hrlt := h.waiting_lt r hr
  have hsize := h.size
  rw [hsingle, Finset.card_singleton] at hsize
  have hnodes : tb.nnode.toNat + 1 = 2 * tb.nsym.toNat := by rw [h.nsym_eq]; omega
  have hrnd : r < ndSize := (mem_waitingSet.1 hr).1
  have hroot : (BitVec.ofNat 10 r).toNat = r := idx_toNat hrnd
  have hinq : ∀ i < ndSize, inqRead tb.inq i = true ↔ i = r := fun i hi => by
    have hmem := mem_waitingSet (inq := tb.inq) (i := i)
    rw [hsingle, Finset.mem_singleton] at hmem
    exact (hmem.trans (and_iff_right hi)).symm
  refine ⟨⟨?_, nofun, fun _ => ?_⟩, by rw [← h.weight, hsingle, Finset.sum_singleton]⟩
  · obtain ⟨h1, h2, h3, h4, h5⟩ := h.leaves hleaves
    exact ⟨h1, h2, h3, h4, h5⟩
  · refine
      { nsym_pos := by rw [h.nsym_eq]; exact hpos
        nnode_eq := hnodes
        root_eq := by rw [hroot, ← hnewest]; exact Nat.succ_pred_eq_of_pos (Nat.zero_lt_of_lt hrlt)
        inq_iff := by rw [hroot]; exact hinq
        internal := fun j h1 h2 => h.internal j (h.nsym_eq ▸ h1) h2
        one_parent := fun i hi hne => ?_ }
    rw [hroot] at hne
    have hq : inqRead tb.inq i = false := by
      rw [← Bool.not_eq_true, hinq i (hi.trans_le (by simp only [ndSize] at *; omega))]
      exact hne
    exact (h.children i).trans (if_pos ⟨hi, hq⟩)

/-- BUILD of a loaded table answers one whole tree over its leaves (R146). -/
theorem buildTree_makes_tree {tb : TbState} (h : TbInv tb) (hopen : tb.built = false) (hpos : 1 ≤ tb.nsym.toNat) :
    ∃ tb', buildTree tb = .ok tb' ∧ TbInv tb' ∧ tb'.built = true ∧
      (∀ i < tb.nsym.toNat, ndRead tb'.nd i = ndRead tb.nd i) ∧
      weightOf tb' tb'.root.toNat = loadedWeight tb := by
  have hstart := Merging.start h.leaves (h.before hopen) hpos
  obtain ⟨tb1, hloop, hmerged, hone⟩ := Merging.mergeLoop h.leaves (workingSet tb.inq).length hstart
    (by rw [card_waitingSet]; exact Nat.le_succ _)
  obtain ⟨r, hr, hargmin⟩ := argmin_of_nonempty ⟨_, hmerged.newest⟩
  obtain ⟨hinv, hweight⟩ := hmerged.finish h.leaves hpos hone hr
  refine ⟨_, ?_, hinv, rfl, hmerged.leaf_eq, ?_⟩
  · simp only [buildTree, hloop, hargmin]
  · rw [← hweight, idx_toNat (mem_waitingSet.1 hr).1]
    rfl

/-- Settles O31: the merges keep a forest whose roots are the waiting nodes, and BUILD ends with one of them. -/
theorem buildMakesOneTree : Obligations.BuildMakesOneTree := by
  intro s h hfatal hopen hpos
  obtain ⟨tb, hbuild, hinv, hbuilt, hleaf, hweight⟩ := buildTree_makes_tree h hopen hpos
  obtain ⟨hseen, hnsym⟩ := buildTree_frame hbuild
  have hne : s.tb.nsym ≠ 0 := fun h0 => by simp [h0] at hpos
  have hexec : exec .build s = .next { s with tb := tb } := by
    refine (classW_run (i := .build) rfl hfatal _).trans ?_
    simp only [hopen, hne, hbuild, withTb, Bool.false_eq_true, if_false]
  exact ⟨_, hexec, rfl, hinv, hbuilt, hnsym, hseen, hleaf, hweight⟩

/-! ## LDSYM (R142) -/

/-- A symbol not seen leaves room for one more leaf: no more than 257 symbols are legal (R5). -/
theorem nsym_lt_of_unseen {tb : TbState} (h : TbLeaves tb) {sym : Sym} (hsym : sym.toNat ≤ 256)
    (hnew : seenRead tb.seen sym = false) : tb.nsym.toNat < nsymMax := by
  have hmaps : ∀ i ∈ Finset.range tb.nsym.toNat, (ndRead tb.nd i).sym.toNat ∈ (Finset.range 257).erase sym.toNat := by
    intro i hi
    have hi' := Finset.mem_range.1 hi
    obtain ⟨-, hle, -⟩ := h.leaf_entry i hi'
    refine Finset.mem_erase.2 ⟨fun heq => ?_, Finset.mem_range.2 (Nat.lt_succ_of_le hle)⟩
    rw [(h.seen_iff sym).2 ⟨i, hi', BitVec.eq_of_toNat_eq heq⟩] at hnew
    cases hnew
  have hcard := Finset.card_le_card_of_injOn _ hmaps fun i hi j hj hij =>
    h.sym_inj i (Finset.mem_range.1 hi) j (Finset.mem_range.1 hj) (BitVec.eq_of_toNat_eq hij)
  rw [Finset.card_range, Finset.card_erase_of_mem (Finset.mem_range.2 (by omega)), Finset.card_range] at hcard
  exact Nat.lt_succ_of_le hcard

/-- The leaf that LDSYM makes (R142). -/
def newLeaf (sym : Sym) (cnt : Count) : Node :=
  { leaf := true, sym := sym, left := 0, right := 0, weight := countWeight cnt }

section
variable {sym : Sym} {cnt : Count} {tb tb' : TbState} (hload : loadLeaf sym cnt tb = .ok tb')
include hload

theorem loadLeaf_nsym : tb'.nsym.toNat = tb.nsym.toNat + 1 := by
  obtain ⟨hroom, -, rfl⟩ := loadLeaf_ok hload
  exact (BitVec.toNat_add ..).trans (Nat.mod_eq_of_lt (Nat.lt_succ_of_le hroom))

theorem loadLeaf_nnode : tb'.nnode.toNat = tb.nnode.toNat + 1 := by
  obtain ⟨-, hroom, rfl⟩ := loadLeaf_ok hload
  exact (BitVec.toNat_add ..).trans (Nat.mod_eq_of_lt (Nat.lt_succ_of_le hroom))

theorem ndRead_loadLeaf_new : ndRead tb'.nd tb.nsym.toNat = newLeaf sym cnt := by
  obtain ⟨-, -, rfl⟩ := loadLeaf_ok hload
  rw [ndRead_write, if_pos rfl, newLeaf]

theorem ndRead_loadLeaf_other {i : Nat} (hi : i ≠ tb.nsym.toNat) : ndRead tb'.nd i = ndRead tb.nd i := by
  obtain ⟨-, -, rfl⟩ := loadLeaf_ok hload
  rw [ndRead_write, if_neg hi.symm]

theorem inqRead_loadLeaf (i : Nat) : inqRead tb'.inq i = if tb.nsym.toNat = i then true else inqRead tb.inq i := by
  obtain ⟨-, -, rfl⟩ := loadLeaf_ok hload
  rw [inqRead_write]

theorem seenRead_loadLeaf (y : Sym) : seenRead tb'.seen y = if sym = y then true else seenRead tb.seen y := by
  obtain ⟨-, -, rfl⟩ := loadLeaf_ok hload
  rw [seenRead_write]

/-- An index below the new NSYM is that of an old leaf, which stays, or that of the new leaf. -/
theorem leaf_cases_loadLeaf {i : Nat} (hi : i < tb'.nsym.toNat) :
    (i < tb.nsym.toNat ∧ ndRead tb'.nd i = ndRead tb.nd i) ∨
      (i = tb.nsym.toNat ∧ ndRead tb'.nd i = newLeaf sym cnt) := by
  rw [loadLeaf_nsym hload] at hi
  rcases Nat.lt_succ_iff_lt_or_eq.1 hi with hi | rfl
  · exact .inl ⟨hi, ndRead_loadLeaf_other hload hi.ne⟩
  · exact .inr ⟨rfl, ndRead_loadLeaf_new hload⟩

/-- SEEN names the new symbol beside the old ones (R27, R142). -/
theorem seen_iff_loadLeaf (h : TbLeaves tb) (y : Sym) :
    seenRead tb'.seen y = true ↔ ∃ i < tb'.nsym.toNat, (ndRead tb'.nd i).sym = y := by
  have hnsym := loadLeaf_nsym hload
  rw [seenRead_loadLeaf hload]
  by_cases hy : sym = y
  · subst hy
    rw [if_pos rfl]
    exact ⟨fun _ => ⟨tb.nsym.toNat, by omega, by rw [ndRead_loadLeaf_new hload]; rfl⟩, fun _ => rfl⟩
  · rw [if_neg hy, h.seen_iff]
    constructor
    · rintro ⟨i, hi, hs⟩
      exact ⟨i, by omega, by rwa [ndRead_loadLeaf_other hload hi.ne]⟩
    · rintro ⟨i, hi, hs⟩
      rcases leaf_cases_loadLeaf hload hi with ⟨hi, hold⟩ | ⟨-, hnew⟩
      · exact ⟨i, hi, by rwa [hold] at hs⟩
      · rw [hnew] at hs
        exact absurd hs hy

/-- A new symbol with a count keeps the leaves in order (R44 items 1, 2 and 4). -/
theorem tbLeaves_loadLeaf (h : TbLeaves tb) (hnnode : tb.nnode.toNat = tb.nsym.toNat) (hsym : sym.toNat ≤ 256)
    (hcnt : cnt ≠ 0) (hunseen : seenRead tb.seen sym = false) : TbLeaves tb' := by
  have hother : ∀ i < tb.nsym.toNat, (ndRead tb.nd i).sym ≠ sym := fun i hi hs => by
    rw [(h.seen_iff sym).2 ⟨i, hi, hs⟩] at hunseen
    cases hunseen
  refine ⟨?_, fun i hi => ?_, fun i hi j hj hij => ?_, seen_iff_loadLeaf hload h, fun i hi => ?_⟩
  · rw [loadLeaf_nsym hload]
    exact nsym_lt_of_unseen h hsym hunseen
  · rcases leaf_cases_loadLeaf hload hi with ⟨hi, hold⟩ | ⟨-, hnew⟩
    · rw [hold]
      exact h.leaf_entry i hi
    · have hpos : cnt.toNat ≠ 0 := fun h0 => hcnt (BitVec.eq_of_toNat_eq h0)
      have hmax := cnt.isLt
      rw [hnew, newLeaf, countWeight_toNat]
      exact ⟨rfl, hsym, rfl, rfl, by omega, by omega⟩
  · rcases leaf_cases_loadLeaf hload hi with ⟨hi, hi'⟩ | ⟨rfl, hi'⟩ <;>
      rcases leaf_cases_loadLeaf hload hj with ⟨hj, hj'⟩ | ⟨rfl, hj'⟩
    · rw [hi', hj'] at hij
      exact h.sym_inj i hi j hj hij
    · rw [hi', hj'] at hij
      exact absurd hij (hother i hi)
    · rw [hi', hj'] at hij
      exact absurd hij.symm (hother j hj)
    · rfl
  · rw [loadLeaf_nnode hload] at hi
    rw [ndRead_loadLeaf_other hload (by omega)]
    exact h.unallocated i (by omega)

/-- LDSYM leaves a table before BUILD, with the new leaf waiting (R44 item 1). -/
theorem tbOpen_loadLeaf (h : TbOpen tb) : TbOpen tb' := by
  refine ⟨?_, (loadLeaf_frame hload).1.trans h.root_eq, fun i hi => ?_⟩
  · rw [loadLeaf_nnode hload, loadLeaf_nsym hload, h.nnode_eq]
  · rw [inqRead_loadLeaf hload, loadLeaf_nsym hload]
    by_cases hlast : tb.nsym.toNat = i
    · simp [hlast]
    · rw [if_neg hlast, h.inq_iff i hi]
      omega

/-- LDSYM of a new symbol keeps the loaded table (R142). -/
theorem tbInv_loadLeaf (h : TbInv tb) (hopen : tb.built = false) (hsym : sym.toNat ≤ 256) (hcnt : cnt ≠ 0)
    (hunseen : seenRead tb.seen sym = false) : TbInv tb' where
  leaves := tbLeaves_loadLeaf hload h.leaves (h.before hopen).nnode_eq hsym hcnt hunseen
  before := fun _ => tbOpen_loadLeaf hload (h.before hopen)
  after := fun hbuilt => by
    rw [(loadLeaf_frame hload).2, hopen] at hbuilt
    cases hbuilt

end

/-! ## The invariant of the tree builder (R44 items 1 to 4) -/

/-- The empty tree builder is a loaded table of no symbols. -/
theorem tbInv_cleared : TbInv tbCleared where
  leaves :=
    { nsym_le := by simp [tbCleared]
      leaf_entry := fun i hi => absurd hi (Nat.not_lt_zero i)
      sym_inj := fun i hi => absurd hi (Nat.not_lt_zero i)
      seen_iff := fun sym => ⟨nofun, fun ⟨i, hi, _⟩ => absurd hi (Nat.not_lt_zero i)⟩
      unallocated := fun _ _ => rfl }
  before := fun _ => ⟨rfl, rfl, fun i _ => ⟨nofun, fun hi => absurd hi (Nat.not_lt_zero i)⟩⟩
  after := nofun

/-- Settles O59: LDSYM keeps a loaded table, BUILD makes a whole tree of it, TBCLR and resets empty it. -/
theorem stepKeepsTheTreeBuilder : Obligations.StepKeepsTheTreeBuilder := by
  intro s t hs h
  refine step_keeps (P := fun u => TbInv u.tb) (fun _ _ hu => hu) (fun _ => tbInv_cleared)
    (fun w u hu => by simpa using hu) (fun i u v hu he => ?_) hs h
  cases effect_of_exec he with
  | reset => exact tbInv_cleared
  | tbclr => exact tbInv_cleared
  | ldsym hsym hopen hcnt hnew hload => exact tbInv_loadLeaf hload hu hopen (by simpa [symLegal] using hsym) hcnt hnew
  | build hopen hpos hbuild =>
    obtain ⟨tb, hbuild', hinv, -⟩ := buildTree_makes_tree hu hopen hpos
    cases hbuild.symm.trans hbuild'
    exact hinv
  | _ => simpa using hu

/-! ## The canonical form of the index spaces (log 5) -/

/-- The canonical form of the tree builder's index spaces. -/
structure TbMem (tb : TbState) : Prop where
  nd : memWf Node.zero ndSize tb.nd
  inq : memWf false ndSize tb.inq
  seen : memWf false nsymMax tb.seen

theorem memWf_ndWrite {m : Mem Node} (h : memWf Node.zero ndSize m) {i : Nat} (hi : i < ndSize) (v : Node) :
    memWf Node.zero ndSize (ndWrite m i v) := memWf_memWrite h hi v

theorem memWf_inqWrite {m : Mem Bool} (h : memWf false ndSize m) {i : Nat} (hi : i < ndSize) (v : Bool) :
    memWf false ndSize (inqWrite m i v) := memWf_memWrite h hi v

theorem memWf_seenWrite {m : Mem Bool} (h : memWf false nsymMax m) {sym : Sym} (hsym : symLegal sym = true) (v : Bool) :
    memWf false nsymMax (seenWrite m sym v) :=
  memWf_memWrite h (Nat.lt_succ_of_le (by simpa [symLegal] using hsym)) v

theorem tbMem_loadLeaf {sym : Sym} {cnt : Count} {tb tb' : TbState} (h : TbMem tb) (hsym : symLegal sym = true)
    (hload : loadLeaf sym cnt tb = .ok tb') : TbMem tb' := by
  obtain ⟨hroom, -, rfl⟩ := loadLeaf_ok hload
  have hidx : tb.nsym.toNat < ndSize := hroom.trans (by decide)
  exact ⟨memWf_ndWrite h.nd hidx (newLeaf sym cnt), memWf_inqWrite h.inq hidx true, memWf_seenWrite h.seen hsym true⟩

theorem tbMem_mergeStep {tb tb' : TbState} (h : TbMem tb) (hstep : mergeStep tb = .ok tb') : TbMem tb' := by
  obtain ⟨a, b, ha, hb, hplace⟩ := mergeStep_ok hstep
  obtain ⟨hroom, -, rfl⟩ := placeJoin_ok hplace
  obtain ⟨ha', -⟩ := mem_waitingSet.1 (argmin_mem ha)
  obtain ⟨hb', -⟩ := mem_waitingSet.1 (argmin_mem hb)
  have hinq := memWf_inqWrite (memWf_inqWrite (memWf_inqWrite h.inq ha' false) hb' false) hroom true
  exact ⟨memWf_ndWrite h.nd hroom _, hinq, h.seen⟩

theorem tbMem_buildTree {tb tb' : TbState} (h : TbMem tb) (hbuild : buildTree tb = .ok tb') : TbMem tb' := by
  obtain ⟨tb1, r, hloop, -, rfl⟩ := buildTree_ok hbuild
  obtain ⟨hnd, hinq, hseen⟩ := mergeLoop_keeps (P := TbMem) (fun _ _ => tbMem_mergeStep) h hloop
  exact ⟨hnd, hinq, hseen⟩

theorem memWf_assignCodes {nd : Mem Node} {root : Idx} {ct : Mem (Option Codeword)} (h : assignCodes nd root = .ok ct) :
    memWf none nsymMax ct := by
  obtain ⟨pairs, -, hwrite⟩ := assignCodes_ok h
  exact writeCodes_keeps (P := memWf none nsymMax) (fun _ _ _ hct hsym => memWf_ctWrite hct hsym _) memWf_nil hwrite

theorem memWf_trieAllocate (sym : Sym) (c : Codeword) {p : Idx} {td : TdState}
    (h : memWf TrieNode.zero tnSize td.tn) : memWf TrieNode.zero tnSize (trieAllocate sym p c td).tn := by
  induction c generalizing p td with
  | nil => exact memWf_tnWrite h p _
  | cons b c ih => exact ih (memWf_tnWrite h p _)

theorem memInv_reset : MemInv State.reset := ⟨memWf_nil, memWf_nil, memWf_nil, memWf_nil, memWf_nil⟩

/-- What keeps TB, CT and TN keeps the canonical form. -/
theorem MemInv.congr {s t : State} (h : MemInv s) (htb : t.tb = s.tb) (hct : t.ca.ct = s.ca.ct)
    (htn : t.td.tn = s.td.tn) : MemInv t :=
  ⟨htb ▸ h.nd, htb ▸ h.inq, htb ▸ h.seen, hct ▸ h.ct, htn ▸ h.tn⟩

/-- What changes only TB keeps the canonical form if it does so in TB. -/
theorem MemInv.withTb {s : State} (h : MemInv s) {tb : TbState} (htb : TbMem tb) : MemInv { s with tb := tb } :=
  ⟨htb.nd, htb.inq, htb.seen, h.ct, h.tn⟩

/-- A command keeps the canonical form: every write is inside its space (R70, R136). -/
theorem memInv_exec {i : Instr} {s t : State} (h : MemInv s) (he : exec i s = .next t) : MemInv t := by
  have htb : TbMem s.tb := ⟨h.nd, h.inq, h.seen⟩
  cases effect_of_exec he with
  | reset => exact memInv_reset.congr rfl rfl rfl
  | tbclr => exact h.withTb ⟨memWf_nil, memWf_nil, memWf_nil⟩
  | ldsym hsym _ _ _ hload => exact h.withTb (tbMem_loadLeaf htb hsym hload)
  | build _ _ hbuild => exact h.withTb (tbMem_buildTree htb hbuild)
  | assign hassign => exact ⟨h.nd, h.inq, h.seen, memWf_assignCodes hassign, h.tn⟩
  | ctclr => exact ⟨h.nd, h.inq, h.seen, memWf_nil, h.tn⟩
  | ctset hsym => exact ⟨h.nd, h.inq, h.seen, memWf_ctWrite h.ct hsym (some s.ca.cw), h.tn⟩
  | trclr => exact ⟨h.nd, h.inq, h.seen, h.ct, memWf_nil⟩
  | trins => exact ⟨h.nd, h.inq, h.seen, h.ct, memWf_trieAllocate _ _ h.tn⟩
  | _ => exact h.congr (by simp) (by simp) (by simp)

/-- Every step keeps the canonical form. -/
theorem memInv_step {s t : State} (hs : MemInv s) (h : step s = .next t) : MemInv t :=
  step_keeps (P := MemInv) (fun _ _ hu => hu.congr rfl rfl rfl) (fun _ => memInv_reset.congr rfl rfl rfl)
    (fun _ _ hu => hu.congr (by simp) (by simp) (by simp)) (fun _ _ _ hu he => memInv_exec hu he) hs h

/-! ## ASSIGN answers on a whole tree (R161, R163) -/

/-- The walk of ASSIGN answers below a node of a whole tree, if the path may still grow by as many bits as there are
inner nodes up to it; the symbols it meets are legal. Children are older than their parent, so the walk ends. -/
theorem codes_of_tree {tb : TbState} (hleaves : TbLeaves tb) (htree : TbBuilt tb) (n : Nat) {i : Idx} (p : Codeword)
    (hi : i.toNat < tb.nnode.toNat) (hn : i.toNat + 1 ≤ tb.nsym.toNat + n) :
    ∃ l, codes tb.nd n i p = .ok l ∧ ∀ e ∈ l, symLegal e.1 = true := by
  have hfollow : ∀ {j : Idx}, j.toNat < tb.nnode.toNat → ndFollow tb.nd j = .ok (ndRead tb.nd j.toNat) := fun hj => by
    have hmax := hleaves.nsym_le
    have hcnt := htree.nnode_eq
    exact if_pos (by simp only [nsymMax, ndSize] at *; omega)
  by_cases hleaf : i.toNat < tb.nsym.toNat
  · obtain ⟨hisLeaf, hsym, -⟩ := hleaves.leaf_entry i.toNat hleaf
    refine ⟨[((ndRead tb.nd i.toNat).sym, p)], ?_, by simpa [symLegal] using hsym⟩
    cases n <;> simp only [codes, hfollow hi, hisLeaf, if_true]
  · obtain ⟨hinner, -, hleft, hright, -⟩ := htree.internal i.toNat (Nat.not_lt.1 hleaf) hi
    cases n with
    | zero => omega
    | succ n =>
      obtain ⟨l, hl, hlsym⟩ := codes_of_tree hleaves htree n (p ++ [false]) (hleft.trans hi) (by omega)
      obtain ⟨r, hr, hrsym⟩ := codes_of_tree hleaves htree n (p ++ [true]) (hright.trans hi) (by omega)
      refine ⟨l ++ r, ?_, fun e he => (List.mem_append.1 he).elim (hlsym e) (hrsym e)⟩
      simp only [codes, hfollow hi, hinner, hl, hr, Bool.false_eq_true, if_false]

theorem writeCodes_of_legal (pairs : List (Sym × Codeword)) (h : ∀ e ∈ pairs, symLegal e.1 = true)
    (ct : Mem (Option Codeword)) : ∃ ct', writeCodes pairs ct = .ok ct' := by
  induction pairs generalizing ct with
  | nil => exact ⟨ct, rfl⟩
  | cons e rest ih =>
    obtain ⟨ct', hrest⟩ := ih (fun x hx => h x (List.mem_cons_of_mem e hx)) (ctWrite ct e.1 (some e.2))
    exact ⟨ct', by simp only [writeCodes, h e List.mem_cons_self, if_true, hrest]⟩

/-- ASSIGN's operation answers on every whole tree: no path has more than 256 bits (R163). -/
theorem assignCodes_of_tree {tb : TbState} (h : TbInv tb) (hbuilt : tb.built = true) :
    ∃ ct, assignCodes tb.nd tb.root = .ok ct := by
  have hleaves := h.leaves
  have htree := h.after hbuilt
  have hmax := hleaves.nsym_le
  have hcnt := htree.nnode_eq
  have hroot := htree.root_eq
  have hpos := htree.nsym_pos
  have hfollow : ndFollow tb.nd tb.root = .ok (ndRead tb.nd tb.root.toNat) :=
    if_pos (by simp only [nsymMax, ndSize] at *; omega)
  obtain ⟨pairs, hpairs, hlegal⟩ :
      ∃ pairs, assignment tb.nd tb.root = .ok pairs ∧ ∀ e ∈ pairs, symLegal e.1 = true := by
    obtain ⟨l, hl, hlsym⟩ := codes_of_tree hleaves htree cwMax (i := tb.root) [] (by omega)
      (by simp only [nsymMax, cwMax] at *; omega)
    cases hleaf : (ndRead tb.nd tb.root.toNat).leaf with
    | false => exact ⟨l, by simp only [assignment, hfollow, hleaf, hl, Bool.false_eq_true, if_false], hlsym⟩
    | true =>
      refine ⟨[((ndRead tb.nd tb.root.toNat).sym, [false])], by simp only [assignment, hfollow, hleaf, if_true], ?_⟩
      rw [codes_leaf hleaf hl] at hlsym
      simpa using hlsym
  obtain ⟨ct, hct⟩ := writeCodes_of_legal pairs hlegal []
  exact ⟨ct, by simp only [assignCodes, hpairs, hct]⟩

/-! ## No legal state stops the model (R71, R136, R297) -/

/-- LDSYM's operation answers for every new legal symbol (R137, R142). -/
theorem loadLeaf_answers {tb : TbState} (h : TbInv tb) (hopen : tb.built = false) {sym : Sym}
    (hsym : symLegal sym = true) (hnew : seenRead tb.seen sym = false) (cnt : Count) :
    ∃ tb', loadLeaf sym cnt tb = .ok tb' := by
  have hlt := nsym_lt_of_unseen h.leaves (by simpa [symLegal] using hsym) hnew
  have hnnode := (h.before hopen).nnode_eq
  refine ⟨_, if_neg ?_⟩
  simp only [nsymMax] at hlt
  omega

/-- Every command answers a next state where the tree builder is legal. -/
theorem exec_answers {s : State} (h : TbInv s.tb) (i : Instr) : ∃ t, exec i s = .next t := by
  have heffect := exec_effect i s
  generalize exec i s = o at heffect ⊢
  cases heffect with
  | @ldsymStop sym cnt f hsym hopen hnew hload =>
    obtain ⟨tb, hok⟩ := loadLeaf_answers h hopen hsym hnew cnt
    cases hload.symm.trans hok
  | buildStop hopen hpos hbuild =>
    obtain ⟨tb, hok, -⟩ := buildTree_makes_tree h hopen hpos
    cases hbuild.symm.trans hok
  | assignStop hbuilt hassign =>
    obtain ⟨ct, hok⟩ := assignCodes_of_tree h hbuilt
    cases hassign.symm.trans hok
  | _ => exact ⟨_, rfl⟩

/-- Every step answers a next state where the tree builder is legal. -/
theorem step_answers {s : State} (h : TbInv s.tb) : ∃ t, step s = .next t := by
  cases hi : s.input with
  | nil => exact ⟨s, idleHoldsAndHardResetClears.1 s hi⟩
  | cons m rest =>
    rw [step_of_input hi]
    cases m with
    | rst => exact ⟨_, rfl⟩
    | cmd w =>
      cases hd : decode w with
      | ok i =>
        obtain ⟨t, ht⟩ := exec_answers (s := { s with input := rest }) h i
        exact ⟨t, (takeWord_of_decode hd _).trans ht⟩
      | error why => exact ⟨illegalWord w { s with input := rest }, by simp only [takeMove, takeWord, hd]⟩

/-- Settles O53: reset empties every memory and register, and TNCNT = 1 is the root alone. -/
theorem resetMeetsEveryInvariant : Obligations.ResetMeetsEveryInvariant where
  mem := memInv_reset
  tb := tbInv_cleared
  ca := caInv_reset
  bp := bpInv_empty false
  trie := decoderInv_reset.1
  decoder := decoderInv_reset.2
  latch := latchInv_reset

/-- Settles O60: a step answers because the tree builder is legal, and each part of the invariant is kept by every
step. -/
theorem legalStatesStepToLegalStates : Obligations.LegalStatesStepToLegalStates := by
  intro s h
  obtain ⟨t, ht⟩ := step_answers h.tb
  obtain ⟨htrie, hdecoder⟩ := stepKeepsTheTrieAndTheDecoder s t h.trie h.decoder ht
  exact ⟨t, ht,
    { mem := memInv_step h.mem ht
      tb := stepKeepsTheTreeBuilder s t h.tb ht
      ca := stepKeepsTheCodewordLengths s t h.ca ht
      bp := stepKeepsThePackerInvariant s t h.bp ht
      trie := htrie
      decoder := hdecoder
      latch := stepKeepsTheLatchInvariant s t h.latch ht }⟩

end Sys2Proof.Machine

/-! SUPPORT. Proofs of the statements of 20_memory.md: the canonical form of the index spaces, ENCEND as a function of
the bits held, and the isolation of the two sides. -/

namespace Sys2Proof.Machine

/-! ## The canonical form of the index spaces (R70, log 5) -/

/-- Settles O54: every write of a command is inside its space, and a step runs a command, resets, or faults. -/
theorem stepKeepsMemoriesCanonical : Obligations.StepKeepsMemoriesCanonical := fun _ _ => memInv_step

/-! ## The bits of the packer (R30, R74, R181, R182) -/

/-- The `n` lowest bits of a byte in stream order, the highest of them first: `byteBits` and `heldBits` are of this
form. -/
def lowBits (x : Byte) (n : Nat) : List Bool := (List.range n).reverse.map x.getLsbD

theorem byteBits_eq_lowBits (x : Byte) : byteBits x = lowBits x 8 := rfl
theorem heldBits_eq_lowBits (bp : BpState) : heldBits bp = lowBits bp.acc bp.nacc.toNat := rfl

/-- A bit shifted into the accumulator is its last bit (R181). -/
theorem lowBits_accShift (acc : Byte) (b : Bool) {n : Nat} (hn : n < 8) :
    lowBits (accShift acc b) (n + 1) = lowBits acc n ++ [b] := by
  have hold : ∀ i < n, (accShift acc b).getLsbD (i + 1) = acc.getLsbD i := fun i hi => by
    simp only [accShift_getLsbD, show i + 1 < 8 by omega, decide_true, Bool.true_and, Nat.succ_ne_zero, if_false,
      Nat.add_sub_cancel]
  have hnew : (accShift acc b).getLsbD 0 = b := accShift_getLsbD acc b 0
  simp only [lowBits, List.range_succ_eq_map, List.reverse_cons, List.map_append, List.map_reverse, List.map_map,
    List.map_cons, List.map_nil, hnew]
  congr 2
  exact List.map_congr_left fun i hi => hold i (List.mem_range.1 hi)

/-- Zeros shifted into a byte are its last bits (R182). -/
theorem lowBits_shiftLeft (acc : Byte) {n k : Nat} (h : k + n ≤ 8) :
    lowBits (acc <<< k) (k + n) = lowBits acc n ++ List.replicate k false := by
  have hheld : ∀ i < n, (acc <<< k).getLsbD (k + i) = acc.getLsbD i := fun i hi => by
    simp only [BitVec.getLsbD_shiftLeft, show k + i < 8 by omega, Nat.not_lt.2 (Nat.le_add_right k i),
      Nat.add_sub_cancel_left, decide_true, decide_false, Bool.true_and, Bool.not_false]
  have hzero : ∀ i < k, (acc <<< k).getLsbD i = false := fun i hi => by simp [hi]
  simp only [lowBits, List.range_add, List.reverse_append, List.map_append, List.map_reverse, List.map_map]
  congr 2
  · exact List.map_congr_left fun i hi => hheld i (List.mem_range.1 hi)
  · rw [List.map_congr_left fun i hi => hzero i (List.mem_range.1 hi), List.map_const', List.length_range,
      List.reverse_replicate]

/-- One push (R181): the emitted bytes and the bits then held are the bits held before and the new one. -/
theorem bpPush_bits (s : State) (b : Bool) :
    ∃ ys, bpPush s b = { s with bp := (bpPush s b).bp, out := { s.out with encOut := s.out.encOut ++ ys } } ∧
      ys.flatMap byteBits ++ heldBits (bpPush s b).bp = heldBits s.bp ++ [b] := by
  have hroom : s.bp.nacc.toNat < 8 := s.bp.nacc.isLt
  by_cases hfull : s.bp.nacc.toNat + 1 = 8
  · refine ⟨[accShift s.bp.acc b], by rw [bpPush_emit hfull], ?_⟩
    have hbyte := lowBits_accShift s.bp.acc b hroom
    rw [hfull] at hbyte
    rw [bpPush_emit hfull, heldBits_eq_lowBits s.bp, ← hbyte]
    rfl
  · refine ⟨[], by rw [bpPush_held hfull]; simp, ?_⟩
    have hmod : (s.bp.nacc.toNat + 1) % 2 ^ 3 = s.bp.nacc.toNat + 1 := Nat.mod_eq_of_lt (by omega)
    rw [bpPush_held hfull, heldBits_eq_lowBits, BitVec.toNat_ofNat, hmod, lowBits_accShift _ b hroom]
    rfl

/-- Packing a codeword (R181, R184): the emitted bytes and the bits then held are the bits held before and the
codeword. -/
theorem pushCodeword_bits (c : Codeword) (s : State) :
    ∃ ys, pushCodeword c s =
        { s with bp := (pushCodeword c s).bp, out := { s.out with encOut := s.out.encOut ++ ys } } ∧
      ys.flatMap byteBits ++ heldBits (pushCodeword c s).bp = heldBits s.bp ++ c := by
  induction c generalizing s with
  | nil => exact ⟨[], by simp, by simp⟩
  | cons b c ih =>
    obtain ⟨xs, hbit, hbitBits⟩ := bpPush_bits s b
    obtain ⟨ys, hrest, hrestBits⟩ := ih (bpPush s b)
    refine ⟨xs ++ ys, ?_, ?_⟩
    · rw [pushCodeword_cons, hrest, hbit]
      simp
    · rw [pushCodeword_cons, List.flatMap_append, List.append_assoc, hrestBits, ← List.append_assoc, hbitBits]
      simp

/-- Closing a stream (R182, R185): the bits held leave in at most one byte, with 0 to 7 zeros behind them, and the
packer is empty and closed. -/
theorem closeStream_bits (s : State) :
    ∃ ys zeros, closeStream s = { s with
        bp := { acc := 0, nacc := 0, active := false }
        out := { s.out with encOut := s.out.encOut ++ ys } } ∧
      ys.flatMap byteBits = heldBits s.bp ++ List.replicate zeros false ∧ zeros ≤ 7 := by
  have hroom : s.bp.nacc.toNat < 8 := s.bp.nacc.isLt
  rw [closeStream, bpFlush_eq]
  by_cases hheld : 1 ≤ s.bp.nacc.toNat
  · refine ⟨[s.bp.acc <<< (8 - s.bp.nacc.toNat)], 8 - s.bp.nacc.toNat, by rw [if_pos hheld]; rfl, ?_, by omega⟩
    have hbyte := lowBits_shiftLeft s.bp.acc (n := s.bp.nacc.toNat) (k := 8 - s.bp.nacc.toNat) (by omega)
    rw [Nat.sub_add_cancel hroom.le] at hbyte
    rw [heldBits_eq_lowBits, ← hbyte]
    simp [byteBits_eq_lowBits]
  · refine ⟨[], 0, by rw [if_neg hheld]; rfl, ?_, by omega⟩
    simp [heldBits_eq_lowBits, lowBits, show s.bp.nacc.toNat = 0 by omega]

/-- ENCEND in an open stream with a sentinel codeword packs it and closes the stream (R185). -/
theorem execEncend_run {s : State} {c : Codeword} (hf : s.latch.fatal = false) (hopen : s.bp.active = true)
    (hc : ctRead s.ca.ct eos = some c) : exec .encend s = .next (closeStream (pushCodeword c s)) := by
  have hrun : exec .encend s = _ := classW_run (i := .encend) rfl hf _
  rw [hrun, hc, hopen]
  rfl

/-- Settles O42: the sentinel joins the bits held, and closing the stream fills the last byte. -/
theorem encendFlushesAndCloses : Obligations.EncendFlushesAndCloses := by
  intro s c _ hf hopen hc
  obtain ⟨xs, hpush, hpushBits⟩ := pushCodeword_bits c s
  obtain ⟨ys, zeros, hclose, hcloseBits, hzeros⟩ := closeStream_bits (pushCodeword c s)
  refine ⟨xs ++ ys, zeros, ?_, ?_, hzeros⟩
  · rw [execEncend_run hf hopen hc, hclose, hpush]
    simp
  · rw [List.flatMap_append, hcloseBits, ← List.append_assoc, hpushBits]

/-! ## Encode side and decode side (R86)

Putting another machine's decode side into the state commutes with every command of the encode side, and the other way
round. Both that a command leaves the other side alone and that its effect does not depend on it follow. -/

/-- The outcome with its next state changed. -/
def mapNext (g : State → State) : Out → Out
  | .next t => .next (g t)
  | .fault f => .fault f
  | .refused r => .refused r

/-- `s` with the decode side of `d`, and with its responses and coming moves. -/
def graftDecode (d s : State) : State :=
  { s with td := d.td, bu := d.bu, out := { d.out with encOut := s.out.encOut }, input := d.input }

/-- `s` with the encode side of `e`, and with its responses and coming moves; CW is shared (R86). -/
def graftEncode (e s : State) : State :=
  { s with tb := e.tb, ca := { e.ca with cw := s.ca.cw }, bp := e.bp
           out := { e.out with decOut := s.out.decOut }, input := e.input }

@[simp] theorem graftDecode_tb (d s : State) : (graftDecode d s).tb = s.tb := rfl
@[simp] theorem graftDecode_ca (d s : State) : (graftDecode d s).ca = s.ca := rfl
@[simp] theorem graftDecode_bp (d s : State) : (graftDecode d s).bp = s.bp := rfl
@[simp] theorem graftEncode_cw (e s : State) : (graftEncode e s).ca.cw = s.ca.cw := rfl
@[simp] theorem graftEncode_td (e s : State) : (graftEncode e s).td = s.td := rfl

/-- What commutes with a command takes its next state along. -/
theorem next_eq_of_mapNext {g : State → State} {i : Instr} {s t t' : State}
    (hg : exec i (g s) = mapNext g (exec i s)) (h : exec i s = .next t) (h' : exec i (g s) = .next t') : t' = g t := by
  rw [h, h'] at hg
  cases hg
  rfl

/-! ### What commutes with fault entry commutes with the checks around a command -/

/-- `g` leaves the latch alone and commutes with fault entry. -/
structure LatchTransparent (g : State → State) : Prop where
  latch : ∀ s, (g s).latch = s.latch
  raiseFatal : ∀ c w s, raiseFatal c w (g s) = g (raiseFatal c w s)

theorem latchTransparent_graftDecode (d : State) : LatchTransparent (graftDecode d) :=
  ⟨fun _ => rfl, fun c w s => by cases h : s.latch.fatal <;> simp [raiseFatal, graftDecode, h]⟩

theorem latchTransparent_graftEncode (e : State) : LatchTransparent (graftEncode e) :=
  ⟨fun _ => rfl, fun c w s => by cases h : s.latch.fatal <;> simp [raiseFatal, graftEncode, h]⟩

section
variable {g : State → State} (hg : LatchTransparent g) {i : Instr} {s : State}
include hg

theorem LatchTransparent.fail_mapNext (c : Cause) : fail c i (g s) = mapNext g (fail c i s) :=
  congrArg Host.Outcome.next (hg.raiseFatal c (encode i) s)

/-- A check that raises a fault, with the rest of the command behind it. -/
theorem LatchTransparent.check_mapNext {p : Prop} [Decidable p] {c : Cause} {b b' : Out} (hb : b' = mapNext g b) :
    (if p then fail c i (g s) else b') = mapNext g (if p then fail c i s else b) := by
  split
  · exact hg.fail_mapNext c
  · exact hb

/-- The encoding check and the discarding of rule R257 around a class W command. -/
theorem LatchTransparent.classW_mapNext {body body' : Out} (hw : opClassR (opcodeOf i) = false)
    (hbody : body' = mapNext g body) : classW i (g s) body' = mapNext g (classW i s body) := by
  simp only [classW, hg.latch]
  split
  · split
    · rfl
    · exact hbody
  · simp [mapNext, illegalWord, opField_encode, hw, hg.raiseFatal]

end

/-- The commands of both sides are of class W (R104). -/
theorem opClassR_of_side {i : Instr} (hi : encodeSide i = true ∨ decodeSide i = true) :
    opClassR (opcodeOf i) = false := by
  cases i with
  | rdreg _ | rdnode _ _ | cwrd _ | rdtrie _ => rcases hi with hi | hi <;> cases hi
  | _ => rfl

/-! ### The encode side -/

theorem graftDecode_bpPush (d s : State) (b : Bool) : bpPush (graftDecode d s) b = graftDecode d (bpPush s b) := by
  by_cases hfull : s.bp.nacc.toNat + 1 = 8
  · rw [bpPush_emit hfull, bpPush_emit (by simpa using hfull)]
    rfl
  · rw [bpPush_held hfull, bpPush_held (by simpa using hfull)]
    rfl

theorem graftDecode_pushCodeword (d : State) (c : Codeword) (s : State) :
    pushCodeword c (graftDecode d s) = graftDecode d (pushCodeword c s) := by
  induction c generalizing s with
  | nil => rfl
  | cons b c ih => rw [pushCodeword_cons, graftDecode_bpPush, ih, pushCodeword_cons]

theorem graftDecode_closeStream (d s : State) : closeStream (graftDecode d s) = graftDecode d (closeStream s) := by
  simp only [closeStream, bpFlush_eq]
  rfl

theorem graftDecode_withTb (d s : State) (r : Except Fault TbState) :
    withTb (graftDecode d s) r = mapNext (graftDecode d) (withTb s r) := by
  cases r <;> rfl

theorem execAssign_graftDecode (d s : State) :
    execAssign (graftDecode d s) = mapNext (graftDecode d) (execAssign s) := by
  have hg := latchTransparent_graftDecode d
  refine hg.classW_mapNext rfl (hg.check_mapNext (hg.check_mapNext ?_))
  rw [graftDecode_tb]
  cases assignCodes s.tb.nd s.tb.root <;> rfl

theorem execEncbyte_graftDecode (b : Byte) (d s : State) :
    execEncbyte b (graftDecode d s) = mapNext (graftDecode d) (execEncbyte b s) := by
  have hg := latchTransparent_graftDecode d
  refine hg.classW_mapNext rfl (hg.check_mapNext ?_)
  rw [graftDecode_ca]
  cases ctRead s.ca.ct (byteSym b) with
  | none => exact hg.fail_mapNext _
  | some e => exact congrArg Host.Outcome.next (graftDecode_pushCodeword d e s)

theorem execEncend_graftDecode (d s : State) :
    execEncend (graftDecode d s) = mapNext (graftDecode d) (execEncend s) := by
  have hg := latchTransparent_graftDecode d
  refine hg.classW_mapNext rfl (hg.check_mapNext ?_)
  rw [graftDecode_ca]
  cases ctRead s.ca.ct eos with
  | none => exact hg.fail_mapNext _
  | some e =>
    simp only [graftDecode_pushCodeword, graftDecode_closeStream]
    rfl

/-- The decode side takes no part in a command of the encode side (R86). -/
theorem exec_graftDecode {i : Instr} (hi : encodeSide i = true) (d s : State) :
    exec i (graftDecode d s) = mapNext (graftDecode d) (exec i s) := by
  have hg := latchTransparent_graftDecode d
  have hw := opClassR_of_side (.inl hi)
  cases i with
  | tbclr => exact hg.classW_mapNext hw rfl
  | ldsym sym cnt =>
    exact hg.classW_mapNext hw (hg.check_mapNext (hg.check_mapNext (hg.check_mapNext (graftDecode_withTb d s _))))
  | build => exact hg.classW_mapNext hw (hg.check_mapNext (hg.check_mapNext (graftDecode_withTb d s _)))
  | assign => exact execAssign_graftDecode d s
  | ctclr => exact hg.classW_mapNext hw (hg.check_mapNext rfl)
  | ctset sym => exact hg.classW_mapNext hw (hg.check_mapNext (hg.check_mapNext rfl))
  | ctget sym => exact hg.classW_mapNext hw rfl
  | encstart => exact hg.classW_mapNext hw rfl
  | encbyte b => exact execEncbyte_graftDecode b d s
  | encend => exact execEncend_graftDecode d s
  | encstop => exact hg.classW_mapNext hw rfl
  | _ => cases hi

/-! ### The decode side -/

theorem graftEncode_tdStep (e : State) (b : Bool) (s : State) :
    tdStep b (graftEncode e s) = graftEncode e (tdStep b s) := by
  simp only [tdStep, apply_ite (graftEncode e)]
  rfl

theorem graftEncode_decodeLoop (e : State) (n : Nat) (s : State) :
    decodeLoop n (graftEncode e s) = graftEncode e (decodeLoop n s) := by
  induction n generalizing s with
  | zero => rfl
  | succ n ih =>
    have hstep : tdStep (buBit (graftEncode e s)) (buAdvance (graftEncode e s)) =
        graftEncode e (tdStep (buBit s) (buAdvance s)) := graftEncode_tdStep e (buBit s) (buAdvance s)
    simp only [decodeLoop, apply_ite (graftEncode e), hstep, ih]
    rfl

theorem execTrins_graftEncode (sym : Sym) (e s : State) :
    execTrins sym (graftEncode e s) = mapNext (graftEncode e) (execTrins sym s) := by
  have hg := latchTransparent_graftEncode e
  refine hg.classW_mapNext rfl (hg.check_mapNext (hg.check_mapNext ?_))
  rw [graftEncode_td, graftEncode_cw]
  cases trieFollow s.td.tn 0 s.ca.cw with
  | none => exact hg.fail_mapNext _
  | some r => exact hg.check_mapNext rfl

theorem execDecbyte_graftEncode (b : Byte) (e s : State) :
    execDecbyte b (graftEncode e s) = mapNext (graftEncode e) (execDecbyte b s) := by
  have hg := latchTransparent_graftEncode e
  refine hg.classW_mapNext rfl ?_
  rw [graftEncode_td]
  cases s.td.tdst with
  | idle => exact hg.fail_mapNext _
  | done => rfl
  | run => exact hg.check_mapNext (congrArg Host.Outcome.next (graftEncode_decodeLoop e 8 (buLoad b s)))

/-- The encode side takes no part in a command of the decode side (R86). -/
theorem exec_graftEncode {i : Instr} (hi : decodeSide i = true) (e s : State) :
    exec i (graftEncode e s) = mapNext (graftEncode e) (exec i s) := by
  have hg := latchTransparent_graftEncode e
  have hw := opClassR_of_side (.inr hi)
  cases i with
  | trclr => exact hg.classW_mapNext hw (hg.check_mapNext rfl)
  | trins sym => exact execTrins_graftEncode sym e s
  | decstart => exact hg.classW_mapNext hw rfl
  | decbyte b => exact execDecbyte_graftEncode b e s
  | decstop => exact hg.classW_mapNext hw rfl
  | _ => cases hi

/-- No command of the decode side writes CW (R86). -/
theorem cw_eq_of_decodeSide {i : Instr} {s t : State} (hi : decodeSide i = true) (h : exec i s = .next t) :
    t.ca.cw = s.ca.cw := by
  have hsrst : i ≠ .srst := by rintro rfl; cases hi
  obtain ⟨-, -, -, -, hcw, -⟩ := eachItemIsWrittenOnlyByItsCommands s t i h hsrst
  by_contra hne
  rcases hcw hne with rfl | ⟨_, _, rfl⟩ | ⟨_, rfl⟩ <;> cases hi

/-- Settles O21 by grafting the other side twice: grafting that of `s` gives `s` again, so `t` has kept it, and grafting
that of `s'` gives `s'`, so `t'` is `t` but for it. -/
theorem encodeAndDecodeSidesAreIsolated : Obligations.EncodeAndDecodeSidesAreIsolated := by
  intro i s t h
  refine ⟨fun hi => ?_, fun hi => ?_⟩
  · have hframe : t = graftDecode s t := next_eq_of_mapNext (exec_graftDecode hi s s) h h
    refine ⟨(congrArg State.td hframe :), (congrArg State.bu hframe :), (congrArg (·.out.decOut) hframe :), ?_⟩
    intro s' t' h' htb hca hbp hlatch henc
    have hs' : s' = graftDecode s' s := State.ext htb hca hbp rfl rfl hlatch (Streams.ext rfl henc rfl) rfl
    rw [hs'] at h'
    rw [next_eq_of_mapNext (exec_graftDecode hi s' s) h h']
    exact ⟨rfl, rfl, rfl, rfl, rfl⟩
  · have hframe : t = graftEncode s t := next_eq_of_mapNext (exec_graftEncode hi s s) h h
    have hca : t.ca = s.ca := CaState.ext (congrArg (·.ca.ct) hframe :) (cw_eq_of_decodeSide hi h)
    refine ⟨(congrArg State.tb hframe :), hca, (congrArg State.bp hframe :), (congrArg (·.out.encOut) hframe :), ?_⟩
    intro s' t' h' htd hbu hcw hlatch hdec
    have hs' : s' = graftEncode s' s :=
      State.ext rfl (CaState.ext rfl hcw) rfl hbu htd hlatch (Streams.ext rfl rfl hdec) rfl
    rw [hs'] at h'
    rw [next_eq_of_mapNext (exec_graftEncode hi s' s) h h']
    exact ⟨rfl, rfl, rfl, rfl⟩

end Sys2Proof.Machine

/-! SUPPORT. Proofs of the statements of 30_encoding.md: the decoder and the encoder (R100 to R112, R120), illegal words
and illegal operands (R103, R112), and the pseudo-command CWSTR (R119). -/

namespace Sys2Proof.Machine

/-! ## Masked words (R101, R105) -/

/-- A mask of two fields side by side tests each of the two fields of a word. -/
theorem field_and_append_iff {k m n : Nat} (w : BitVec k) (start : Nat) (c a : BitVec m) (d b : BitVec n) :
    w.extractLsb' start (m + n) &&& (c ++ d) = a ++ b ↔
      w.extractLsb' (start + n) m &&& c = a ∧ w.extractLsb' start n &&& d = b := by
  rw [← BitVec.extractLsb'_append_extractLsb'_eq_extractLsb' rfl, append_and_append]
  refine ⟨fun h => ⟨?_, ?_⟩, fun ⟨hhigh, hlow⟩ => congrArg₂ _ hhigh hlow⟩
  · simpa only [BitVec.extractLsb'_append_eq_left] using congrArg (·.extractLsb' n m) h
  · simpa only [BitVec.extractLsb'_append_eq_right] using congrArg (·.extractLsb' 0 n) h

/-- A field of a word whose high bits are masked to 0 is its low bits. -/
theorem zero_append_of_masked {k m n : Nat} {w : BitVec k} {start : Nat}
    (h : w.extractLsb' start (m + n) &&& (BitVec.allOnes m ++ 0#n) = 0#m ++ 0#n) :
    0#m ++ w.extractLsb' start n = w.extractLsb' start (m + n) := by
  obtain ⟨hhigh, -⟩ := (field_and_append_iff w start _ _ _ _).1 h
  rw [BitVec.and_allOnes] at hhigh
  rw [← hhigh, BitVec.extractLsb'_append_extractLsb'_eq_extractLsb' rfl]

/-- The operand field A of a word, bits 55:32 (R100). -/
def operandField (w : CmdWord) : BitVec 24 := w.extractLsb' 32 24

/-- The must-be-zero bits that a format leaves in A (R101, R105). -/
def operandMask : Format → BitVec 24
  | .Z => BitVec.allOnes 24
  | .G | .B => BitVec.allOnes 16 ++ 0#8
  | .L | .S => BitVec.allOnes 15 ++ 0#9
  | .P => BitVec.allOnes 18 ++ 0#6
  | .K => BitVec.allOnes 21 ++ 0#3
  | .X => (BitVec.allOnes 6 ++ 0#2) ++ (BitVec.allOnes 6 ++ 0#10)
  | .T => BitVec.allOnes 14 ++ 0#10

/-- The must-be-zero bits that a format leaves in D (R101, R105). -/
def dataMask : Format → BitVec 32
  | .L | .P => 0
  | .Z | .G | .S | .B | .K | .X | .T => BitVec.allOnes 32

/-- The mask of rule R105 by fields: all of OP, and the must-be-zero bits of A and D. -/
theorem formatMask_eq (f : Format) : formatMask f = BitVec.allOnes 8 ++ (operandMask f ++ dataMask f) := by
  cases f <;> rfl

/-- A word is its three fields (R100). -/
theorem fields_append (w : CmdWord) : opField w ++ operandField w ++ dataField w = w := by
  have hhigh : opField w ++ operandField w = w.extractLsb' 32 32 :=
    BitVec.extractLsb'_append_extractLsb'_eq_extractLsb' rfl
  rw [hhigh]
  exact BitVec.extractLsb'_append_extractLsb'

/-- A mask with all of OP in it keeps OP and tests the bits below it. -/
theorem and_opMask_append_iff (w : CmdWord) (m b : BitVec 56) :
    w &&& (BitVec.allOnes 8 ++ m) = opField w ++ b ↔ w.extractLsb' 0 56 &&& m = b := by
  have hword := field_and_append_iff w 0 (BitVec.allOnes 8) (opField w) m b
  rw [BitVec.extractLsb'_eq_self, BitVec.and_allOnes] at hword
  exact hword.trans (and_iff_right rfl)

/-- OP alone, as the decoder masks it (R110). -/
theorem and_opMask (w : CmdWord) : w &&& 0xFF00000000000000 = opField w ++ 0#56 :=
  (and_opMask_append_iff w 0 0).2 BitVec.and_zero

/-- A word passes the mask of a format exactly when its must-be-zero bits are 0 (R101, R105). -/
theorem and_formatMask_eq_iff (w : CmdWord) (f : Format) : w &&& formatMask f = opField w ++ 0#56 ↔
    operandField w &&& operandMask f = 0 ∧ dataField w &&& dataMask f = 0 := by
  rw [formatMask_eq, and_opMask_append_iff]
  exact field_and_append_iff w 0 (operandMask f) 0#24 (dataMask f) 0#32

/-! ## The operands of a word (R101) -/

/-- The command of `i`'s row of rule R104 with its operands read from the word `w`, as the decoder reads them. -/
def readOperands (w : CmdWord) : Instr → Instr
  | .rdreg _ => .rdreg (byteField w)
  | .ldsym _ _ => .ldsym (symField w) (dataField w)
  | .rdnode _ _ => .rdnode (idxField w) (selField w)
  | .ctset _ => .ctset (symField w)
  | .ctget _ => .ctget (symField w)
  | .cwpush _ _ => .cwpush (countField w) (dataField w)
  | .cwrd _ => .cwrd (wordField w)
  | .encbyte _ => .encbyte (byteField w)
  | .trins _ => .trins (symField w)
  | .rdtrie _ => .rdtrie (idxField w)
  | .decbyte _ => .decbyte (byteField w)
  | i => i

theorem opcodeOf_readOperands (w : CmdWord) (i : Instr) : opcodeOf (readOperands w i) = opcodeOf i := by cases i <;> rfl

/-- Operand bits of a command's word are bits of its field A (R100). -/
theorem extractLsb'_encode (i : Instr) {start len : Nat} (h : start + len ≤ 24) :
    (encode i).extractLsb' (32 + start) len = (aField i).extractLsb' start len := by
  rw [encode, BitVec.extractLsb'_append_eq_of_le (Nat.le_add_right 32 start), Nat.add_sub_cancel_left,
    BitVec.extractLsb'_append_eq_of_add_le h]

theorem dataField_encode (i : Instr) : dataField (encode i) = dField i := BitVec.extractLsb'_append_eq_right

/-- The lowest operand of A, with other bits `z` above it, is read back from the word. -/
theorem lowOperand_encode {i : Instr} {m n : Nat} (z : BitVec m) (x : BitVec n) (hn : n ≤ 24)
    (ha : (aField i).extractLsb' 0 n = (z ++ x).extractLsb' 0 n) : (encode i).extractLsb' 32 n = x := by
  rw [extractLsb'_encode i (start := 0) (by omega), ha, BitVec.extractLsb'_append_eq_right]

/-- The two operands of RDNODE, each with its zeros above it, fill A (R101). -/
theorem aField_rdnode (idx : Idx) (sel : BitVec 2) : aField (.rdnode idx sel) = (0#6 ++ sel) ++ (0#6 ++ idx) :=
  BitVec.append_assoc

/-- The operands read from a command's word are the command's operands (R100, R101). -/
theorem readOperands_encode (i : Instr) : readOperands (encode i) i = i := by
  cases i with
  | rdreg x | encbyte x | decbyte x => exact congrArg _ (lowOperand_encode 0#16 x (by decide) rfl)
  | ctset x | ctget x | trins x => exact congrArg _ (lowOperand_encode 0#15 x (by decide) rfl)
  | ldsym x cnt => exact congrArg₂ _ (lowOperand_encode 0#15 x (by decide) rfl) (dataField_encode _)
  | cwpush x bits => exact congrArg₂ _ (lowOperand_encode 0#18 x (by decide) rfl) (dataField_encode _)
  | cwrd x => exact congrArg _ (lowOperand_encode 0#21 x (by decide) rfl)
  | rdtrie x => exact congrArg _ (lowOperand_encode 0#14 x (by decide) rfl)
  | rdnode idx sel =>
    have hsel : selField (encode (.rdnode idx sel)) = sel := by
      rw [selField, extractLsb'_encode (start := 16) _ (by decide), aField_rdnode,
        BitVec.extractLsb'_append_eq_of_le (by decide)]
      exact BitVec.extractLsb'_append_eq_right
    exact congrArg₂ _ (lowOperand_encode (0#6 ++ sel ++ 0#6) idx (by decide) rfl) hsel
  | _ => rfl

/-- A word with zeros in the must-be-zero bits is the word of the command read from it (R100, R101). -/
theorem encode_readOperands {w : CmdWord} {i : Instr} (hop : opcodeOf i = opField w)
    (hmask : w &&& formatMask (formatOf i) = opField w ++ 0#56) : encode (readOperands w i) = w := by
  obtain ⟨ha, hd⟩ := (and_formatMask_eq_iff w _).1 hmask
  have haField : aField (readOperands w i) = operandField w := by
    cases i with
    | rdreg _ | encbyte _ | decbyte _ => exact zero_append_of_masked (m := 16) ha
    | ldsym _ _ | ctset _ | ctget _ | trins _ => exact zero_append_of_masked (m := 15) ha
    | cwpush _ _ => exact zero_append_of_masked (m := 18) ha
    | cwrd _ => exact zero_append_of_masked (m := 21) ha
    | rdtrie _ => exact zero_append_of_masked (m := 14) ha
    | rdnode _ _ =>
      obtain ⟨hsel, hidx⟩ :=
        (field_and_append_iff w 32 (BitVec.allOnes 6 ++ 0#2) 0#8 (BitVec.allOnes 6 ++ 0#10) 0#16).1 ha
      rw [readOperands, aField_rdnode, selField, idxField, zero_append_of_masked (m := 6) hsel,
        zero_append_of_masked (m := 6) hidx]
      exact BitVec.extractLsb'_append_extractLsb'_eq_extractLsb' rfl
    | _ => exact (BitVec.and_allOnes.symm.trans ha).symm
  have hdField : dField (readOperands w i) = dataField w := by
    cases i with
    | ldsym _ _ | cwpush _ _ => rfl
    | _ => exact (BitVec.and_allOnes.symm.trans hd).symm
  rw [encode, opcodeOf_readOperands, hop, haField, hdField, fields_append]

/-- The word of every command passes the mask of its format, whatever its operands (R101, R105). -/
theorem encode_and_formatMask (i : Instr) : encode i &&& formatMask (formatOf i) = opField (encode i) ++ 0#56 := by
  rw [opField_encode]
  cases i with
  | nop => exact Laws.TableMatch.nop
  | srst => exact Laws.TableMatch.srst
  | rdreg r => exact Laws.TableMatch.rdreg r
  | tbclr => exact Laws.TableMatch.tbclr
  | ldsym sym cnt => exact Laws.TableMatch.ldsym sym cnt
  | build => exact Laws.TableMatch.build
  | rdnode idx sel => exact Laws.TableMatch.rdnode idx sel
  | assign => exact Laws.TableMatch.assign
  | ctclr => exact Laws.TableMatch.ctclr
  | ctset sym => exact Laws.TableMatch.ctset sym
  | ctget sym => exact Laws.TableMatch.ctget sym
  | cwclr => exact Laws.TableMatch.cwclr
  | cwpush n bits => exact Laws.TableMatch.cwpush n bits
  | cwrd k => exact Laws.TableMatch.cwrd k
  | encstart => exact Laws.TableMatch.encstart
  | encbyte b => exact Laws.TableMatch.encbyte b
  | encend => exact Laws.TableMatch.encend
  | encstop => exact Laws.TableMatch.encstop
  | trclr => exact Laws.TableMatch.trclr
  | trins sym => exact Laws.TableMatch.trins sym
  | rdtrie idx => exact Laws.TableMatch.rdtrie idx
  | decstart => exact Laws.TableMatch.decstart
  | decbyte b => exact Laws.TableMatch.decbyte b
  | decstop => exact Laws.TableMatch.decstop

/-! ## The checks of the decoder (R110, R112) -/

/-- A word with a 1 among the must-be-zero bits fails the mask check. -/
theorem accept_of_not_masked {w : CmdWord} {f : Format} (h : w &&& formatMask f ≠ opField w ++ 0#56) (i : Instr) :
    accept f w i = .error .mustBeZero := by
  rw [accept, and_opMask, if_pos h]

/-- Behind the mask check stands the check of rule R103 alone. -/
theorem accept_of_masked {w : CmdWord} {f : Format} (h : w &&& formatMask f = opField w ++ 0#56) (i : Instr) :
    accept f w i = if i.wellFormed then .ok i else .error .operandRange := by
  rw [accept, and_opMask, if_neg (not_not.2 h)]

/-- A word with the opcode of a command is checked against that command's row (R104, R110). -/
theorem decode_of_opcode {w : CmdWord} {i : Instr} (h : opcodeOf i = opField w) :
    decode w = accept (formatOf i) w (readOperands w i) := by
  rw [decode, ← h]
  cases i <;> rfl

/-- One command of each row of rule R104, in the table's order. -/
def commandRows : List Instr :=
  [.nop, .srst, .rdreg 0, .tbclr, .ldsym 0 0, .build, .rdnode 0 0, .assign, .ctclr, .ctset 0, .ctget 0, .cwclr,
    .cwpush 0 0, .cwrd 0, .encstart, .encbyte 0, .encend, .encstop, .trclr, .trins 0, .rdtrie 0, .decstart, .decbyte 0,
    .decstop]

/-- A word whose OP is in no row of rule R104 is refused. -/
theorem decode_of_no_opcode {w : CmdWord} (h : ∀ i : Instr, opcodeOf i ≠ opField w) :
    decode w = .error .reservedOpcode := by
  have hop : (opField w).toNat ∉ commandRows.map fun i => (opcodeOf i).toNat := fun hmem => by
    obtain ⟨i, -, hi⟩ := List.mem_map.1 hmem
    exact h i (BitVec.eq_of_toNat_eq hi)
  unfold decode
  split
  case h_25 => rfl
  all_goals next e => exact absurd (e ▸ by decide) hop

/-- The word of a command decodes to it, or fails the check of its operands and no other. -/
theorem decode_encode (i : Instr) :
    decode (encode i) = if i.wellFormed then .ok i else .error .operandRange := by
  rw [decode_of_opcode (opField_encode i).symm, accept_of_masked (encode_and_formatMask i), readOperands_encode]

/-- Settles O1: the word of a command passes the mask, and its operands are read back. -/
theorem decodeOfEncodeIsTheCommand : Obligations.DecodeOfEncodeIsTheCommand := fun i hi => by
  rw [decode_encode, if_pos hi]

/-- Settles O2: a word that decodes has the opcode of a command, passes its mask, and so is its fields written out. -/
theorem decodedWordIsTheEncoding : Obligations.DecodedWordIsTheEncoding := by
  intro w i h
  by_cases hop : ∃ j, opcodeOf j = opField w
  · obtain ⟨j, hj⟩ := hop
    rw [decode_of_opcode hj] at h
    by_cases hmask : w &&& formatMask (formatOf j) = opField w ++ 0#56
    · rw [accept_of_masked hmask] at h
      split at h
      · next hw =>
        cases h
        exact ⟨hw, encode_readOperands hj hmask⟩
      · cases h
    · rw [accept_of_not_masked hmask] at h
      cases h
  · rw [decode_of_no_opcode (not_exists.1 hop)] at h
    cases h

/-- Settles O4: one clause for each check of the decoder. -/
theorem illegalWordsAreRefusedByName : Obligations.IllegalWordsAreRefusedByName := by
  refine ⟨fun w => decode_of_no_opcode, fun w i hop hmask => ?_, fun i hi => ?_⟩
  · rw [hop] at hmask
    rw [decode_of_opcode hop, accept_of_not_masked hmask]
  · rw [decode_encode, hi]
    rfl

/-- Settles O3: the eight words are those of well-formed commands, which they decode to by O1. -/
theorem workedEncodingsOfTheSpec : Obligations.WorkedEncodingsOfTheSpec := by
  intro e he
  have hword : e.1.wellFormed = true ∧ encode e.1 = e.2 := by
    revert e
    decide
  obtain ⟨hw, hencode⟩ := hword
  exact ⟨hencode, hencode ▸ decodeOfEncodeIsTheCommand e.1 hw⟩

/-! ## Illegal words and illegal operands (R103, R111, R112, R256) -/

/-- The state that an illegal word leaves, field by field (R112, R256). -/
theorem illegalWord_fields (w : CmdWord) (s : State) : illegalWord w s = { s with
    latch := if s.latch.fatal then s.latch else { fatal := true, fcause := .illegalCmd, fcmd := w }
    out := { s.out with rsp := if opClassR (opField w) then s.out.rsp ++ [0] else s.out.rsp } } := by
  rw [← raiseFatal_latch, illegalWord_eq]
  apply State.ext <;> simp

/-- Settles O6: a step with an illegal word is `illegalWord` on the state with that move taken. -/
theorem illegalWordLatchesAndChangesNothingElse : Obligations.IllegalWordLatchesAndChangesNothingElse := by
  intro s w rest why hi hd
  have htake : takeWord w { s with input := rest } = .next (illegalWord w { s with input := rest }) := by
    rw [takeWord, hd]
  rw [step_of_input hi]
  exact htake.trans (congrArg _ (illegalWord_fields w _))

/-- A class W command with illegal operands is its illegal word, whatever its checks and effect (R103, R254). -/
theorem classW_of_illegal {i : Instr} (h : i.wellFormed = false) (s : State) (body : Out) :
    classW i s body = .next (illegalWord (encode i) s) := by simp [classW, h]

/-- A class R command with illegal operands is its illegal word. -/
theorem classR_of_illegal {i : Instr} (h : i.wellFormed = false) (s : State) (v : RspWord) :
    classR i s v = .next (illegalWord (encode i) s) := by simp [classR, h]

/-- Every command with illegal operands is its illegal word, whatever the state. -/
theorem exec_of_illegal {i : Instr} (h : i.wellFormed = false) (s : State) :
    exec i s = .next (illegalWord (encode i) s) := by
  cases i with
  | rdreg _ | rdnode _ _ => exact classR_of_illegal h s _
  | ldsym _ _ | ctset _ | ctget _ | cwpush _ _ | trins _ => exact classW_of_illegal h s _
  | _ => cases h

/-- Settles O7: the encoding check comes first in every command that rule R103 limits. -/
theorem illegalOperandsFaultFirst : Obligations.IllegalOperandsFaultFirst := by
  intro s i hi
  rw [exec_of_illegal hi, illegalWord_fields, opField_encode]
  rfl

/-! ## CWSTR (R119, R171) -/

/-- The number that a group of bits writes, the leftmost bit most significant (R119). -/
def groupValue (g : Codeword) : Nat := g.foldl (fun v b => 2 * v + b.toNat) 0

/-- The CWPUSH of a group: its length and its number (R119). -/
theorem pushGroup_eq (g : Codeword) :
    pushGroup g = .cwpush (BitVec.ofNat 6 g.length) (BitVec.ofNat 32 (groupValue g)) := rfl

theorem groupValue_concat (g : Codeword) (b : Bool) : groupValue (g ++ [b]) = Nat.bit b (groupValue g) := by
  rw [Nat.bit_val, groupValue, List.foldl_append]
  rfl

/-- Bit `j` of a group's number is its bit `j` from the right. -/
theorem groupValue_testBit (g : Codeword) (j : Nat) : (groupValue g).testBit j = g.reverse.getD j false := by
  induction g using List.reverseRecOn generalizing j with
  | nil => simp [groupValue]
  | append_singleton g b ih =>
    rw [groupValue_concat, List.reverse_append]
    cases j with
    | zero => simp
    | succ j => simpa [Nat.testBit_bit_succ] using ih j

theorem groupValue_lt (g : Codeword) : groupValue g < 2 ^ g.length :=
  Nat.lt_pow_two_of_testBit _ fun j hj => by simp [groupValue_testBit, hj]

section
variable {g : Codeword} (hg : g.length ≤ 32)
include hg

theorem groupCount_toNat : (BitVec.ofNat 6 g.length).toNat = g.length := Nat.mod_eq_of_lt (by omega)

theorem groupBits_toNat : (BitVec.ofNat 32 (groupValue g)).toNat = groupValue g :=
  Nat.mod_eq_of_lt ((groupValue_lt g).trans_le (Nat.pow_le_pow_right (by decide) hg))

/-- The bits that a group's CWPUSH appends are the group (R119, R171). -/
theorem pushBits_group : pushBits (BitVec.ofNat 6 g.length) (BitVec.ofNat 32 (groupValue g)) = g := by
  apply List.ext_getElem?
  intro j
  by_cases hj : j < g.length
  · rw [pushBits_get _ _ (by rwa [groupCount_toNat hg]), groupCount_toNat hg, ← BitVec.testBit_toNat,
      groupBits_toNat hg, groupValue_testBit]
    simp [hj, show g.length - 1 - j < g.length by omega, show g.length - 1 - (g.length - 1 - j) = j by omega]
  · rw [List.getElem?_eq_none, List.getElem?_eq_none (by omega)]
    rw [pushBits_length, groupCount_toNat hg]
    omega

theorem pushGroup_wellFormed (hne : g ≠ []) : (pushGroup g).wellFormed = true := by
  have hpos := List.length_pos_iff.2 hne
  have hcount := groupCount_toNat hg
  have hbits := (groupBits_toNat hg).trans_lt (groupValue_lt g)
  rw [← hcount] at hpos hg hbits
  rw [pushGroup_eq, Instr.wellFormed]
  simp only [Bool.and_eq_true, decide_eq_true_eq]
  exact ⟨⟨hpos, hg⟩, hbits⟩

/-- A group of 1 to 32 bits is appended to CW when there is room for it. -/
theorem exec_pushGroup (hne : g ≠ []) {s : State} (hf : s.latch.fatal = false)
    (hroom : s.ca.cw.length + g.length ≤ cwMax) : exec (pushGroup g) s = .next (setCw (s.ca.cw ++ g) s) := by
  have hfits : ¬ cwMax < s.ca.cw.length + (BitVec.ofNat 6 g.length).toNat := by
    rw [groupCount_toNat hg]
    exact Nat.not_lt.2 hroom
  have hrun : exec (pushGroup g) s =
      .next (setCw (s.ca.cw ++ pushBits (BitVec.ofNat 6 g.length) (BitVec.ofNat 32 (groupValue g))) s) :=
    (classW_run (pushGroup_wellFormed hg hne) hf _).trans (if_neg hfits)
  rw [hrun, pushBits_group hg]

end

/-- A command that answers a next state leaves the rest of the list to that state (R12, R82). -/
theorem execAll_cons_of_next {i : Instr} {s t : State} (h : exec i s = .next t) (is : List Instr) :
    execAll (i :: is) s = execAll is t := by
  rw [execAll, h]

/-- The groups of a string append the string to CW when there is room for it. -/
theorem execAll_pushGroups (n : Nat) {c : Codeword} (hn : c.length ≤ n) {s : State} (hf : s.latch.fatal = false)
    (hroom : s.ca.cw.length + c.length ≤ cwMax) : execAll (pushGroups n c) s = .next (setCw (s.ca.cw ++ c) s) := by
  induction n generalizing c s with
  | zero =>
    obtain rfl : c = [] := List.length_eq_zero_iff.1 (Nat.le_zero.1 hn)
    simp [pushGroups, execAll, setCw]
  | succ n ih =>
    cases c with
    | nil => simp [pushGroups, execAll, setCw]
    | cons b c =>
      have hlen := congrArg List.length (List.take_append_drop 32 (b :: c))
      rw [List.length_append] at hlen
      have hfirst : exec (pushGroup ((b :: c).take 32)) s = .next (setCw (s.ca.cw ++ (b :: c).take 32) s) :=
        exec_pushGroup (List.length_take_le 32 _) (by simp) hf (by omega)
      have hrest := ih (c := (b :: c).drop 32) (s := setCw (s.ca.cw ++ (b :: c).take 32) s)
        (by rw [List.length_drop]; omega) hf (by simp only [setCw_ca, List.length_append]; omega)
      rw [pushGroups, execAll_cons_of_next hfirst, hrest]
      simp [setCw]

/-- Settles O39: CWCLR empties CW, and the groups append the string to it. -/
theorem cwstrLoadsTheString : Obligations.CwstrLoadsTheString := by
  intro s c hf hc
  have hclear : exec .cwclr s = .next (setCw [] s) := classW_run (i := .cwclr) rfl hf _
  rw [cwstr, execAll_cons_of_next hclear]
  exact execAll_pushGroups c.length le_rfl (s := setCw [] s) hf (by simpa using hc)

end Sys2Proof.Machine

/-! SUPPORT. Proofs of the statements of 40_system.md: class W commands in the faulted state (R257), SRST (R132) and
NOP (R131). -/

namespace Sys2Proof.Machine

/-! ## The faulted state (R254, R257) -/

/-- While FATAL = 1 an illegal word whose opcode is of class W changes nothing: the latch keeps the first fault and
there is no response (R112, R256). -/
theorem illegalWord_of_fatal {w : CmdWord} (hw : opClassR (opField w) = false) {s : State}
    (hf : s.latch.fatal = true) : illegalWord w s = s := by
  simp [illegalWord, hw, raiseFatal_of_fatal _ _ hf]

/-- While FATAL = 1 a class W command is discarded, whether its operands are legal or not (R257). -/
theorem classW_of_fatal {i : Instr} (hw : opClassR (opcodeOf i) = false) {s : State} (hf : s.latch.fatal = true)
    (body : Out) : classW i s body = .next s := by
  rcases classW_cases i s body with ⟨-, h⟩ | ⟨-, -, h⟩ | ⟨-, hclear, -⟩
  · rw [h, illegalWord_of_fatal ((congrArg opClassR (opField_encode i)).trans hw) hf]
  · exact h
  · rw [hf] at hclear
    cases hclear

/-- Every class W command but NOP and SRST goes through `classW` with its own checks and effect (R111, R254). -/
theorem exec_eq_classW {i : Instr} (hw : opClassR (opcodeOf i) = false) (hnop : i ≠ .nop) (hsrst : i ≠ .srst)
    (s : State) : ∃ body, exec i s = classW i s body := by
  cases i with
  | nop => exact absurd rfl hnop
  | srst => exact absurd rfl hsrst
  | rdreg _ | rdnode _ _ | cwrd _ | rdtrie _ => cases hw
  | _ => exact ⟨_, rfl⟩

/-- Settles O12: NOP answers the state it is given, FATAL = 1 included. -/
theorem nopChangesNothing : Obligations.NopChangesNothing := fun _ => rfl

/-- Settles O11: NOP changes nothing in any state, and `classW` discards every other command. -/
theorem faultedStateDiscardsClassW : Obligations.FaultedStateDiscardsClassW := by
  intro s i hf hw hsrst
  by_cases hnop : i = .nop
  · subst hnop
    exact nopChangesNothing s
  · obtain ⟨body, hbody⟩ := exec_eq_classW hw hnop hsrst s
    exact hbody.trans (classW_of_fatal hw hf body)

/-! ## SRST (R132, R281) -/

/-- Settles O9: SRST is `resetAll`, which keeps the streams and the host's moves; every listed item of the reset state
holds its reset value, and an index space with no entry listed reads as the zero entry. -/
theorem srstRestoresTheResetState : Obligations.SrstRestoresTheResetState := by
  intro s
  refine ⟨resetAll s, rfl, resetAll_out s, resetAll_input s, ?_⟩
  simp [State.reset]

end Sys2Proof.Machine

/-! SUPPORT. Proofs of the statements of 41_tree_builder.md: the selection rule, the merges of BUILD, the
commands before BUILD and the views of a node. -/

namespace Sys2Proof.Machine

/-! ## The selection rule (R145) -/

/-- The pair that the selection rule compares: the weight, then the index (R145). -/
def selectionKey (nd : Mem Node) (i : Nat) : ℕ ×ₗ ℕ := toLex ((ndRead nd i).weight.toNat, i)

theorem takenBefore_iff {nd : Mem Node} {a b : Nat} : TakenBefore nd a b ↔ selectionKey nd a < selectionKey nd b :=
  Prod.Lex.toLex_lt_toLex (x := ((ndRead nd a).weight.toNat, a)) (y := ((ndRead nd b).weight.toNat, b)) |>.symm

theorem selectedBefore_iff {nd : Mem Node} {a b : Nat} :
    selectedBefore nd a b = true ↔ selectionKey nd a < selectionKey nd b := by
  rw [← takenBefore_iff, TakenBefore]
  simp [selectedBefore]

theorem selectionKey_injective (nd : Mem Node) : Function.Injective (selectionKey nd) := fun _ _ h =>
  congrArg (fun k => (ofLex k).2) h

/-- `argmin(INQ)` is the library's `List.argmin` of the working set for the selection pair. -/
theorem argmin_eq_list_argmin (tb : TbState) : argmin tb = (workingSet tb.inq).argmin (selectionKey tb.nd) := by
  refine (argmin_eq_foldl tb).trans (congrArg (fun f => (workingSet tb.inq).foldl f none) ?_)
  funext best i
  cases best with
  | none => rfl
  | some b => exact if_congr selectedBefore_iff rfl rfl

/-- The node that `argmin` answers is taken before every other waiting node (R145). -/
theorem argmin_takenBefore {tb : TbState} {a i : Nat} (h : argmin tb = some a) (hi : i ∈ waitingSet tb.inq)
    (hne : i ≠ a) : TakenBefore tb.nd a i := by
  rw [argmin_eq_list_argmin] at h
  rw [waitingSet, List.mem_toFinset] at hi
  rw [takenBefore_iff]
  exact (List.le_of_mem_argmin hi h).lt_of_ne fun heq => hne (selectionKey_injective tb.nd heq).symm

section
variable {tb : TbState} {a b : Nat} (hb : argmin { tb with inq := inqWrite tb.inq a false } = some b)
include hb

/-- The second node taken is a waiting node other than the first (R144). -/
theorem argmin_second_mem : b ∈ (waitingSet tb.inq).erase a := by
  have hmem := argmin_mem hb
  rwa [waitingSet_write_false] at hmem

/-- The second node taken is taken before all the rest (R144, R145). -/
theorem argmin_second_takenBefore {i : Nat} (hi : i ∈ (waitingSet tb.inq).erase a) (hne : i ≠ b) :
    TakenBefore tb.nd b i := by
  rw [← waitingSet_write_false] at hi
  exact argmin_takenBefore (tb := { tb with inq := inqWrite tb.inq a false }) hb hi hne

end

/-- Settles O29: the answer of `argmin` is a waiting node, and it is the least by the selection pair. -/
theorem argminTakesTheLightestThenTheOldest : Obligations.ArgminTakesTheLightestThenTheOldest := by
  intro tb
  refine ⟨fun a ha => ?_, fun ⟨i, hi, hq⟩ => ?_⟩
  · obtain ⟨halt, haq⟩ := mem_waitingSet.1 (argmin_mem ha)
    exact ⟨halt, haq, fun i hi hq hne => argmin_takenBefore ha (mem_waitingSet.2 ⟨hi, hq⟩) hne⟩
  · obtain ⟨a, -, ha⟩ := argmin_of_nonempty ⟨i, mem_waitingSet.2 ⟨hi, hq⟩⟩
    exact ⟨a, ha⟩

/-! ## One merge (R144, R147) -/

/-- A merge answers exactly when two nodes can be taken, ND has room and the sum fits, and then it joins the two. -/
theorem mergeStep_eq_joined_iff {tb tb' : TbState} : mergeStep tb = .ok tb' ↔
    ∃ a b, argmin tb = some a ∧ argmin { tb with inq := inqWrite tb.inq a false } = some b ∧
      tb.nnode.toNat < ndSize ∧ weightOf tb a + weightOf tb b < 2 ^ 41 ∧ tb' = joined tb a b := by
  constructor
  · intro h
    obtain ⟨a, b, ha, hb, hplace⟩ := mergeStep_ok h
    obtain ⟨hroom, hsum, htb'⟩ := placeJoin_ok hplace
    exact ⟨a, b, ha, hb, hroom, hsum, htb'⟩
  · rintro ⟨a, b, ha, hb, hroom, hsum, rfl⟩
    have hfits : ¬2 ^ 41 ≤ (ndRead tb.nd a).weight.toNat + (ndRead tb.nd b).weight.toNat := Nat.not_le.2 hsum
    simp only [mergeStep, ha, hb, placeJoin, if_neg (Nat.not_le.2 hroom), if_neg hfits]
    rfl

/-- The children of a join of two nodes of ND. -/
theorem joinNode_children (nd : Mem Node) {a b : Nat} (ha : a < ndSize) (hb : b < ndSize) :
    (joinNode nd a b).left.toNat = a ∧ (joinNode nd a b).right.toNat = b := ⟨idx_toNat ha, idx_toNat hb⟩

/-- Settles O30: the merge writes the join at NNODE, and the three writes of INQ clear the two taken and set NNODE. -/
theorem mergeStepJoinsTheTwoLightest : Obligations.MergeStepJoinsTheTwoLightest := by
  intro tb a b ha hb hroom hsum
  obtain ⟨halt, -⟩ := mem_waitingSet.1 (argmin_mem ha)
  obtain ⟨hblt, -⟩ := mem_waitingSet.1 (argmin_mem hb)
  obtain ⟨hleft, hright⟩ := joinNode_children tb.nd halt hblt
  refine ⟨joined tb a b, mergeStep_eq_joined_iff.2 ⟨a, b, ha, hb, hroom, hsum, rfl⟩,
    fun i hi => by rw [ndRead_joined, if_neg hi.symm], ?_⟩
  rw [ndRead_joined, if_pos rfl]
  refine ⟨rfl, rfl, hleft, hright, joinNode_weight hsum, fun i => ?_, joined_nnode hroom, rfl, rfl, rfl, rfl⟩
  rw [inqRead_joined]
  grind

/-! ## The merges of BUILD (R140, R146) -/

/-- The internal node `j` joins the two nodes that the selection rule took when it was made: first its left child, then
its right child from the rest (R144, R145). -/
def JoinsTheFirstTaken (tb : TbState) (j : Nat) : Prop :=
  Waiting tb j (ndRead tb.nd j).left.toNat ∧ Waiting tb j (ndRead tb.nd j).right.toNat ∧
    (∀ i, Waiting tb j i → i ≠ (ndRead tb.nd j).left.toNat → TakenBefore tb.nd (ndRead tb.nd j).left.toNat i) ∧
    (∀ i, Waiting tb j i → i ≠ (ndRead tb.nd j).left.toNat → i ≠ (ndRead tb.nd j).right.toNat →
      TakenBefore tb.nd (ndRead tb.nd j).right.toNat i)

/-- The children are the nodes that an internal node names. -/
theorem mem_ndChildren {tb : TbState} {i : Nat} : i ∈ ndChildren tb ↔
    ∃ k < tb.nnode.toNat, (ndRead tb.nd k).leaf = false ∧
      ((ndRead tb.nd k).left.toNat = i ∨ (ndRead tb.nd k).right.toNat = i) := by
  simp only [ndChildren, List.mem_flatMap, List.mem_range]
  refine exists_congr fun k => and_congr_right fun _ => ?_
  cases (ndRead tb.nd k).leaf <;> simp [eq_comm]

/-- Between two merges the nodes are within ND (R149). -/
theorem Merging.nnode_le {tb0 tb : TbState} (h : Merging tb0 tb) (hleaves : TbLeaves tb0) :
    tb.nnode.toNat ≤ ndSize := by
  have hsize := h.size
  have hpos := Finset.card_pos.2 ⟨_, h.newest⟩
  have hle := hleaves.nsym_le
  simp only [nsymMax, ndSize] at *
  omega

/-- Between two merges the working set holds the nodes that are no child. -/
theorem Merging.mem_waitingSet_iff {tb0 tb : TbState} (h : Merging tb0 tb) (hleaves : TbLeaves tb0) {i : Nat} :
    i ∈ waitingSet tb.inq ↔ i < tb.nnode.toNat ∧ i ∉ ndChildren tb := by
  rw [← List.count_eq_zero, h.children]
  constructor
  · intro hi
    obtain ⟨-, hq⟩ := mem_waitingSet.1 hi
    exact ⟨h.waiting_lt i hi, if_neg (by simp [hq])⟩
  · rintro ⟨hi, hcount⟩
    refine mem_waitingSet.2 ⟨hi.trans_le (h.nnode_le hleaves), ?_⟩
    simpa [hi] using hcount

/-- Between two merges the nodes waiting for the next one are those of the working set. -/
theorem Merging.waiting_iff {tb0 tb : TbState} (h : Merging tb0 tb) (hleaves : TbLeaves tb0) (i : Nat) :
    Waiting tb tb.nnode.toNat i ↔ i ∈ waitingSet tb.inq := by
  rw [h.mem_waitingSet_iff hleaves, mem_ndChildren, Waiting, h.nsym_eq]
  refine and_congr_right fun _ => ⟨fun hfree => ?_, fun hfree k h1 h2 => ?_⟩
  · rintro ⟨k, hk, hinner, hchild⟩
    have hge : tb0.nsym.toNat ≤ k := Nat.le_of_not_lt fun hlt => by
      obtain ⟨hleaf, -⟩ := hleaves.leaf_entry k hlt
      simp [h.leaf_eq k hlt, hleaf] at hinner
    obtain ⟨hleft, hright⟩ := hfree k hge hk
    exact hchild.elim hleft hright
  · obtain ⟨hinner, -⟩ := h.internal k h1 h2
    exact ⟨fun hl => hfree ⟨k, h2, hinner, .inl hl⟩, fun hr => hfree ⟨k, h2, hinner, .inr hr⟩⟩

section
variable {tb : TbState} {a b : Nat}

/-- A merge changes neither which nodes waited for an older one nor which waited for the one it makes. -/
theorem waiting_joined {j : Nat} (hj : j ≤ tb.nnode.toNat) (i : Nat) :
    Waiting (joined tb a b) j i ↔ Waiting tb j i := by
  refine and_congr_right fun _ => forall_congr' fun k => forall_congr' fun _ => forall_congr' fun hk => ?_
  rw [ndRead_joined, if_neg (hk.trans_le hj).ne']

theorem takenBefore_joined {x y : Nat} (hx : x < tb.nnode.toNat) (hy : y < tb.nnode.toNat) :
    TakenBefore (joined tb a b).nd x y ↔ TakenBefore tb.nd x y := by
  simp only [TakenBefore, ndRead_joined, if_neg hx.ne', if_neg hy.ne']

/-- A merge leaves what the older internal nodes join. -/
theorem joinsTheFirstTaken_joined_old {j : Nat} (hj : j < tb.nnode.toNat) (h : JoinsTheFirstTaken tb j) :
    JoinsTheFirstTaken (joined tb a b) j := by
  obtain ⟨hleft, hright, hfirst, hsecond⟩ := h
  have hlt : ∀ {i}, Waiting tb j i → i < tb.nnode.toNat := fun hi => hi.1.trans hj
  simp only [JoinsTheFirstTaken, ndRead_joined (tb := tb) j, if_neg hj.ne', waiting_joined hj.le]
  exact ⟨hleft, hright, fun i hi hne => (takenBefore_joined (hlt hleft) (hlt hi)).2 (hfirst i hi hne),
    fun i hi hne hne' => (takenBefore_joined (hlt hright) (hlt hi)).2 (hsecond i hi hne hne')⟩

/-- The newest node joins the two that `argmin` took one after the other (R144, R145). -/
theorem Merging.joinsTheFirstTaken_joined_new {tb0 : TbState} (h : Merging tb0 tb) (hleaves : TbLeaves tb0)
    (ha : argmin tb = some a) (hb : argmin { tb with inq := inqWrite tb.inq a false } = some b) :
    JoinsTheFirstTaken (joined tb a b) tb.nnode.toNat := by
  have haw := argmin_mem ha
  obtain ⟨-, hbw⟩ := Finset.mem_erase.1 (argmin_second_mem hb)
  obtain ⟨hleft, hright⟩ := joinNode_children tb.nd (mem_waitingSet.1 haw).1 (mem_waitingSet.1 hbw).1
  simp only [JoinsTheFirstTaken, ndRead_joined (tb := tb) tb.nnode.toNat, if_true, hleft, hright,
    waiting_joined le_rfl, h.waiting_iff hleaves]
  refine ⟨haw, hbw, fun i hi hne => ?_, fun i hi hne hne' => ?_⟩
  · exact (takenBefore_joined (h.waiting_lt a haw) (h.waiting_lt i hi)).2 (argmin_takenBefore ha hi hne)
  · have hsecond := argmin_second_takenBefore hb (Finset.mem_erase.2 ⟨hne, hi⟩) hne'
    exact (takenBefore_joined (h.waiting_lt b hbw) (h.waiting_lt i hi)).2 hsecond

end

/-- The tree builder between two merges, every internal node so far made by the selection rule. -/
structure MergingBySelection (tb0 tb : TbState) : Prop extends Merging tb0 tb where
  first_taken : ∀ j, tb0.nsym.toNat ≤ j → j < tb.nnode.toNat → JoinsTheFirstTaken tb j

/-- A merge of BUILD makes one more internal node by the selection rule. -/
theorem MergingBySelection.mergeStep {tb0 tb tb' : TbState} (h : MergingBySelection tb0 tb) (hleaves : TbLeaves tb0)
    (hstep : mergeStep tb = .ok tb') : MergingBySelection tb0 tb' := by
  obtain ⟨hmerging, hjoins⟩ := h
  obtain ⟨a, b, ha, hb, hroom, hsum, rfl⟩ := mergeStep_eq_joined_iff.1 hstep
  refine ⟨hmerging.join (argmin_mem ha) (argmin_second_mem hb) hroom hsum, fun j h1 h2 => ?_⟩
  rw [joined_nnode hroom] at h2
  rcases Nat.lt_succ_iff_lt_or_eq.1 h2 with h2 | rfl
  · exact joinsTheFirstTaken_joined_old h2 (hjoins j h1 h2)
  · exact hmerging.joinsTheFirstTaken_joined_new hleaves ha hb

/-- A fault-free BUILD of a table that is not empty is `buildTree` (R146). -/
theorem exec_build_of_loaded {s : State} (hf : s.latch.fatal = false) (hopen : s.tb.built = false)
    (hne : s.tb.nsym ≠ 0) : exec .build s = withTb s (buildTree s.tb) := by
  refine (classW_run (i := .build) rfl hf _).trans ?_
  rw [if_neg (by simp [hopen]), if_neg hne]

/-- Settles O32: every merge of the loop makes its node by the selection rule and leaves the older ones; BUILD's last
writes touch neither ND nor NSYM. -/
theorem buildMergesTheLightestFirst : Obligations.BuildMergesTheLightestFirst := by
  intro s t h hfatal hopen hpos hexec
  have hne : s.tb.nsym ≠ 0 := fun h0 => by simp [h0] at hpos
  rw [exec_build_of_loaded hfatal hopen hne] at hexec
  obtain ⟨tb, hbuild, rfl⟩ := withTb_next hexec
  obtain ⟨tb1, r, hloop, -, rfl⟩ := buildTree_ok hbuild
  have hopened := h.before hopen
  have hstart : MergingBySelection s.tb s.tb := ⟨Merging.start h.leaves hopened hpos, fun j h1 h2 => by
    rw [hopened.nnode_eq] at h2
    exact absurd h2 (Nat.not_lt.2 h1)⟩
  obtain ⟨hmerged, hjoins⟩ := mergeLoop_keeps (fun _ _ hu => hu.mergeStep h.leaves) hstart hloop
  intro j h1 h2
  exact hjoins j (hmerged.nsym_eq ▸ h1) h2

/-! ## Commands before BUILD (R141, R142, R146) -/

/-- Settles O26: TBCLR is `tbCleared`, and an index space with no entry listed reads as the zero entry. -/
theorem tbclrClearsOnlyTheTreeBuilder : Obligations.TbclrClearsOnlyTheTreeBuilder := by
  intro s hf
  refine ⟨{ s with tb := tbCleared }, classW_run (i := .tbclr) rfl hf _, rfl, ?_⟩
  simp [tbCleared]

/-- A fault-free LDSYM of a legal symbol before BUILD: the two checks of the table, then the load (R142). -/
theorem exec_ldsym_of_open {s : State} {sym : Sym} {cnt : Count} (hf : s.latch.fatal = false) (hsym : sym.toNat ≤ 256)
    (hopen : s.tb.built = false) : exec (.ldsym sym cnt) s =
      if cnt = 0 ∨ seenRead s.tb.seen sym = true then .next { s with latch := latched .badTable (.ldsym sym cnt) }
      else withTb s (loadLeaf sym cnt s.tb) := by
  refine (classW_run (i := .ldsym sym cnt) (by simpa [Instr.wellFormed, symLegal] using hsym) hf _).trans ?_
  rw [if_neg (by simp [hopen]), fail_of_clear .badTable (.ldsym sym cnt) hf, ite_or]
  rfl

/-- Settles O28: LDSYM's and BUILD's own checks come after that of the phase, and a fault writes the latch only. -/
theorem badTableFaults : Obligations.BadTableFaults := by
  refine ⟨fun s sym cnt hf hsym hopen hbad => ?_, fun s hf hopen hempty => ?_⟩
  · rw [exec_ldsym_of_open hf hsym hopen, if_pos hbad]
  · refine (classW_run (i := .build) rfl hf _).trans ?_
    rw [if_neg (by simp [hopen]), if_pos hempty, fail_of_clear .badTable .build hf]
    rfl

/-- Settles O27: the counters have room for a new symbol's leaf, and each entry is read after `loadLeaf`. -/
theorem ldsymAppendsOneLeaf : Obligations.LdsymAppendsOneLeaf := by
  intro s sym cnt h hf hsym hopen hcnt hnew
  obtain ⟨tb, hload⟩ := loadLeaf_answers h hopen (by simpa [symLegal] using hsym) hnew cnt
  obtain ⟨hroot, hbuilt⟩ := loadLeaf_frame hload
  refine ⟨{ s with tb := tb }, ?_, rfl, fun i => ?_, fun i => ?_, fun y => ?_, loadLeaf_nsym hload,
    loadLeaf_nnode hload, hroot, hbuilt.trans hopen⟩
  · rw [exec_ldsym_of_open hf hsym hopen, if_neg (by rw [hnew]; simpa using hcnt), hload, withTb]
  · by_cases hi : i = s.tb.nsym.toNat
    · rw [if_pos hi, hi, ndRead_loadLeaf_new hload, newLeaf, countWeight]
    · rw [if_neg hi, ndRead_loadLeaf_other hload hi]
  · rw [inqRead_loadLeaf hload]
    grind
  · rw [seenRead_loadLeaf hload]
    grind

/-! ## The views of a node (R148) -/

/-- View 0 of a node, field by field. -/
theorem nodeView_zero_fields (e : Node) (inq : Bool) :
    (nodeView e inq 0).getLsbD 31 = e.leaf ∧ (nodeView e inq 0).getLsbD 30 = inq ∧
      (nodeView e inq 0).getLsbD 29 = false ∧ (nodeView e inq 0).extractLsb' 20 9 = e.sym ∧
      (nodeView e inq 0).extractLsb' 10 10 = e.left ∧ (nodeView e inq 0).extractLsb' 0 10 = e.right := by
  have hview : nodeView e inq 0 =
    (BitVec.ofBool e.leaf ++ BitVec.ofBool inq ++ 0#1 ++ e.sym ++ e.left ++ e.right :
      BitVec (1 + 1 + 1 + 9 + 10 + 10)) := rfl
  obtain ⟨hright, hleft, -⟩ :=
    extractLsb'_append_fields (BitVec.ofBool e.leaf ++ BitVec.ofBool inq ++ 0#1 ++ e.sym) e.left e.right
  rw [← hview] at hright hleft
  refine ⟨?_, ?_, ?_, symOfView_nodeView e inq, hleft, hright⟩ <;>
    · rw [hview]
      simp only [BitVec.getLsbD_append]
      simp

/-- View 2 of a node holds the nine high bits of the weight, and zeros above them. -/
theorem nodeView_two_fields (e : Node) (inq : Bool) :
    (nodeView e inq 2).extractLsb' 0 9 = e.weight.extractLsb' 32 9 ∧ (nodeView e inq 2).extractLsb' 9 23 = 0 :=
  ⟨BitVec.extractLsb'_append_eq_right, BitVec.extractLsb'_append_eq_left⟩

/-- Settles O23: RDNODE responds the view of the node, and the three selectors give the fields of rule R148. -/
theorem rdnodeShowsTheNode : Obligations.RdnodeShowsTheNode := by
  intro s idx sel hidx hsel
  have hlegal : (Instr.rdnode idx sel).wellFormed = true := by simp [Instr.wellFormed, hidx, hsel]
  refine ⟨_, classR_run hlegal s _, fun h => ?_, fun h => ?_, fun h => ?_⟩
  · obtain rfl : sel = 0 := BitVec.eq_of_toNat_eq h
    exact nodeView_zero_fields _ _
  · obtain rfl : sel = 1 := BitVec.eq_of_toNat_eq h
    rfl
  · obtain rfl : sel = 2 := BitVec.eq_of_toNat_eq h
    exact nodeView_two_fields _ _

end Sys2Proof.Machine

/-! SUPPORT. Proofs of the statements of 42_code_assigner.md: the commands that move one codeword (R166 to R172), and
ASSIGN, whose walk is compared with the paths of the tree (R161 to R165). -/

namespace Sys2Proof.Machine

/-! ## The codeword register and single entries of CT (R166 to R172) -/

/-- Settles O25: CWRD responds the word of the codeword's bits. -/
theorem cwrdShowsTheCodewordBits : Obligations.CwrdShowsTheCodewordBits := fun s k =>
  ⟨cwWord s.ca.cw k, classR_run (i := .cwrd k) rfl s _, fun _ hj => wordOfBits_getLsbD _ hj⟩

/-- A fault-free CWPUSH with legal operands: the check for room, then the bits behind those of CW (R171). -/
theorem exec_cwpush_of_legal {s : State} {n : BitVec 6} {bits : BitVec 32} (hf : s.latch.fatal = false)
    (hpos : 1 ≤ n.toNat) (hmax : n.toNat ≤ 32) (hbits : bits.toNat < 2 ^ n.toNat) :
    exec (.cwpush n bits) s =
      if cwMax < s.ca.cw.length + n.toNat then .next { s with latch := latched .badCodeword (.cwpush n bits) }
      else .next (setCw (s.ca.cw ++ pushBits n bits) s) := by
  have hlegal : (Instr.cwpush n bits).wellFormed = true := by simp [Instr.wellFormed, hpos, hmax, hbits]
  refine (classW_run hlegal hf _).trans ?_
  rw [fail_of_clear .badCodeword (.cwpush n bits) hf]
  rfl

/-- Settles O38: the bits appended are those of `pushBits`, and a fault writes the latch only. -/
theorem cwpushAppendsTheBits : Obligations.CwpushAppendsTheBits := by
  intro s n bits hf hpos hmax hbits
  have hexec := exec_cwpush_of_legal hf hpos hmax hbits
  refine ⟨fun hroom => ?_, fun hfull => hexec.trans (if_pos hfull)⟩
  refine ⟨_, hexec.trans (if_neg (Nat.not_lt.2 hroom)), rfl, ?_, ?_, fun j hj => ?_⟩
  · rw [setCw_ca, List.length_append, pushBits_length]
  · rw [setCw_ca, List.take_left]
  · rw [setCw_ca, List.getElem?_append_right (Nat.le_add_right _ _), Nat.add_sub_cancel_left, pushBits_get n bits hj]

/-- Settles O35: each clear writes the empty contents of its own memory, in which every entry reads as zero. -/
theorem clearingCommandsEmptyTheirMemory : Obligations.ClearingCommandsEmptyTheirMemory := by
  intro s hf
  refine ⟨fun hclosed => ?_, ?_, fun hphase => ?_⟩
  · have hrun : exec .ctclr s = _ := classW_run (i := .ctclr) rfl hf _
    exact ⟨setCt [] s, hrun.trans (if_neg (by simp [hclosed])), rfl, ctRead_nil⟩
  · exact ⟨setCw [] s, classW_run (i := .cwclr) rfl hf _, rfl, rfl⟩
  · have hrun : exec .trclr s = _ := classW_run (i := .trclr) rfl hf _
    exact ⟨_, hrun.trans (if_neg hphase), rfl, tnRead_nil⟩

/-- A fault-free CTSET of a legal symbol with no stream open: the check for a codeword, then the write (R167). -/
theorem exec_ctset_of_closed {s : State} {sym : Sym} (hf : s.latch.fatal = false) (hsym : sym.toNat ≤ 256)
    (hclosed : s.bp.active = false) : exec (.ctset sym) s =
      if s.ca.cw = [] then .next { s with latch := latched .badCodeword (.ctset sym) }
      else .next (setCt (ctWrite s.ca.ct sym (some s.ca.cw)) s) := by
  refine (classW_run (i := .ctset sym) (by simpa [Instr.wellFormed, symLegal] using hsym) hf _).trans ?_
  rw [if_neg (by simp [hclosed]), fail_of_clear .badCodeword (.ctset sym) hf]
  exact if_congr List.length_eq_zero_iff rfl rfl

/-- Settles O36: the write of CT is read back, and a fault writes the latch only. -/
theorem ctsetStoresTheCodeword : Obligations.CtsetStoresTheCodeword := by
  intro s sym hf hsym hclosed
  have hexec := exec_ctset_of_closed hf hsym hclosed
  refine ⟨fun hcw => ⟨_, hexec.trans (if_neg hcw), rfl, fun y => ?_⟩, fun hcw => hexec.trans (if_pos hcw)⟩
  rw [setCt_ca, ctRead_write]
  exact if_congr eq_comm rfl rfl

/-- Settles O37: CTGET loads the entry read, or the empty codeword in place of none. -/
theorem ctgetLoadsTheCodeword : Obligations.CtgetLoadsTheCodeword := by
  intro s sym hf hsym
  have hlegal : (Instr.ctget sym).wellFormed = true := by simpa [Instr.wellFormed, symLegal] using hsym
  refine ⟨setCw ((ctRead s.ca.ct sym).getD []) s, classW_run hlegal hf _, rfl, fun c hc => ?_, fun hc => ?_⟩
  · rw [setCw_ca, hc, Option.getD_some]
  · rw [setCw_ca, hc, Option.getD_none]

/-! ## Paths in the tree (R8, R161, R162) -/

/-- The child of ND[i] on the side `b`: 0 left, 1 right (R162). -/
def childAt (nd : Mem Node) (i : Nat) (b : Bool) : Nat :=
  if b then (ndRead nd i).right.toNat else (ndRead nd i).left.toNat

section
variable {nd : Mem Node} {i : Nat}

theorem treeAt_leaf (h : (ndRead nd i).leaf = true) (b : Bool) (c : Codeword) : treeAt nd i (b :: c) = none := by
  rw [treeAt, if_pos h]

theorem treeAt_inner (h : (ndRead nd i).leaf = false) (b : Bool) (c : Codeword) :
    treeAt nd i (b :: c) = treeAt nd (childAt nd i b) c := by
  rw [treeAt, h]
  rfl

/-- A path goes on from where its first part leads. -/
theorem treeAt_append (c d : Codeword) : treeAt nd i (c ++ d) = (treeAt nd i c).bind fun k => treeAt nd k d := by
  induction c generalizing i with
  | nil => rfl
  | cons b c ih =>
    rw [List.cons_append]
    cases h : (ndRead nd i).leaf with
    | true => rw [treeAt_leaf h, treeAt_leaf h, Option.bind_none]
    | false => rw [treeAt_inner h, treeAt_inner h, ih]

/-- The last bit of a path leads from an inner node to one of its children. -/
theorem treeAt_concat {c : Codeword} {b : Bool} {j : Nat} (h : treeAt nd i (c ++ [b]) = some j) :
    ∃ k, treeAt nd i c = some k ∧ (ndRead nd k).leaf = false ∧ childAt nd k b = j := by
  rw [treeAt_append] at h
  obtain ⟨k, hk, hlast⟩ := Option.bind_eq_some_iff.1 h
  cases hleaf : (ndRead nd k).leaf with
  | true => rw [treeAt_leaf hleaf] at hlast; cases hlast
  | false => rw [treeAt_inner hleaf] at hlast; cases hlast; exact ⟨k, hk, hleaf, rfl⟩

end

/-- The bits `c` lead from ND[i] to the leaf of `sym`. -/
def LeadsToLeaf (nd : Mem Node) (i : Nat) (sym : Sym) (c : Codeword) : Prop :=
  ∃ j, treeAt nd i c = some j ∧ (ndRead nd j).leaf = true ∧ (ndRead nd j).sym = sym

section
variable {nd : Mem Node} {i : Nat} {sym : Sym} {c : Codeword}

/-- Only the empty path leads from a leaf to a leaf. -/
theorem leadsToLeaf_of_leaf (h : (ndRead nd i).leaf = true) :
    LeadsToLeaf nd i sym c ↔ (ndRead nd i).sym = sym ∧ c = [] := by
  cases c with
  | nil => simp [LeadsToLeaf, treeAt, h]
  | cons b c => simp [LeadsToLeaf, treeAt_leaf h]

/-- A path from an inner node to a leaf leads to one of its children first. -/
theorem leadsToLeaf_of_inner (h : (ndRead nd i).leaf = false) :
    LeadsToLeaf nd i sym c ↔ ∃ b d, c = b :: d ∧ LeadsToLeaf nd (childAt nd i b) sym d := by
  cases c with
  | nil => simp [LeadsToLeaf, treeAt, h]
  | cons b c => simp [LeadsToLeaf, treeAt_inner h]

/-- A path that goes on behind a path to a leaf goes on by no bit, so both lead to the same leaf. -/
theorem LeadsToLeaf.eq_of_prefix {sym' : Sym} {d : Codeword} (h : LeadsToLeaf nd i sym c)
    (h' : LeadsToLeaf nd i sym' d) (hprefix : c <+: d) : sym = sym' ∧ c = d := by
  obtain ⟨e, rfl⟩ := hprefix
  obtain ⟨j, hj, hleaf, rfl⟩ := h
  have hrest : LeadsToLeaf nd j sym' e := by simpa [LeadsToLeaf, treeAt_append, hj] using h'
  obtain ⟨hsym, rfl⟩ := (leadsToLeaf_of_leaf hleaf).1 hrest
  exact ⟨hsym, (List.append_nil c).symm⟩

end

/-! ## The walk of ASSIGN (R161, R164) -/

/-- A walk whose path may not grow answers at a leaf only. -/
theorem leaf_of_codes_zero {nd : Mem Node} {i : Idx} {p : Codeword} {l : List (Sym × Codeword)}
    (h : codes nd 0 i p = .ok l) : (ndRead nd i.toNat).leaf = true := by
  simp only [codes] at h
  split at h
  · cases h
  · next e he =>
    obtain ⟨-, rfl⟩ := ndFollow_ok he
    split at h
    · assumption
    · cases h

theorem mem_codes_iff_of_leaf {nd : Mem Node} {n : Nat} {i : Idx} {p : Codeword} {l : List (Sym × Codeword)}
    (hleaf : (ndRead nd i.toNat).leaf = true) (h : codes nd n i p = .ok l) (sym : Sym) (c : Codeword) :
    (sym, c) ∈ l ↔ ∃ d, c = p ++ d ∧ LeadsToLeaf nd i.toNat sym d := by
  simp [codes_leaf hleaf h, leadsToLeaf_of_leaf hleaf, eq_comm, and_comm]

/-- The walk below a node gives each leaf the node's own path followed by the path to the leaf, and nothing else. -/
theorem mem_codes_iff {nd : Mem Node} {n : Nat} {i : Idx} {p : Codeword} {l : List (Sym × Codeword)}
    (h : codes nd n i p = .ok l) (sym : Sym) (c : Codeword) :
    (sym, c) ∈ l ↔ ∃ d, c = p ++ d ∧ LeadsToLeaf nd i.toNat sym d := by
  induction n generalizing i p l with
  | zero => exact mem_codes_iff_of_leaf (leaf_of_codes_zero h) h sym c
  | succ n ih =>
    cases hleaf : (ndRead nd i.toNat).leaf with
    | true => exact mem_codes_iff_of_leaf hleaf h sym c
    | false =>
      obtain ⟨a, b, ha, hb, rfl⟩ := codes_inner hleaf h
      rw [List.mem_append, ih ha, ih hb]
      simp only [leadsToLeaf_of_inner hleaf, Bool.exists_bool, childAt, List.append_assoc, List.singleton_append]
      constructor
      · rintro (⟨d, rfl, hd⟩ | ⟨d, rfl, hd⟩)
        · exact ⟨false :: d, rfl, .inl ⟨d, rfl, hd⟩⟩
        · exact ⟨true :: d, rfl, .inr ⟨d, rfl, hd⟩⟩
      · rintro ⟨_, rfl, ⟨d, rfl, hd⟩ | ⟨d, rfl, hd⟩⟩
        · exact .inl ⟨d, rfl, hd⟩
        · exact .inr ⟨d, rfl, hd⟩

/-- An assignment holds the codewords of rule R161, and nothing else. -/
theorem mem_assignment_iff {nd : Mem Node} {root : Idx} {pairs : List (Sym × Codeword)}
    (h : assignment nd root = .ok pairs) (sym : Sym) (c : Codeword) :
    (sym, c) ∈ pairs ↔ CodewordOf nd root.toNat sym c := by
  simp only [assignment] at h
  split at h
  · cases h
  · next e he =>
    obtain ⟨-, rfl⟩ := ndFollow_ok he
    split at h
    · next hleaf =>
      cases h
      simp [CodewordOf, hleaf, eq_comm (a := sym)]
    · next hinner =>
      rw [mem_codes_iff h]
      simp [CodewordOf, hinner, LeadsToLeaf]

theorem writeCodes_cons_ok {e : Sym × Codeword} {rest : List (Sym × Codeword)} {ct ct' : Mem (Option Codeword)}
    (h : writeCodes (e :: rest) ct = .ok ct') : writeCodes rest (ctWrite ct e.1 (some e.2)) = .ok ct' := by
  simp only [writeCodes] at h
  split at h
  · exact h
  · cases h

/-- Every entry of a table that was erased before an assignment was written is a pair of it. -/
theorem mem_of_ctRead_writeCodes {pairs : List (Sym × Codeword)} {ct : Mem (Option Codeword)}
    (h : writeCodes pairs [] = .ok ct) {y : Sym} {c : Codeword} (hc : ctRead ct y = some c) : (y, c) ∈ pairs := by
  refine writeCodes_keeps (P := fun ct => ∀ c, ctRead ct y = some c → (y, c) ∈ pairs) (fun ct e he hct _ d hd => ?_)
    (by simp) h c hc
  rw [ctRead_write] at hd
  split at hd
  · next hy =>
    cases hd
    subst hy
    exact he
  · exact hct d hd

/-- Writing an assignment defines the entry of each of its symbols. -/
theorem ctRead_writeCodes_ne_none {pairs : List (Sym × Codeword)} {ct ct' : Mem (Option Codeword)}
    (h : writeCodes pairs ct = .ok ct') {y : Sym} {c : Codeword} (hc : (y, c) ∈ pairs) : ctRead ct' y ≠ none := by
  induction pairs generalizing ct with
  | nil => cases hc
  | cons e rest ih =>
    have hrest := writeCodes_cons_ok h
    rcases List.mem_cons.1 hc with rfl | hc
    · refine writeCodes_keeps (P := fun ct => ctRead ct y ≠ none) (fun ct e _ hct _ => ?_) ?_ hrest
      · rw [ctRead_write]
        split
        · nofun
        · exact hct
      · rw [ctRead_write, if_pos rfl]
        nofun
    · exact ih hrest hc

/-- Where no symbol has two codewords, ASSIGN's operation leaves exactly the codewords of rule R161 in CT (R164). -/
theorem ctRead_assignCodes {nd : Mem Node} {root : Idx} {ct : Mem (Option Codeword)}
    (h : assignCodes nd root = .ok ct)
    (hunique : ∀ y c d, CodewordOf nd root.toNat y c → CodewordOf nd root.toNat y d → c = d) (y : Sym) (c : Codeword) :
    ctRead ct y = some c ↔ CodewordOf nd root.toNat y c := by
  obtain ⟨pairs, hpairs, hwrite⟩ := assignCodes_ok h
  have hread {d : Codeword} (hd : ctRead ct y = some d) : CodewordOf nd root.toNat y d :=
    (mem_assignment_iff hpairs y d).1 (mem_of_ctRead_writeCodes hwrite hd)
  refine ⟨hread, fun hc => ?_⟩
  obtain ⟨d, hd⟩ :=
    Option.ne_none_iff_exists'.1 (ctRead_writeCodes_ne_none hwrite ((mem_assignment_iff hpairs y c).2 hc))
  rw [hunique y c d hc (hread hd), hd]

/-! ## The paths of a built tree (R44 items 2 and 3) -/

/-- The children that ND[k] names. -/
def childrenOf (nd : Mem Node) (k : Nat) : List Nat :=
  if (ndRead nd k).leaf then [] else [(ndRead nd k).left.toNat, (ndRead nd k).right.toNat]

/-- The children of the tree, counted node by node. -/
theorem count_ndChildren (tb : TbState) (i : Nat) :
    (ndChildren tb).count i = ∑ k ∈ Finset.range tb.nnode.toNat, (childrenOf tb.nd k).count i := by
  rw [ndChildren, List.count_flatMap]
  rfl

theorem childAt_mem_childrenOf {nd : Mem Node} {k : Nat} (h : (ndRead nd k).leaf = false) (b : Bool) :
    childAt nd k b ∈ childrenOf nd k := by
  cases b <;> simp [childrenOf, childAt, h]

theorem root_lt_nnode {tb : TbState} (htree : TbBuilt tb) : tb.root.toNat < tb.nnode.toNat :=
  Nat.lt_of_succ_le htree.root_eq.le

section
variable {tb : TbState} (hleaves : TbLeaves tb) (htree : TbBuilt tb)
include hleaves htree

/-- The leaves of a built tree are the nodes that LDSYM loaded (R44 items 2 and 3). -/
theorem leaf_iff_lt_nsym {k : Nat} (hk : k < tb.nnode.toNat) : (ndRead tb.nd k).leaf = true ↔ k < tb.nsym.toNat := by
  constructor
  · intro hleaf
    by_contra hge
    obtain ⟨hinner, -⟩ := htree.internal k (Nat.not_lt.1 hge) hk
    simp [hleaf] at hinner
  · intro hlt
    obtain ⟨hleaf, -⟩ := hleaves.leaf_entry k hlt
    exact hleaf

theorem nsym_le_of_inner {k : Nat} (hk : k < tb.nnode.toNat) (hinner : (ndRead tb.nd k).leaf = false) :
    tb.nsym.toNat ≤ k := Nat.not_lt.1 fun hlt => by simp [(leaf_iff_lt_nsym hleaves htree hk).2 hlt] at hinner

/-- A child is older than its parent (R44 item 3). -/
theorem childAt_lt {k : Nat} (hk : k < tb.nnode.toNat) (hinner : (ndRead tb.nd k).leaf = false) (b : Bool) :
    childAt tb.nd k b < k := by
  obtain ⟨-, -, hleft, hright, -⟩ := htree.internal k (nsym_le_of_inner hleaves htree hk hinner) hk
  cases b
  · exact hleft
  · exact hright

/-- Each bit of a path leads to an older node. -/
theorem treeAt_add_length_le {i j : Nat} {c : Codeword} (hi : i < tb.nnode.toNat) (h : treeAt tb.nd i c = some j) :
    j + c.length ≤ i := by
  induction c generalizing i with
  | nil => cases h; exact le_rfl
  | cons b c ih =>
    cases hleaf : (ndRead tb.nd i).leaf with
    | true => rw [treeAt_leaf hleaf] at h; cases h
    | false =>
      rw [treeAt_inner hleaf] at h
      have hlt := childAt_lt hleaves htree hi hleaf b
      have hrest := ih (hlt.trans hi) h
      rw [List.length_cons]
      omega

/-- No two pointers of a built tree name the same node (R44 item 3). -/
theorem childAt_injective {k k' : Nat} {b b' : Bool} (hk : k < tb.nnode.toNat) (hk' : k' < tb.nnode.toNat)
    (hinner : (ndRead tb.nd k).leaf = false) (hinner' : (ndRead tb.nd k').leaf = false)
    (h : childAt tb.nd k b = childAt tb.nd k' b') : k = k' ∧ b = b' := by
  have hlt := childAt_lt hleaves htree hk hinner b
  have hroot := htree.root_eq
  have hone := htree.one_parent (childAt tb.nd k b) (hlt.trans hk) (by omega)
  have hkk' : k = k' := by
    by_contra hne
    have hfirst := List.count_pos_iff.2 (childAt_mem_childrenOf hinner b)
    have hsecond := List.count_pos_iff.2 (childAt_mem_childrenOf hinner' b')
    rw [count_ndChildren, ← sum_erase_erase (Finset.mem_range.2 hk)
      (Finset.mem_erase.2 ⟨Ne.symm hne, Finset.mem_range.2 hk'⟩)] at hone
    rw [← h] at hsecond
    omega
  subst hkk'
  obtain ⟨-, -, -, -, hsides, -⟩ := htree.internal k (nsym_le_of_inner hleaves htree hk hinner) hk
  rw [Ne, ← BitVec.toNat_inj] at hsides
  refine ⟨rfl, ?_⟩
  cases b <;> cases b'
  · rfl
  · exact absurd h hsides
  · exact absurd h.symm hsides
  · rfl

/-- A node of a built tree is reached from the root by one path only. -/
theorem path_unique {c d : Codeword} {j : Nat} (hc : treeAt tb.nd tb.root.toNat c = some j)
    (hd : treeAt tb.nd tb.root.toNat d = some j) : c = d := by
  have hroot := root_lt_nnode htree
  induction c using List.reverseRecOn generalizing d j with
  | nil =>
    cases hc
    have hlen := treeAt_add_length_le hleaves htree hroot hd
    exact (List.length_eq_zero_iff.1 (by omega)).symm
  | append_singleton c b ih =>
    cases d using List.reverseRecOn with
    | nil =>
      cases hd
      have hlen := treeAt_add_length_le hleaves htree hroot hc
      simp at hlen
    | append_singleton d b' =>
      obtain ⟨k, hk, hinner, rfl⟩ := treeAt_concat hc
      obtain ⟨k', hk', hinner', hsame⟩ := treeAt_concat hd
      have hlen := treeAt_add_length_le hleaves htree hroot hk
      have hlen' := treeAt_add_length_le hleaves htree hroot hk'
      obtain ⟨rfl, rfl⟩ := childAt_injective hleaves htree (by omega) (by omega) hinner' hinner hsame
      rw [ih hk hk']

/-- In a built tree no symbol has two codewords: its leaf is one, and so is the path to it. -/
theorem codewordOf_unique (y : Sym) (c d : Codeword) (hc : CodewordOf tb.nd tb.root.toNat y c)
    (hd : CodewordOf tb.nd tb.root.toNat y d) : c = d := by
  have hroot := root_lt_nnode htree
  have hleafLt {e : Codeword} {i : Nat} (he : treeAt tb.nd tb.root.toNat e = some i)
      (hleaf : (ndRead tb.nd i).leaf = true) : i < tb.nsym.toNat := by
    have hlen := treeAt_add_length_le hleaves htree hroot he
    exact (leaf_iff_lt_nsym hleaves htree (by omega)).1 hleaf
  rcases hc with ⟨hleaf, -, rfl⟩ | ⟨hinner, i, hi, hileaf, rfl⟩ <;>
    rcases hd with ⟨hleaf', -, rfl⟩ | ⟨hinner', j, hj, hjleaf, hsym⟩
  · rfl
  · rw [hleaf] at hinner'; cases hinner'
  · rw [hinner] at hleaf'; cases hleaf'
  · obtain rfl := hleaves.sym_inj j (hleafLt hj hjleaf) i (hleafLt hi hileaf) hsym
    exact path_unique hleaves htree hi hj

/-- A codeword of a built tree has at least one bit, and past the first no more than the inner nodes allow (R165). -/
theorem codewordOf_length {y : Sym} {c : Codeword} (h : CodewordOf tb.nd tb.root.toNat y c) :
    1 ≤ c.length ∧ c.length ≤ max 1 (tb.nsym.toNat - 1) := by
  rcases h with ⟨-, -, rfl⟩ | ⟨hinner, i, hi, hileaf, -⟩
  · simp
  · have hcnt := htree.nnode_eq
    have hroot := htree.root_eq
    cases c using List.reverseRecOn with
    | nil => cases hi; rw [hinner] at hileaf; cases hileaf
    | append_singleton c b =>
      obtain ⟨k, hk, hkinner, -⟩ := treeAt_concat hi
      have hlen := treeAt_add_length_le hleaves htree (root_lt_nnode htree) hk
      have hmin := nsym_le_of_inner hleaves htree (by omega) hkinner
      rw [List.length_append, List.length_singleton]
      omega

end

/-! ## ASSIGN (R161 to R165) -/

/-- A fault-free ASSIGN in its phase writes the codebook that its operation answers (R164). -/
theorem exec_assign_of_built {s : State} {ct : Mem (Option Codeword)} (hf : s.latch.fatal = false)
    (hbuilt : s.tb.built = true) (hclosed : s.bp.active = false) (h : assignCodes s.tb.nd s.tb.root = .ok ct) :
    exec .assign s = .next (setCt ct s) := by
  have hrun : exec .assign s = _ := classW_run (i := .assign) rfl hf _
  rw [hrun, if_neg (by simp [hbuilt]), if_neg (by simp [hclosed]), h]

/-- Settles O33: the walk is exactly the paths of the tree, and a built tree has one path to each symbol. -/
theorem assignGivesEachLeafItsPath : Obligations.AssignGivesEachLeafItsPath := by
  intro s h hf hbuilt hclosed
  obtain ⟨ct, hct⟩ := assignCodes_of_tree h hbuilt
  exact ⟨setCt ct s, exec_assign_of_built hf hbuilt hclosed hct, rfl,
    ctRead_assignCodes hct (codewordOf_unique h.leaves (h.after hbuilt))⟩

/-- Where the codeword of `y` begins that of `z`, the two are one: a path that has met a leaf does not go on. -/
theorem codewordOf_eq_of_prefix {nd : Mem Node} {root : Nat} {y z : Sym} {c d : Codeword}
    (hc : CodewordOf nd root y c) (hd : CodewordOf nd root z d) (hprefix : c <+: d) : y = z ∧ c = d := by
  rcases hc with ⟨hleaf, rfl, rfl⟩ | ⟨hinner, hpath⟩ <;> rcases hd with ⟨hleaf', rfl, rfl⟩ | ⟨hinner', hpath'⟩
  · exact ⟨rfl, rfl⟩
  · rw [hleaf] at hinner'; cases hinner'
  · rw [hinner] at hleaf'; cases hleaf'
  · exact LeadsToLeaf.eq_of_prefix hpath hpath' hprefix

/-- Settles O34: by O33 the codebook holds the paths of the tree to its leaves. -/
theorem assignedCodebookIsPrefixFree : Obligations.AssignedCodebookIsPrefixFree := by
  intro s t h hf hbuilt hclosed hexec
  obtain ⟨t', hexec', -, hbook⟩ := assignGivesEachLeafItsPath s h hf hbuilt hclosed
  cases hexec.symm.trans hexec'
  refine ⟨fun y z c d hy hz => ?_, fun y c hy => ?_⟩
  · exact codewordOf_eq_of_prefix ((hbook y c).1 hy) ((hbook z d).1 hz)
  · exact codewordOf_length h.leaves (h.after hbuilt) ((hbook y c).1 hy)

end Sys2Proof.Machine

/-! SUPPORT. Proofs of the statements of 43_bit_packer.md: the packer's commands as functions of the bits held, the
packed stream as `pack` (R187), and the round trip through the decoder (R214). -/

namespace Sys2Proof.Machine

/-! ## The packer's commands (R183 to R186) -/

/-- A stream just opened: nothing is held (R183). -/
abbrev openStream (s : State) : State := setBp { acc := 0, nacc := 0, active := true } s

/-- ENCSTART opens a stream in every phase (R183). -/
theorem execEncstart_run {s : State} (hf : s.latch.fatal = false) : exec .encstart s = .next (openStream s) :=
  classW_run (i := .encstart) rfl hf _

/-- ENCBYTE in an open stream packs the codeword of its byte (R184). -/
theorem execEncbyte_run {s : State} {b : Byte} {c : Codeword} (hf : s.latch.fatal = false)
    (hopen : s.bp.active = true) (hc : ctRead s.ca.ct (byteSym b) = some c) :
    exec (.encbyte b) s = .next (pushCodeword c s) := by
  have hrun : exec (.encbyte b) s = _ := classW_run (i := .encbyte b) rfl hf _
  rw [hrun, hc, hopen]
  rfl

/-- Settles O40: neither command has a check of its own. -/
theorem encstartOpensAndEncstopAbandons : Obligations.EncstartOpensAndEncstopAbandons := fun _ hf =>
  ⟨execEncstart_run hf, classW_run (i := .encstop) rfl hf _⟩

/-- Settles O43: the codeword is looked up before any bit is pushed, and a fault writes the latch only. -/
theorem unresolvedSymbolFaults : Obligations.UnresolvedSymbolFaults := by
  refine fun s hf hopen => ⟨fun b hnone => ?_, fun hnone => ?_⟩
  · have hrun : exec (.encbyte b) s = _ := classW_run (i := .encbyte b) rfl hf _
    rw [hrun, hopen, show ctRead s.ca.ct (byteSym b) = none from hnone]
    exact fail_of_clear .unresolvedSymbol (.encbyte b) hf
  · have hrun : exec .encend s = _ := classW_run (i := .encend) rfl hf _
    rw [hrun, hopen, hnone]
    exact fail_of_clear .unresolvedSymbol .encend hf

@[simp] theorem pushCodeword_ca (c : Codeword) (s : State) : (pushCodeword c s).ca = s.ca := by
  obtain ⟨ys, h, -⟩ := pushCodeword_frame c s
  rw [h]

@[simp] theorem pushCodeword_active (c : Codeword) (s : State) : (pushCodeword c s).bp.active = s.bp.active := by
  obtain ⟨ys, -, h⟩ := pushCodeword_frame c s
  exact h

/-- Settles O41: pushing a codeword moves bits from the packer to ENC_OUT without loss (`pushCodeword_bits`). -/
theorem encbytePacksTheCodeword : Obligations.EncbytePacksTheCodeword := by
  intro s b c hbp hf hopen hc
  obtain ⟨ys, hpush, hbits⟩ := pushCodeword_bits c s
  have hstays : (pushCodeword c s).bp.active = true := (pushCodeword_active c s).trans hopen
  exact ⟨pushCodeword c s, ys, execEncbyte_run hf hopen hc, hpush, hbits, hstays,
    pushCodeword_acc_lt c hbp.acc_lt, fun hclosed => by rw [hstays] at hclosed; cases hclosed⟩

/-! ## The packed stream (R187) -/

/-- One ENCBYTE per byte in an open stream packs the concatenated codewords; what follows runs after that (R184). -/
theorem execAll_encstr (x : List Byte) (code : Sym → Codeword) (rest : List Instr) {s : State}
    (hf : s.latch.fatal = false) (hopen : s.bp.active = true)
    (hcode : ∀ b ∈ x, ctRead s.ca.ct (byteSym b) = some (code (byteSym b))) :
    execAll (encstr x ++ rest) s = execAll rest (pushCodeword (x.flatMap fun b => code (byteSym b)) s) := by
  induction x generalizing s with
  | nil => rfl
  | cons b x ih =>
    have hb := execEncbyte_run hf hopen (hcode b List.mem_cons_self)
    have hx := ih (s := pushCodeword (code (byteSym b)) s) (by simpa using hf) (by simpa using hopen)
      fun b' hb' => by simpa using hcode b' (List.mem_cons_of_mem b hb')
    rw [List.flatMap_cons, pushCodeword_append, ← hx]
    exact execAll_cons_of_next hb _

/-- The codewords of an input in order, the sentinel's last (R187). -/
def messageBits (code : Sym → Codeword) (x : List Byte) : List Bool :=
  (x.flatMap fun b => code (byteSym b)) ++ code eos

/-- The encoder's commands on an input: open, push every codeword and the sentinel's, close (R183 to R185). -/
theorem execAll_packSeq {s : State} {x : List Byte} {code : Sym → Codeword} (hf : s.latch.fatal = false)
    (hcode : ∀ b ∈ x, ctRead s.ca.ct (byteSym b) = some (code (byteSym b)))
    (heos : ctRead s.ca.ct eos = some (code eos)) :
    execAll (packSeq x) s = .next (closeStream (pushCodeword (messageBits code x) (openStream s))) := by
  have hend := execEncend_run (s := pushCodeword (x.flatMap fun b => code (byteSym b)) (openStream s))
    (by simpa using hf) (by simp) (by simpa using heos)
  calc execAll (packSeq x) s
      = execAll (encstr x ++ [Instr.encend]) (openStream s) :=
        execAll_cons_of_next (execEncstart_run hf) (encstr x ++ [Instr.encend])
    _ = execAll [.encend] (pushCodeword (x.flatMap fun b => code (byteSym b)) (openStream s)) :=
        execAll_encstr x code [.encend] (s := openStream s) hf rfl hcode
    _ = .next (closeStream (pushCodeword (messageBits code x) (openStream s))) := by
        rw [execAll_cons_of_next hend, execAll, ← pushCodeword_append]
        rfl

/-- The encoder's commands on an input append bytes to ENC_OUT whose bits are the codewords and then 0 to 7 zeros
(R182, R187). -/
theorem execAll_packSeq_bits {s : State} {x : List Byte} {code : Sym → Codeword} (hf : s.latch.fatal = false)
    (hcode : ∀ b ∈ x, ctRead s.ca.ct (byteSym b) = some (code (byteSym b)))
    (heos : ctRead s.ca.ct eos = some (code eos)) :
    ∃ ys zeros, execAll (packSeq x) s = .next { s with
        bp := { acc := 0, nacc := 0, active := false }
        out := { s.out with encOut := s.out.encOut ++ ys } } ∧
      ys.flatMap byteBits = messageBits code x ++ List.replicate zeros false ∧ zeros ≤ 7 := by
  rw [execAll_packSeq hf hcode heos]
  obtain ⟨xs, hpush, hpushBits⟩ := pushCodeword_bits (messageBits code x) (openStream s)
  obtain ⟨ys, zeros, hclose, hcloseBits, hzeros⟩ := closeStream_bits (pushCodeword (messageBits code x) (openStream s))
  refine ⟨xs ++ ys, zeros, ?_, ?_, hzeros⟩
  · rw [hclose, hpush]
    simp [setBp]
  · rw [List.flatMap_append, hcloseBits, ← List.append_assoc, hpushBits]
    rfl

/-- Bit `i` of the first byte is bit 7 - i of it, and the bytes behind it follow (R74). -/
theorem getD_byteBits_append (y : Byte) (bits : List Bool) (i : Nat) :
    (byteBits y ++ bits).getD i false = if i < 8 then y.getLsbD (7 - i) else bits.getD (i - 8) false := by
  have hlen : (byteBits y).length = 8 := rfl
  split
  · next hi =>
    rw [List.getD_append _ _ _ _ (hlen ▸ hi)]
    simp [byteBits, List.getD, hi]
  · next hi => rw [List.getD_append_right _ _ _ _ (by omega), hlen]

/-- Bit `i` of a byte sequence is in byte i / 8, from the top (R74). -/
theorem getD_flatMap_byteBits (ys : List Byte) (i : Nat) :
    (ys.flatMap byteBits).getD i false = (ys.getD (i / 8) 0).getLsbD (7 - i % 8) := by
  induction ys generalizing i with
  | nil => simp
  | cons y ys ih =>
    rw [List.flatMap_cons, getD_byteBits_append]
    split
    · next hi =>
      rw [Nat.div_eq_of_lt hi, Nat.mod_eq_of_lt hi]
      rfl
    · next hi =>
      obtain ⟨j, rfl⟩ := Nat.exists_eq_add_of_le (Nat.not_lt.1 hi)
      rw [ih, Nat.add_sub_cancel_left, Nat.add_mod_left, Nat.add_div_left j (by decide)]
      rfl

theorem length_flatMap_byteBits (ys : List Byte) : (ys.flatMap byteBits).length = 8 * ys.length := by
  simp [List.length_flatMap, byteBits, mul_comm]

/-- Bytes that are a bit sequence and then 0 to 7 zeros are its `pack` (R187). -/
theorem isPacked_of_bits {bits : List Bool} {ys : List Byte} {zeros : Nat}
    (h : ys.flatMap byteBits = bits ++ List.replicate zeros false) (hzeros : zeros ≤ 7) : IsPacked bits ys := by
  have hlen : 8 * ys.length = bits.length + zeros := by
    rw [← length_flatMap_byteBits, h, List.length_append, List.length_replicate]
  refine ⟨by omega, fun i _ => ?_⟩
  rw [← getD_flatMap_byteBits, h]
  by_cases hi : i < bits.length
  · rw [List.getD_append _ _ _ _ hi]
  · rw [List.getD_append_right _ _ _ _ (Nat.not_lt.1 hi), List.getD_eq_default _ _ (Nat.not_lt.1 hi)]
    exact List.getElem?_getD_replicate_default_eq _ _ _

/-- Settles O44: the emitted bits are the codewords and at most 7 zeros, which is what `pack` says of the bytes. -/
theorem packedStreamIsPackOfTheCodewords : Obligations.PackedStreamIsPackOfTheCodewords := by
  intro s x code hf hcode heos
  obtain ⟨ys, zeros, hrun, hbits, hzeros⟩ := execAll_packSeq_bits hf hcode heos
  exact ⟨ys, hrun, isPacked_of_bits hbits hzeros⟩

/-! ## Decoding as a function of the bits (R207) -/

section

variable {tn : Mem TrieNode} {p : Idx} {b : Bool} (bits : List Bool)

theorem walkBits_dead (h : childOf (tnRead tn p) b = 0) :
    walkBits tn p (b :: bits) = { walkBits tn 0 bits with dead := (walkBits tn 0 bits).dead + 1 } := by
  simp [walkBits, h]

theorem walkBits_eos (h : childOf (tnRead tn p) b ≠ 0) (hleaf : (tnRead tn (childOf (tnRead tn p) b)).leaf = true)
    (heos : (tnRead tn (childOf (tnRead tn p) b)).sym = eos) :
    walkBits tn p (b :: bits) = { cur := 0, bytes := [], dead := 0, ended := true, rest := bits } := by
  rw [walkBits, if_neg h, if_pos hleaf, if_pos heos]

theorem walkBits_byte (h : childOf (tnRead tn p) b ≠ 0) (hleaf : (tnRead tn (childOf (tnRead tn p) b)).leaf = true)
    (hbyte : (tnRead tn (childOf (tnRead tn p) b)).sym ≠ eos) :
    walkBits tn p (b :: bits) = { walkBits tn 0 bits with
      bytes := (tnRead tn (childOf (tnRead tn p) b)).sym.setWidth 8 :: (walkBits tn 0 bits).bytes } := by
  rw [walkBits, if_neg h, if_pos hleaf, if_neg hbyte]

theorem walkBits_inner (h : childOf (tnRead tn p) b ≠ 0)
    (hinner : (tnRead tn (childOf (tnRead tn p) b)).leaf = false) :
    walkBits tn p (b :: bits) = walkBits tn (childOf (tnRead tn p) b) bits := by
  rw [walkBits, if_neg h, if_neg (by simp [hinner])]

end

/-! ## The bit cursor (R196, R197) -/

/-- The cursor holds exactly the bits `bits`, the next one first; the bits taken have left zeros (R197). -/
def CursorHolds (bu : BuState) (bits : List Bool) : Prop :=
  bu.urem.toNat = bits.length ∧ byteBits bu.ubyte = bits ++ List.replicate (8 - bits.length) false

/-- A loaded byte is held whole (R196). -/
theorem cursorHolds_buLoad (b : Byte) (s : State) : CursorHolds (buLoad b s).bu (byteBits b) :=
  ⟨rfl, (List.append_nil _).symm⟩

/-- Taking a bit takes the first of those held and leaves the others (R197). -/
theorem CursorHolds.take {s : State} {b : Bool} {bits : List Bool} (h : CursorHolds s.bu (b :: bits)) :
    buBit s = b ∧ CursorHolds (buAdvance s).bu bits := by
  obtain ⟨hurem, hbits⟩ := h
  have hroom : bits.length + 1 ≤ 8 := by
    have hlen := congrArg List.length hbits
    simp only [byteBits, List.length_map, List.length_reverse, List.length_range, List.length_append, List.length_cons,
      List.length_replicate] at hlen
    omega
  have htop : byteBits s.bu.ubyte = buBit s :: lowBits s.bu.ubyte 7 := rfl
  have hshift : byteBits (s.bu.ubyte <<< 1) = lowBits s.bu.ubyte 7 ++ [false] :=
    lowBits_shiftLeft s.bu.ubyte (n := 7) (k := 1) le_rfl
  rw [htop, List.cons_append, List.length_cons] at hbits
  obtain ⟨hbit, hlow⟩ := List.cons.inj hbits
  refine ⟨hbit, ?_, ?_⟩
  · rw [buAdvance_bu, urem_pred_toNat (by simp [hurem]), hurem, List.length_cons, Nat.add_sub_cancel]
  · rw [buAdvance_bu, hshift, hlow, List.append_assoc, ← List.replicate_succ', Nat.sub_add_eq,
      Nat.sub_add_cancel (Nat.le_sub_of_add_le' hroom)]

/-! ## DECBYTE as a walk (R207, R210) -/

/-- The machine after a decoder in RUN has made the walk `w`, with `bu` left in the cursor. -/
def walked (w : Walk) (bu : BuState) (s : State) : State := { s with
  td := { s.td with
    cur := w.cur, icwcnt := icwNext^[w.dead] s.td.icwcnt, tdst := if w.ended then .done else .run }
  bu := bu
  out := { s.out with decOut := s.out.decOut ++ w.bytes } }

theorem decodeLoop_of_empty (n : Nat) {s : State} (h : s.bu.urem.toNat = 0) : decodeLoop n s = s := by
  cases n with
  | zero => rfl
  | succ n => rw [decodeLoop, if_neg (by simp [h])]

theorem decodeLoop_of_done (n : Nat) {s : State} (h : s.td.tdst = .done) : decodeLoop n s = s := by
  cases n with
  | zero => rfl
  | succ n => rw [decodeLoop, if_neg (by simp [h])]

/-- One bit in RUN is the first of a walk: either the walk goes on from the state after it, or it was the last bit of
END_OF_STREAM and the walk ends there (R207). -/
theorem walked_cons (b : Bool) (bits : List Bool) {s : State} (hrun : s.td.tdst = .run) :
    ((tdStep b s).td.tdst = .run ∧
      (walkBits s.td.tn s.td.cur (b :: bits)).rest = (walkBits (tdStep b s).td.tn (tdStep b s).td.cur bits).rest ∧
      ∀ bu, walked (walkBits s.td.tn s.td.cur (b :: bits)) bu s =
        walked (walkBits (tdStep b s).td.tn (tdStep b s).td.cur bits) bu (tdStep b s)) ∨
    ((tdStep b s).td.tdst = .done ∧ (walkBits s.td.tn s.td.cur (b :: bits)).rest = bits ∧
      walked (walkBits s.td.tn s.td.cur (b :: bits)) s.bu s = tdStep b s) := by
  rcases tdStep_cases b s with ⟨hchild, h⟩ | ⟨hchild, hleaf, heos, h⟩ | ⟨hchild, hleaf, hbyte, h⟩ | ⟨hchild, hinner, h⟩
  · rw [h, walkBits_dead bits hchild]
    exact .inl ⟨hrun, rfl, fun _ => rfl⟩
  · rw [h, walkBits_eos bits hchild hleaf heos]
    exact .inr ⟨rfl, rfl, by simp [walked]⟩
  · rw [h, walkBits_byte bits hchild hleaf hbyte]
    exact .inl ⟨hrun, rfl, fun _ => by simp [walked]⟩
  · rw [h, walkBits_inner bits hchild hinner]
    exact .inl ⟨hrun, rfl, fun _ => rfl⟩

/-- The loop of DECBYTE in RUN walks the bits held and leaves the bits that the walk does not take (R210). -/
theorem decodeLoop_walks (n : Nat) {s : State} {bits : List Bool} (hbits : CursorHolds s.bu bits)
    (hrun : s.td.tdst = .run) (hn : bits.length ≤ n) :
    ∃ bu, decodeLoop n s = walked (walkBits s.td.tn s.td.cur bits) bu s ∧
      CursorHolds bu (walkBits s.td.tn s.td.cur bits).rest := by
  induction bits generalizing n s with
  | nil =>
    refine ⟨s.bu, ?_, hbits⟩
    rw [decodeLoop_of_empty n hbits.1]
    simp [walked, walkBits, ← hrun]
  | cons b bits ih =>
    obtain ⟨n, rfl⟩ := Nat.exists_eq_add_of_le' (Nat.le_of_add_left_le hn)
    obtain ⟨hbit, hrest⟩ := hbits.take
    rw [← tdStep_bu b] at hrest
    rw [decodeLoop, if_pos ⟨by simp [hbits.1], hrun⟩, hbit]
    rcases walked_cons b bits (s := buAdvance s) hrun with ⟨hphase, htaken, hwalk⟩ | ⟨hphase, htaken, hwalk⟩
    · obtain ⟨bu, hloop, hbu⟩ := ih n hrest hphase (Nat.le_of_succ_le_succ hn)
      exact ⟨bu, hloop.trans (hwalk bu).symm, (congrArg (CursorHolds bu) htaken).mpr hbu⟩
    · rw [tdStep_bu] at hrest
      exact ⟨(buAdvance s).bu, (decodeLoop_of_done n hphase).trans hwalk.symm,
        (congrArg (CursorHolds (buAdvance s).bu) htaken).mpr hrest⟩

/-- DECBYTE in RUN with a nonempty trie walks the bits of its byte (R210). -/
theorem execDecbyte_run {s : State} (b : Byte) (hf : s.latch.fatal = false) (hrun : s.td.tdst = .run)
    (htrie : ¬((tnRead s.td.tn 0).child0 = 0 ∧ (tnRead s.td.tn 0).child1 = 0)) :
    ∃ bu, exec (.decbyte b) s = .next (walked (walkBits s.td.tn s.td.cur (byteBits b)) bu s) ∧
      CursorHolds bu (walkBits s.td.tn s.td.cur (byteBits b)).rest := by
  obtain ⟨bu, hloop, hbu⟩ := decodeLoop_walks 8 (cursorHolds_buLoad b s) hrun le_rfl
  refine ⟨bu, ?_, hbu⟩
  refine (classW_run (i := .decbyte b) rfl hf _).trans ?_
  simp only [hrun, if_neg htrie]
  exact congrArg Host.Outcome.next hloop

/-! ## A walk over several bytes (R207, R286) -/

/-- The walk `w` and then the walk `v` from where it stands. -/
def Walk.andThen (w v : Walk) : Walk :=
  { cur := v.cur, bytes := w.bytes ++ v.bytes, dead := w.dead + v.dead, ended := v.ended, rest := v.rest }

theorem walked_andThen (w v : Walk) (bu bu' : BuState) (s : State) :
    walked v bu' (walked w bu s) = walked (w.andThen v) bu' s := by
  simp [walked, Walk.andThen, Function.iterate_add_apply, Nat.add_comm w.dead]

/-- More bits behind a walk that met END_OF_STREAM are not taken; behind any other the walk goes on (R207, R210). -/
theorem walkBits_append (tn : Mem TrieNode) (p : Idx) (bs cs : List Bool) :
    walkBits tn p (bs ++ cs) = if (walkBits tn p bs).ended
      then { walkBits tn p bs with rest := (walkBits tn p bs).rest ++ cs }
      else (walkBits tn p bs).andThen (walkBits tn (walkBits tn p bs).cur cs) := by
  induction bs generalizing p with
  | nil => simp [walkBits, Walk.andThen]
  | cons b bs ih =>
    rw [List.cons_append]
    by_cases hchild : childOf (tnRead tn p) b = 0
    · rw [walkBits_dead _ hchild, walkBits_dead _ hchild, ih]
      split <;> simp [Walk.andThen, Nat.add_right_comm]
    by_cases hleaf : (tnRead tn (childOf (tnRead tn p) b)).leaf = true
    · by_cases heos : (tnRead tn (childOf (tnRead tn p) b)).sym = eos
      · rw [walkBits_eos _ hchild hleaf heos, walkBits_eos _ hchild hleaf heos]
        rfl
      · rw [walkBits_byte _ hchild hleaf heos, walkBits_byte _ hchild hleaf heos, ih]
        split <;> rfl
    · rw [walkBits_inner _ hchild (by simpa using hleaf), walkBits_inner _ hchild (by simpa using hleaf), ih]

/-- DECBYTEs whose bits end in the last byte with END_OF_STREAM walk these bits: no byte comes after DONE (R210). -/
theorem execAll_dechex_walks (ys : List Byte) {s : State} (hf : s.latch.fatal = false) (hrun : s.td.tdst = .run)
    (htrie : ¬((tnRead s.td.tn 0).child0 = 0 ∧ (tnRead s.td.tn 0).child1 = 0))
    (hended : (walkBits s.td.tn s.td.cur (ys.flatMap byteBits)).ended = true)
    (hrest : (walkBits s.td.tn s.td.cur (ys.flatMap byteBits)).rest.length ≤ 7) :
    ∃ bu, execAll (dechex ys) s = .next (walked (walkBits s.td.tn s.td.cur (ys.flatMap byteBits)) bu s) := by
  induction ys generalizing s with
  | nil => cases hended
  | cons y ys ih =>
    obtain ⟨bu, hy, -⟩ := execDecbyte_run y hf hrun htrie
    rw [List.flatMap_cons, walkBits_append] at hended hrest ⊢
    change ∃ _, execAll (.decbyte y :: dechex ys) s = _
    rw [execAll_cons_of_next hy]
    split at hended
    · next hdone =>
      rw [if_pos hdone] at hrest ⊢
      obtain rfl : ys = [] := by
        rw [List.length_append, length_flatMap_byteBits] at hrest
        exact List.length_eq_zero_iff.1 (by omega)
      exact ⟨bu, by simp [dechex, execAll, walked]⟩
    · next hopen =>
      rw [if_neg hopen] at hrest ⊢
      obtain ⟨bu', hys⟩ := ih (s := walked (walkBits s.td.tn s.td.cur (byteBits y)) bu s) hf (by simp [walked, hopen])
        htrie hended hrest
      exact ⟨bu', hys.trans (congrArg Host.Outcome.next (walked_andThen _ _ bu bu' s))⟩

/-! ## Walking codewords (R204, R207) -/

/-- A codeword of the trie leads to a leaf, and the bits behind it are walked after that leaf (R207). -/
theorem walkBits_codeword {tn : Mem TrieNode} {c : Codeword} {sym : Sym} {p : Idx} (h : TrieLeads tn p c sym)
    (bits : List Bool) : walkBits tn p (c ++ bits) =
      if sym = eos then { cur := 0, bytes := [], dead := 0, ended := true, rest := bits }
      else { walkBits tn 0 bits with bytes := sym.setWidth 8 :: (walkBits tn 0 bits).bytes } := by
  induction c generalizing p with
  | nil => exact h.elim
  | cons b c ih =>
    cases c with
    | nil =>
      obtain ⟨hchild, hleaf, rfl⟩ := h
      split
      · next heos => exact walkBits_eos bits hchild hleaf heos
      · next hbyte => exact walkBits_byte bits hchild hleaf hbyte
    | cons b' c =>
      obtain ⟨hchild, hinner, hrest⟩ := h
      rw [List.cons_append, walkBits_inner _ hchild hinner]
      exact ih hrest

/-- The symbol of a byte is walked to that byte. -/
theorem byteSym_setWidth (b : Byte) : (byteSym b).setWidth 8 = b := by
  simp [byteSym]

/-- The codewords of an input, the sentinel's last, are walked to the input; what follows them is not taken (R214). -/
theorem walkBits_messageBits {tn : Mem TrieNode} {code : Sym → Codeword} {x : List Byte}
    (hx : ∀ b ∈ x, TrieLeads tn 0 (code (byteSym b)) (byteSym b)) (heos : TrieLeads tn 0 (code eos) eos)
    (bits : List Bool) : walkBits tn 0 (messageBits code x ++ bits) =
      { cur := 0, bytes := x, dead := 0, ended := true, rest := bits } := by
  induction x with
  | nil => exact (walkBits_codeword heos bits).trans (if_pos rfl)
  | cons b x ih =>
    have hcons : messageBits code (b :: x) ++ bits = code (byteSym b) ++ (messageBits code x ++ bits) := by
      simp [messageBits]
    rw [hcons, walkBits_codeword (hx b List.mem_cons_self), if_neg (byteSym_ne_eos b), byteSym_setWidth,
      ih fun b' hb' => hx b' (List.mem_cons_of_mem b hb')]

/-- A trie that leads some bit sequence to a leaf has a child at its root. -/
theorem TrieLeads.root_child {tn : Mem TrieNode} {p : Idx} {c : Codeword} {sym : Sym} (h : TrieLeads tn p c sym) :
    ¬((tnRead tn p).child0 = 0 ∧ (tnRead tn p).child1 = 0) := by
  rintro ⟨h0, h1⟩
  have hnone : ∀ b, childOf (tnRead tn p) b = 0 := fun b => by cases b <;> assumption
  match c, h with
  | [], h => exact h
  | [b], ⟨hchild, _⟩ | b :: _ :: _, ⟨hchild, _⟩ => exact hchild (hnone b)

/-- A decode call just opened: the decoder stands on the root, in RUN, with its diagnostics cleared (R208). -/
abbrev openCall (s : State) : State :=
  buClear (setTd { s.td with cur := 0, icwcnt := 0, drop := false, tdst := .run } s)

/-- DECSTART opens a decode call in every phase (R208). -/
theorem execDecstart_run {s : State} (hf : s.latch.fatal = false) : exec .decstart s = .next (openCall s) :=
  classW_run (i := .decstart) rfl hf _

/-- A decode call over bytes that are the codewords of an input, the sentinel's last, and 0 to 7 bits more: it appends
the input to DEC_OUT and stands in DONE after the last byte, with no dead end and no byte dropped (R214). -/
theorem execAll_decode_messageBits {s : State} {x ys : List Byte} {code : Sym → Codeword} {padding : List Bool}
    (hf : s.latch.fatal = false) (hx : ∀ b ∈ x, TrieLeads s.td.tn 0 (code (byteSym b)) (byteSym b))
    (heos : TrieLeads s.td.tn 0 (code eos) eos) (hbits : ys.flatMap byteBits = messageBits code x ++ padding)
    (hpadding : padding.length ≤ 7) :
    ∃ bu, execAll (.decstart :: dechex ys) s = .next { s with
      td := { s.td with cur := 0, icwcnt := 0, drop := false, tdst := .done }
      bu := bu
      out := { s.out with decOut := s.out.decOut ++ x } } := by
  have hwalk : walkBits (openCall s).td.tn (openCall s).td.cur (ys.flatMap byteBits) =
      { cur := 0, bytes := x, dead := 0, ended := true, rest := padding } := by
    rw [hbits]
    exact walkBits_messageBits hx heos padding
  obtain ⟨bu, hdecode⟩ := execAll_dechex_walks ys (s := openCall s) hf rfl heos.root_child (by rw [hwalk])
    (by rwa [hwalk])
  rw [hwalk] at hdecode
  exact ⟨bu, (execAll_cons_of_next (execDecstart_run hf) _).trans hdecode⟩

/-- Settles O51: the packed stream is the codewords and at most 7 zeros, and the walk over it takes the codewords. -/
theorem decodingThePackedStreamGivesTheInput : Obligations.DecodingThePackedStreamGivesTheInput := by
  intro s x code hf hx heosCode heos
  obtain ⟨ys, zeros, hpack, hbits, hzeros⟩ := execAll_packSeq_bits hf (fun b hb => (hx b hb).1) heosCode
  obtain ⟨bu, hdecode⟩ := execAll_decode_messageBits (s := { s with
      bp := { acc := 0, nacc := 0, active := false }
      out := { s.out with encOut := s.out.encOut ++ ys } })
    hf (fun b hb => (hx b hb).2) heos hbits (by simpa using hzeros)
  exact ⟨_, _, ys, hpack, rfl, hdecode, rfl, rfl, rfl, rfl, hf, rfl⟩

end Sys2Proof.Machine

/-! SUPPORT. Proofs of the statements of 44_bit_unpacker.md: the bits of a loaded byte one after the other (R196, R197),
and DECBYTE as the walk of its byte (R198, R207, R210). -/

namespace Sys2Proof.Machine

/-! ## Several bits taken (R196, R197) -/

/-- Taking bits changes the cursor only. -/
theorem iterate_buAdvance_frame (k : Nat) (s : State) :
    buAdvance^[k] s = { s with bu := (buAdvance^[k] s).bu } := by
  induction k generalizing s with
  | zero => rfl
  | succ k ih => exact ih (buAdvance s)

/-- Taking `k` bits drops the first `k` of those held (R197). -/
theorem CursorHolds.iterate_take {k : Nat} {s : State} {bits : List Bool} (h : CursorHolds s.bu bits)
    (hk : k ≤ bits.length) : CursorHolds (buAdvance^[k] s).bu (bits.drop k) := by
  induction k generalizing s bits with
  | zero => exact h
  | succ k ih =>
    cases bits with
    | nil => exact absurd hk (Nat.not_succ_le_zero k)
    | cons b bits => exact ih h.take.2 (Nat.le_of_succ_le_succ hk)

/-- A cursor that holds no bit has both registers 0 (R197). -/
theorem CursorHolds.eq_zero {bu : BuState} (h : CursorHolds bu []) : bu = { ubyte := 0, urem := 0 } := by
  obtain ⟨hurem, hbits⟩ := h
  have hubyte : bu.ubyte = 0 := BitVec.eq_of_getLsbD_eq fun i hi => by
    have hbit : bu.ubyte.getLsbD i ∈ byteBits bu.ubyte :=
      List.mem_map.2 ⟨i, List.mem_reverse.2 (List.mem_range.2 hi), rfl⟩
    rw [hbits] at hbit
    simpa using List.eq_of_mem_replicate hbit
  cases bu
  exact congrArg₂ BuState.mk hubyte (BitVec.eq_of_toNat_eq hurem)

/-- The bits of a byte from the `k`-th on begin with bit 7 - k (R74). -/
theorem byteBits_drop (b : Byte) {k : Nat} (hk : k < 8) :
    (byteBits b).drop k = b.getLsbD (7 - k) :: (byteBits b).drop (k + 1) := by
  rw [List.drop_eq_getElem_cons (show k < (byteBits b).length from hk)]
  simp [byteBits]

/-- Settles O45: a loaded byte is held whole, and each bit taken is the first of those still held. -/
theorem unpackerTakesTheTopBitFirst : Obligations.UnpackerTakesTheTopBitFirst := by
  intro s b
  have hheld : ∀ k ≤ 8, CursorHolds (buAdvance^[k] (buLoad b s)).bu ((byteBits b).drop k) :=
    fun _ => (cursorHolds_buLoad b s).iterate_take
  refine ⟨fun k hk => ⟨?_, ?_⟩, ?_⟩
  · have hnext := hheld k hk.le
    rw [byteBits_drop b hk] at hnext
    exact hnext.take.1
  · exact (hheld k hk.le).1.trans List.length_drop
  · rw [iterate_buAdvance_frame, (hheld 8 le_rfl).eq_zero]
    rfl

/-! ## DECBYTE (R207, R210) -/

/-- The dead ends of a walk are counted up to saturation (R34, R207). -/
theorem iterate_icwNext_toNat (k : Nat) (n : BitVec 32) :
    (icwNext^[k] n).toNat = min (n.toNat + k) 0xFFFFFFFF := by
  induction k with
  | zero =>
    have := n.isLt
    simp only [Function.iterate_zero, id]
    omega
  | succ k ih =>
    rw [Function.iterate_succ_apply', icwNext_toNat, ih]
    omega

/-- Settles O49: DECBYTE in RUN makes the walk of its byte and leaves the bits not taken (`execDecbyte_run`). -/
theorem decbyteWalksTheTrie : Obligations.DecbyteWalksTheTrie := by
  intro s b hf hrun htrie
  obtain ⟨bu, hexec, hurem, hubyte⟩ := execDecbyte_run b hf hrun htrie
  exact ⟨walked (walkBits s.td.tn s.td.cur (byteBits b)) bu s, hexec, rfl, rfl, iterate_icwNext_toNat _ _, rfl, hurem,
    hubyte⟩

end Sys2Proof.Machine

/-! SUPPORT. Proofs of the statements of 45_tree_decoder.md: the view of a trie node (R205), the decode call (R208 to
R212), and TRINS, whose two phases are compared with the paths of the trie (R203, R204). -/

namespace Sys2Proof.Machine

/-! ## The view of a trie node (R205) -/

/-- A trie node as a node of the arena. -/
def TrieNode.toNode (e : TrieNode) : Node :=
  { leaf := e.leaf, sym := e.sym, left := e.child0, right := e.child1, weight := 0 }

/-- The view of a trie node has the layout of RDNODE's view 0, with the bit of INQ at 0 (R205). -/
theorem trieView_eq_nodeView (e : TrieNode) : trieView e = nodeView e.toNode false 0 := by
  have hflags : ∀ leaf, BitVec.ofBool leaf ++ 0#2 = BitVec.ofBool leaf ++ BitVec.ofBool false ++ 0#1 := by decide
  exact congrArg (fun flags : BitVec 3 => flags ++ e.sym ++ e.child0 ++ e.child1) (hflags e.leaf)

/-- A field of two bits is 0 when both its bits are. -/
theorem extractLsb'_two_eq_zero {v : RspWord} {k : Nat} (hlow : v.getLsbD k = false)
    (hhigh : v.getLsbD (k + 1) = false) : v.extractLsb' k 2 = 0 := by
  refine BitVec.eq_of_getLsbD_eq fun i hi => ?_
  obtain rfl | rfl : i = 0 ∨ i = 1 := by omega
  · simpa using hlow
  · simpa using hhigh

/-- Settles O24: RDTRIE responds the view of the node, and that has the fields of RDNODE's view 0. -/
theorem rdtrieShowsTheTrieNode : Obligations.RdtrieShowsTheTrieNode := by
  intro s idx
  refine ⟨trieView (tnRead s.td.tn idx), classR_run (i := .rdtrie idx) rfl s _, ?_⟩
  rw [trieView_eq_nodeView]
  obtain ⟨hleaf, hhigh, hlow, hsym, hchild0, hchild1⟩ :=
    nodeView_zero_fields (tnRead s.td.tn idx).toNode false
  exact ⟨hleaf, extractLsb'_two_eq_zero hlow hhigh, hsym, hchild0, hchild1⟩

/-! ## The decode call (R208, R210, R212) -/

/-- Settles O48: neither command has a check of its own. -/
theorem decstartOpensAndDecstopCloses : Obligations.DecstartOpensAndDecstopCloses := fun _ hf =>
  ⟨execDecstart_run hf, classW_run (i := .decstop) rfl hf _⟩

/-- Settles O50: the phase decides first, and in RUN the root's children before any bit is taken. -/
theorem decbyteDropsOrFindsNoCodebook : Obligations.DecbyteDropsOrFindsNoCodebook := by
  intro s b hf
  have hexec : exec (.decbyte b) s = _ := classW_run (i := .decbyte b) rfl hf _
  refine ⟨fun hdone => ?_, fun hrun h0 h1 => ?_⟩
  · rw [hexec, hdone]
    rfl
  · rw [hexec, hrun]
    exact (if_pos ⟨h0, h1⟩).trans (fail_of_clear .emptyCodebook (.decbyte b) hf)

/-! ## Paths in the trie (R203, R204) -/

/-- The bits `c` lead from the trie node `p` over nodes that exist to the node `q` (R203, phase 1). -/
def TriePath (tn : Mem TrieNode) : Idx → Codeword → Idx → Prop
  | p, [], q => p = q
  | p, b :: c, q => childOf (tnRead tn p) b ≠ 0 ∧ TriePath tn (childOf (tnRead tn p) b) c q

section
variable {tn : Mem TrieNode} {p q : Idx} {c d : Codeword} {b : Bool} {y : Sym}

/-- A path goes on from where its first part leads. -/
theorem triePath_append : TriePath tn p (c ++ d) q ↔ ∃ r, TriePath tn p c r ∧ TriePath tn r d q := by
  induction c generalizing p with
  | nil => simp [TriePath]
  | cons b c ih => simp [TriePath, ih, and_assoc]

/-- The last bit of a path leads to a child. -/
theorem triePath_concat : TriePath tn p (c ++ [b]) q ↔
    ∃ r, TriePath tn p c r ∧ childOf (tnRead tn r) b ≠ 0 ∧ childOf (tnRead tn r) b = q := triePath_append

/-- Entries with the same pointers give the same paths. -/
theorem triePath_congr {tn' : Mem TrieNode} (h : ∀ x b, childOf (tnRead tn' x) b = childOf (tnRead tn x) b) :
    TriePath tn' p c q ↔ TriePath tn p c q := by
  induction c generalizing p with
  | nil => rfl
  | cons b c ih => rw [TriePath, TriePath, h, ih]

/-- Where leaves have no child, a bit sequence that leads to a leaf is a path to it: it meets no leaf before (R204). -/
theorem trieLeads_iff_path (hchildless : ∀ p b, (tnRead tn p).leaf = true → childOf (tnRead tn p) b = 0)
    (hp : (tnRead tn p).leaf = false) :
    TrieLeads tn p c y ↔ ∃ q, TriePath tn p c q ∧ (tnRead tn q).leaf = true ∧ (tnRead tn q).sym = y := by
  induction c generalizing p with
  | nil => simp [TrieLeads, TriePath, hp]
  | cons b c ih =>
    cases c with
    | nil => simp [TrieLeads, TriePath]
    | cons b' c =>
      constructor
      · rintro ⟨hchild, hinner, hrest⟩
        obtain ⟨q, hpath, hq⟩ := (ih hinner).1 hrest
        exact ⟨q, ⟨hchild, hpath⟩, hq⟩
      · rintro ⟨q, ⟨hchild, hpath⟩, hq⟩
        have hinner : (tnRead tn (childOf (tnRead tn p) b)).leaf = false :=
          Bool.eq_false_iff.2 fun hleaf => hpath.1 (hchildless _ b' hleaf)
        exact ⟨hchild, hinner, (ih hinner).2 ⟨q, hpath, hq⟩⟩

/-- Phase 1 of TRINS that stops before the end of the codeword has followed the part of it that exists (R203). -/
theorem trieFollow_path {rest : Codeword} (h : trieFollow tn p c = some (q, rest)) :
    TriePath tn p (c.take (trieDepth tn p c)) q ∧ rest = c.drop (trieDepth tn p c) := by
  induction c generalizing p with
  | nil => cases h
  | cons b c ih =>
    simp only [trieFollow] at h
    split at h
    · cases h
    · rw [trieDepth]
      split at h
      · next hnone =>
        cases h
        rw [if_pos hnone]
        exact ⟨rfl, rfl⟩
      · next hchild =>
        obtain ⟨hpath, hrest⟩ := ih h
        rw [if_neg hchild]
        exact ⟨⟨hchild, hpath⟩, hrest⟩

/-- Phase 1 of TRINS that finds a conflict has met a leaf or followed the whole codeword (R203). -/
theorem trieFollow_none_path (h : trieFollow tn p c = none) :
    ∃ d q, TriePath tn p d q ∧ d <+: c ∧ ((tnRead tn q).leaf = true ∨ d = c) := by
  induction c generalizing p with
  | nil => exact ⟨[], p, rfl, List.nil_prefix, .inr rfl⟩
  | cons b c ih =>
    simp only [trieFollow] at h
    split at h
    · next hleaf => exact ⟨[], p, rfl, List.nil_prefix, .inl hleaf⟩
    · split at h
      · cases h
      · next hchild =>
        obtain ⟨d, q, hpath, hprefix, hend⟩ := ih h
        exact ⟨b :: d, q, ⟨hchild, hpath⟩, (List.prefix_cons_inj b).2 hprefix, hend.imp_right (congrArg _)⟩

/-- Phase 1 of TRINS finds a conflict with every path to a leaf that begins the codeword or that it begins (R203). -/
theorem trieFollow_of_leaf_path (hpath : TriePath tn p d q) (hleaf : (tnRead tn q).leaf = true)
    (hprefix : d <+: c ∨ c <+: d) : trieFollow tn p c = none := by
  induction c generalizing p d with
  | nil => rfl
  | cons b c ih =>
    cases d with
    | nil =>
      cases hpath
      rw [trieFollow, if_pos hleaf]
    | cons b' d =>
      rw [List.cons_prefix_cons, List.cons_prefix_cons, eq_comm (a := b), ← and_or_left] at hprefix
      obtain ⟨rfl, hprefix⟩ := hprefix
      obtain ⟨hchild, hpath⟩ := hpath
      rw [trieFollow, if_neg hchild, ih hpath hprefix, ite_self]

end

/-! ## TRINS and its faults (R203, R254) -/

/-- Below every node but the root, or at it, stands a leaf (R204). -/
theorem TrieInv.leaf_below {td : TdState} (h : TrieInv td) {p : Idx} (hpos : 1 ≤ p.toNat)
    (hlt : p.toNat < td.tncnt.toNat) : ∃ c q, TriePath td.tn p c q ∧ (tnRead td.tn q).leaf = true := by
  cases hleaf : (tnRead td.tn p).leaf with
  | true => exact ⟨[], p, rfl, hleaf⟩
  | false =>
    obtain ⟨b, hb⟩ := h.inner_child p hpos hlt hleaf
    obtain ⟨hgt, hchild⟩ := h.child_gt p b hb
    obtain ⟨c, q, hpath, hq⟩ := h.leaf_below (hpos.trans hgt.le) hchild
    exact ⟨b :: c, q, ⟨hb, hpath⟩, hq⟩
termination_by td.tncnt.toNat - p.toNat

/-- A whole trie with the path at its root. -/
theorem TrieInv.openAtRoot {td : TdState} (h : TrieInv td) : TrieOpen td 0 :=
  h.toOpen (p := 0) h.tncnt_pos h.root_inner

/-- A path from an allocated node stays on allocated nodes, and every bit leads to a higher index (log 10). -/
theorem TrieOpen.path_lt {td : TdState} {x : Idx} (h : TrieOpen td x) {p q : Idx} {c : Codeword}
    (hp : p.toNat < td.tncnt.toNat) (hpath : TriePath td.tn p c q) :
    p.toNat + c.length ≤ q.toNat ∧ q.toNat < td.tncnt.toNat := by
  induction c generalizing p with
  | nil => cases hpath; exact ⟨le_rfl, hp⟩
  | cons b c ih =>
    obtain ⟨hchild, hpath⟩ := hpath
    obtain ⟨hgt, hlt⟩ := h.child_gt p b hchild
    obtain ⟨hle, hq⟩ := ih hlt hpath
    rw [List.length_cons]
    exact ⟨by omega, hq⟩

/-- In a whole trie TRINS finds a conflict exactly with the inserted codewords that begin the new one or that it
begins (R203). -/
theorem TrieInv.trieFollow_eq_none_iff {td : TdState} (h : TrieInv td) {c : Codeword} (hc : c ≠ []) :
    trieFollow td.tn 0 c = none ↔ ∃ d y, TrieLeads td.tn 0 d y ∧ (d <+: c ∨ c <+: d) := by
  simp only [trieLeads_iff_path h.leaf_childless h.root_inner]
  constructor
  · intro hnone
    obtain ⟨d, q, hpath, hprefix, hleaf | rfl⟩ := trieFollow_none_path hnone
    · exact ⟨d, _, ⟨q, hpath, hleaf, rfl⟩, .inl hprefix⟩
    · obtain ⟨hle, hlt⟩ := h.openAtRoot.path_lt (p := 0) h.tncnt_pos hpath
      have hlen := List.length_pos_iff.2 hc
      obtain ⟨e, r, hrest, hleaf⟩ := h.leaf_below (hlen.trans_le ((Nat.le_add_left _ _).trans hle)) hlt
      exact ⟨d ++ e, _, ⟨r, triePath_append.2 ⟨q, hpath, hrest⟩, hleaf, rfl⟩, .inr (List.prefix_append d e)⟩
  · rintro ⟨d, y, ⟨q, hpath, hleaf, -⟩, hprefix⟩
    exact trieFollow_of_leaf_path hpath hleaf hprefix

/-- A fault-free TRINS of a legal symbol outside RUN: the three checks of rule R203 in order, then phase 2. -/
theorem exec_trins_outside_run {s : State} {sym : Sym} (hf : s.latch.fatal = false) (hsym : sym.toNat ≤ 256)
    (hphase : s.td.tdst ≠ .run) : exec (.trins sym) s =
      if s.ca.cw = [] then .next { s with latch := latched .badCodeword (.trins sym) }
      else (trieFollow s.td.tn 0 s.ca.cw).elim (.next { s with latch := latched .trieConflict (.trins sym) }) fun e =>
        if tnSize < s.td.tncnt.toNat + e.2.length then .next { s with latch := latched .allocFailure (.trins sym) }
        else .next (setTd (trieAllocate sym e.1 e.2 s.td) s) := by
  have hlegal : (Instr.trins sym).wellFormed = true := by simpa [Instr.wellFormed, symLegal] using hsym
  refine (classW_run hlegal hf _).trans ?_
  simp only [if_neg hphase, fail_of_clear _ _ hf]
  refine if_congr List.length_eq_zero_iff rfl ?_
  cases trieFollow s.td.tn 0 s.ca.cw <;> rfl

/-- With no conflict, phase 1 of TRINS leaves the bits of the codeword behind the part of it that exists (R203). -/
theorem TrieInv.trieFollow_of_free {td : TdState} (h : TrieInv td) {c : Codeword} (hc : c ≠ [])
    (hfree : ∀ d y, TrieLeads td.tn 0 d y → ¬ d <+: c ∧ ¬ c <+: d) :
    ∃ p, trieFollow td.tn 0 c = some (p, c.drop (trieDepth td.tn 0 c)) := by
  have hsome : trieFollow td.tn 0 c ≠ none := fun hnone => by
    obtain ⟨d, y, hd, hprefix⟩ := (h.trieFollow_eq_none_iff hc).1 hnone
    exact hprefix.elim (hfree d y hd).1 (hfree d y hd).2
  obtain ⟨⟨p, rest⟩, hfollow⟩ := Option.ne_none_iff_exists'.1 hsome
  obtain ⟨-, rfl⟩ := trieFollow_path hfollow
  exact ⟨p, hfollow⟩

/-- Settles O47: phase 1 answers none exactly when the codeword meets an inserted one, and a fault writes the latch
only. -/
theorem trinsFaultsInOrder : Obligations.TrinsFaultsInOrder := by
  intro s sym h hf hsym hphase
  have hexec := exec_trins_outside_run hf hsym hphase
  refine ⟨fun hempty => hexec.trans (if_pos hempty), fun hcw hconflict => ?_, fun hcw hfree hfull => ?_⟩
  · rw [hexec, if_neg hcw, (h.trieFollow_eq_none_iff hcw).2 hconflict]
    rfl
  · obtain ⟨p, hfollow⟩ := h.trieFollow_of_free hcw hfree
    rw [hexec, if_neg hcw, hfollow]
    exact if_pos (by rwa [List.length_drop])

/-! ## The trie while TRINS allocates (R203, R204) -/

/-- A pointer that is set is one of the children its entry names. -/
theorem childCount_pos {e : TrieNode} {b : Bool} {q : Idx} (h : childOf e b = q) : 1 ≤ childCount q.toNat e := by
  subst h
  cases b <;> simp [childCount, childOf]

/-- Two pointers of one entry that name the same node are named twice. -/
theorem childCount_eq_two {e : TrieNode} {b b' : Bool} {q : Idx} (hne : b ≠ b') (h : childOf e b = q)
    (h' : childOf e b' = q) : childCount q.toNat e = 2 := by
  subst h
  cases b <;> cases b' <;> simp_all [childCount, childOf]

section
variable {td : TdState} {p : Idx} (h : TrieOpen td p)
include h

/-- No two pointers of the trie name the same node (R44 item 8). -/
theorem TrieOpen.childOf_injective {q r r' : Idx} {b b' : Bool} (hq : q ≠ 0) (hr : childOf (tnRead td.tn r) b = q)
    (hr' : childOf (tnRead td.tn r') b' = q) : r = r' ∧ b = b' := by
  obtain ⟨hgt, hlt⟩ := h.child_gt r b (hr ▸ hq)
  obtain ⟨hgt', -⟩ := h.child_gt r' b' (hr' ▸ hq)
  rw [hr] at hgt hlt
  rw [hr'] at hgt'
  have hone := h.one_parent q.toNat (by omega) hlt
  have hself : ∀ x : Idx, BitVec.ofNat 10 x.toNat = x := fun x => by simp
  have hcount := childCount_pos hr
  have hcount' := childCount_pos hr'
  rw [count_tnChildren] at hone
  have hrr' : r = r' := by
    by_contra hne
    rw [← sum_erase_erase (Finset.mem_range.2 (hgt.trans hlt)) (Finset.mem_erase.2
      ⟨fun heq => hne (BitVec.eq_of_toNat_eq heq.symm), Finset.mem_range.2 (hgt'.trans hlt)⟩), hself, hself] at hone
    omega
  subst hrr'
  refine ⟨rfl, ?_⟩
  by_contra hne
  rw [← Finset.add_sum_erase _ _ (Finset.mem_range.2 (hgt.trans hlt)), hself, childCount_eq_two hne hr hr'] at hone
  omega

/-- A node of the trie is reached from the root by one path only (R204). -/
theorem TrieOpen.path_unique {c d : Codeword} {q : Idx} (hc : TriePath td.tn 0 c q) (hd : TriePath td.tn 0 d q) :
    c = d := by
  induction c using List.reverseRecOn generalizing d q with
  | nil =>
    cases hc
    obtain ⟨hle, -⟩ := h.path_lt (p := 0) h.tncnt_pos hd
    exact (List.length_eq_zero_iff.1 (Nat.le_zero.1 ((Nat.le_add_left _ _).trans hle))).symm
  | append_singleton c b ih =>
    obtain ⟨r, hr, hchild, rfl⟩ := triePath_concat.1 hc
    cases d using List.reverseRecOn with
    | nil => exact absurd hd.symm hchild
    | append_singleton d b' =>
      obtain ⟨r', hr', -, hsame⟩ := triePath_concat.1 hd
      obtain ⟨rfl, rfl⟩ := h.childOf_injective hchild rfl hsame
      rw [ih hr hr']

end

section
variable {td : TdState} {p : Idx} {b : Bool} (h : TrieOpen td p) (hb : childOf (tnRead td.tn p) b = 0)
include hb

/-- One turn of phase 2 keeps every pointer that was set. -/
theorem childOf_trieExtend_of_ne_zero {x : Idx} {b' : Bool} (hx : childOf (tnRead td.tn x) b' ≠ 0) :
    childOf (tnRead (trieExtend p b td).tn x) b' = childOf (tnRead td.tn x) b' := by
  rw [childOf_trieExtend, if_neg]
  rintro ⟨rfl, rfl⟩
  exact hx hb

/-- One turn of phase 2 keeps every path. -/
theorem triePath_trieExtend {x q : Idx} {c : Codeword} (hpath : TriePath td.tn x c q) :
    TriePath (trieExtend p b td).tn x c q := by
  induction c generalizing x with
  | nil => exact hpath
  | cons b' c ih =>
    obtain ⟨hchild, hpath⟩ := hpath
    rw [TriePath, childOf_trieExtend_of_ne_zero hb hchild]
    exact ⟨hchild, ih hpath⟩

omit hb
variable (hroom : td.tncnt.toNat < tnSize)
include h hroom

/-- The node that a turn of phase 2 makes is not the one it is made below. -/
theorem TrieOpen.new_ne_here : p ≠ td.tncnt.setWidth 10 := fun hp =>
  h.here_lt.ne ((congrArg BitVec.toNat hp).trans (tncnt_setWidth_toNat hroom))

/-- The node that a turn of phase 2 makes is a zero entry. -/
theorem TrieOpen.tnRead_new : tnRead (trieExtend p b td).tn (td.tncnt.setWidth 10) = TrieNode.zero := by
  rw [tnRead_trieExtend, if_neg (h.new_ne_here hroom), h.unallocated _ (tncnt_setWidth_toNat hroom).ge]

/-- A path after one turn of phase 2 that does not end at the new node was there before: the new node has no child. -/
theorem TrieOpen.triePath_of_trieExtend {x q : Idx} {c : Codeword} (hpath : TriePath (trieExtend p b td).tn x c q)
    (hq : q ≠ td.tncnt.setWidth 10) : TriePath td.tn x c q := by
  induction c using List.reverseRecOn generalizing q with
  | nil => exact hpath
  | append_singleton c b' ih =>
    obtain ⟨r, hr, hchild, rfl⟩ := triePath_concat.1 hpath
    have hold : childOf (tnRead (trieExtend p b td).tn r) b' = childOf (tnRead td.tn r) b' := by
      rw [childOf_trieExtend] at hq ⊢
      exact if_neg fun hnew => hq (if_pos hnew)
    refine triePath_concat.2 ⟨r, ih hr ?_, hold ▸ hchild, hold.symm⟩
    rintro rfl
    exact hchild (h.new_childless b hroom b')

include hb

/-- One turn of phase 2 inserts no codeword and loses none. -/
theorem TrieOpen.trieLeads_trieExtend {c : Codeword} {y : Sym} :
    TrieLeads (trieExtend p b td).tn 0 c y ↔ TrieLeads td.tn 0 c y := by
  have hopen := h.extend hb hroom
  rw [trieLeads_iff_path hopen.leaf_childless hopen.root_inner, trieLeads_iff_path h.leaf_childless h.root_inner]
  have hsym (q : Idx) : (tnRead (trieExtend p b td).tn q).sym = (tnRead td.tn q).sym := by
    rw [tnRead_trieExtend]
    split
    · next hq => rw [setChild_sym, hq]
    · rfl
  simp only [leaf_trieExtend, hsym]
  refine exists_congr fun q => and_congr_left fun ⟨hleaf, _⟩ => ⟨fun hpath => ?_, triePath_trieExtend hb⟩
  refine h.triePath_of_trieExtend hroom hpath ?_
  rintro rfl
  rw [h.unallocated _ (tncnt_setWidth_toNat hroom).ge] at hleaf
  cases hleaf

end

/-- The last write of phase 2 makes one node a leaf and keeps every other entry (R203). -/
theorem tnRead_trieAllocate_nil (sym : Sym) (p q : Idx) (td : TdState) :
    tnRead (trieAllocate sym p [] td).tn q =
      if p = q then { tnRead td.tn p with leaf := true, sym := sym } else tnRead td.tn q := tnRead_write ..

/-- The last write of phase 2 inserts the codeword whose path it ends, and no other (R203). -/
theorem TrieOpen.trieLeads_close {td : TdState} {p : Idx} (h : TrieOpen td p) (hroot : p ≠ 0)
    (hfree : ∀ b, childOf (tnRead td.tn p) b = 0) {c₀ : Codeword} (hpath : TriePath td.tn 0 c₀ p) (sym : Sym)
    {c : Codeword} {y : Sym} : TrieLeads (trieAllocate sym p [] td).tn 0 c y ↔
      TrieLeads td.tn 0 c y ∨ (c = c₀ ∧ y = sym) := by
  have hinv := h.close hroot hfree sym
  rw [trieLeads_iff_path hinv.leaf_childless hinv.root_inner, trieLeads_iff_path h.leaf_childless h.root_inner]
  have hchild (x b) : childOf (tnRead (trieAllocate sym p [] td).tn x) b = childOf (tnRead td.tn x) b := by
    rw [tnRead_trieAllocate_nil]
    split
    · next hx => subst hx; rfl
    · rfl
  simp only [triePath_congr hchild, tnRead_trieAllocate_nil]
  constructor
  · rintro ⟨q, hq, hleaf, hsym⟩
    by_cases hpq : p = q
    · subst hpq
      rw [if_pos rfl] at hsym
      exact .inr ⟨h.path_unique hq hpath, hsym.symm⟩
    · rw [if_neg hpq] at hleaf hsym
      exact .inl ⟨q, hq, hleaf, hsym⟩
  · rintro (⟨q, hq, hleaf, hsym⟩ | ⟨rfl, rfl⟩)
    · have hpq : p ≠ q := by
        rintro rfl
        simp [h.here_inner] at hleaf
      exact ⟨q, hq, by rwa [if_neg hpq], by rwa [if_neg hpq]⟩
    · exact ⟨p, hpath, by rw [if_pos rfl], by rw [if_pos rfl]⟩

/-- A turn of phase 2 leads the path on to the new node (R203). -/
theorem TrieOpen.triePath_new {td : TdState} {p : Idx} {b : Bool} (h : TrieOpen td p)
    (hb : childOf (tnRead td.tn p) b = 0) (hroom : td.tncnt.toNat < tnSize) {c₀ : Codeword}
    (hpath : TriePath td.tn 0 c₀ p) : TriePath (trieExtend p b td).tn 0 (c₀ ++ [b]) (td.tncnt.setWidth 10) := by
  have hnew : childOf (tnRead (trieExtend p b td).tn p) b = td.tncnt.setWidth 10 := by
    rw [childOf_trieExtend, if_pos ⟨rfl, rfl⟩]
  exact triePath_concat.2 ⟨p, triePath_trieExtend hb hpath, hnew ▸ h.new_ne_zero hroom, hnew⟩

/-- Phase 2 of TRINS from a new node inserts the path to it followed by the bits left, and no other codeword (R203). -/
theorem TrieOpen.trieLeads_trieAllocate {td : TdState} {p : Idx} (h : TrieOpen td p) (hroot : p ≠ 0)
    (hfree : ∀ b, childOf (tnRead td.tn p) b = 0) {rest c₀ : Codeword}
    (hroom : td.tncnt.toNat + rest.length ≤ tnSize) (hpath : TriePath td.tn 0 c₀ p) (sym : Sym)
    {c : Codeword} {y : Sym} : TrieLeads (trieAllocate sym p rest td).tn 0 c y ↔
      TrieLeads td.tn 0 c y ∨ (c = c₀ ++ rest ∧ y = sym) := by
  induction rest generalizing p td c₀ with
  | nil => rw [List.append_nil]; exact h.trieLeads_close hroot hfree hpath sym
  | cons b rest ih =>
    rw [List.length_cons] at hroom
    have hroom' : td.tncnt.toNat < tnSize := by omega
    rw [trieAllocate_cons, ih (h.extend (hfree b) hroom') (h.new_ne_zero hroom') (h.new_childless b hroom')
      (by rw [trieExtend_tncnt hroom']; omega) (h.triePath_new (hfree b) hroom' hpath),
      h.trieLeads_trieExtend (hfree b) hroom', List.append_assoc, List.singleton_append]

/-- TRINS inserts its codeword and no other (R203, R204). -/
theorem TrieInv.trieLeads_trins {td : TdState} (h : TrieInv td) {c₀ rest : Codeword} {p : Idx}
    (hfollow : trieFollow td.tn 0 c₀ = some (p, rest)) (hroom : td.tncnt.toNat + rest.length ≤ tnSize) (sym : Sym)
    {c : Codeword} {y : Sym} : TrieLeads (trieAllocate sym p rest td).tn 0 c y ↔
      TrieLeads td.tn 0 c y ∨ (c = c₀ ∧ y = sym) := by
  obtain ⟨hpath, hrest⟩ := trieFollow_path hfollow
  obtain ⟨b, bits, rfl, hinner, hb, -⟩ := trieFollow_some hfollow
  have hsplit := List.take_append_drop (trieDepth td.tn 0 c₀) c₀
  rw [← hrest] at hsplit
  rw [List.length_cons] at hroom
  have hroom' : td.tncnt.toNat < tnSize := by omega
  have hopen := h.toOpen (trieFollow_lt (p := 0) h h.tncnt_pos hfollow) hinner
  rw [trieAllocate_cons, (hopen.extend hb hroom').trieLeads_trieAllocate (hopen.new_ne_zero hroom')
    (hopen.new_childless b hroom') (by rw [trieExtend_tncnt hroom']; omega) (hopen.triePath_new hb hroom' hpath),
    hopen.trieLeads_trieExtend hb hroom', List.append_assoc, List.singleton_append, hsplit]

/-! ## The entries that TRINS writes (R203) -/

/-- Phase 2 of TRINS from the newest node: that node and those to come are each the parent of the next on the side of
its bit, the last is the leaf, and every other entry reads as before (R203). -/
theorem TrieOpen.tnRead_trieAllocate_newest {td : TdState} {p : Idx} {rest : Codeword} (h : TrieOpen td p)
    (hnewest : p.toNat + 1 = td.tncnt.toNat) (hzero : tnRead td.tn p = TrieNode.zero)
    (hroom : td.tncnt.toNat + rest.length ≤ tnSize) (sym : Sym) (q : Idx) :
    tnRead (trieAllocate sym p rest td).tn q =
      if q.toNat < p.toNat ∨ td.tncnt.toNat + rest.length ≤ q.toNat then tnRead td.tn q
      else if q.toNat + 1 = td.tncnt.toNat + rest.length then { child0 := 0, child1 := 0, leaf := true, sym := sym }
      else setChild TrieNode.zero (rest.getD (q.toNat - p.toNat) false) (q + 1) := by
  have hqp : p = q ↔ q.toNat = p.toNat := by rw [eq_comm, BitVec.toNat_inj]
  induction rest generalizing p td with
  | nil =>
    rw [tnRead_trieAllocate_nil, hzero, List.length_nil]
    by_cases hq : q.toNat = p.toNat
    · rw [if_pos (hqp.2 hq), if_neg (by omega), if_pos (by omega)]
    · rw [if_neg (mt hqp.1 hq), if_pos (by omega)]
  | cons b rest ih =>
    rw [List.length_cons] at hroom
    have hroom' : td.tncnt.toNat < tnSize := by omega
    have hb : childOf (tnRead td.tn p) b = 0 := by rw [hzero, childOf_zero]
    have hnew := tncnt_setWidth_toNat hroom'
    have hcnt := trieExtend_tncnt (p := p) (b := b) hroom'
    rw [trieAllocate_cons, ih (h.extend hb hroom') (by rw [hnew, hcnt]) (h.tnRead_new hroom') (by rw [hcnt]; omega)
      (by rw [eq_comm, BitVec.toNat_inj]), tnRead_trieExtend, hcnt, hnew, hzero, List.length_cons]
    by_cases hq : q.toNat = p.toNat
    · obtain rfl := hqp.2 hq
      have hnext : td.tncnt.setWidth 10 = p + 1 :=
        BitVec.eq_of_toNat_eq <| by
          rw [hnew, ← hnewest]
          exact (Nat.mod_eq_of_lt (hnewest.trans_lt hroom')).symm
      rw [if_pos (by omega), if_pos rfl, if_neg (by omega), if_neg (by omega), Nat.sub_self, hnext]
      rfl
    · rw [if_neg (mt hqp.1 hq)]
      by_cases hold : q.toNat < p.toNat ∨ td.tncnt.toNat + (rest.length + 1) ≤ q.toNat
      · rw [if_pos hold, if_pos (by omega)]
      · rw [if_neg hold, if_neg (by omega), show q.toNat - p.toNat = q.toNat - td.tncnt.toNat + 1 by omega,
          List.getD_cons_succ]
        exact if_congr (by omega) rfl rfl

/-- Phase 2 of TRINS entry by entry: the node where the path leaves the trie gets a new child, the new nodes follow from
the old TNCNT on, and every other entry reads as before (R203). -/
theorem TrieOpen.tnRead_trieAllocate {td : TdState} {p : Idx} {b : Bool} {bits : Codeword} (h : TrieOpen td p)
    (hb : childOf (tnRead td.tn p) b = 0) (hroom : td.tncnt.toNat + (b :: bits).length ≤ tnSize)
    (sym : Sym) (q : Idx) :
    tnRead (trieAllocate sym p (b :: bits) td).tn q =
      if q = p then setChild (tnRead td.tn p) b (td.tncnt.setWidth 10)
      else if q.toNat < td.tncnt.toNat ∨ td.tncnt.toNat + (b :: bits).length ≤ q.toNat then tnRead td.tn q
      else if q.toNat + 1 = td.tncnt.toNat + (b :: bits).length then
        { child0 := 0, child1 := 0, leaf := true, sym := sym }
      else setChild TrieNode.zero ((b :: bits).getD (q.toNat + 1 - td.tncnt.toNat) false) (q + 1) := by
  rw [List.length_cons] at hroom ⊢
  have hroom' : td.tncnt.toNat < tnSize := by omega
  have hnew := tncnt_setWidth_toNat hroom'
  have hcnt := trieExtend_tncnt (p := p) (b := b) hroom'
  rw [trieAllocate_cons, (h.extend hb hroom').tnRead_trieAllocate_newest (by rw [hnew, hcnt]) (h.tnRead_new hroom')
    (by rw [hcnt]; omega), tnRead_trieExtend, hcnt, hnew, Nat.add_assoc, Nat.add_comm 1]
  by_cases hqp : q = p
  · subst hqp
    rw [if_pos (.inl h.here_lt), if_pos rfl, if_pos rfl]
  rw [if_neg (Ne.symm hqp), if_neg hqp]
  by_cases hold : q.toNat < td.tncnt.toNat ∨ td.tncnt.toNat + (bits.length + 1) ≤ q.toNat
  · rw [if_pos hold, if_pos hold]
  · rw [if_neg hold, if_neg hold, show q.toNat + 1 - td.tncnt.toNat = q.toNat - td.tncnt.toNat + 1 by omega,
      List.getD_cons_succ]

/-- Phase 2 of TRINS raises TNCNT by the bits it was given (R203). -/
theorem trieAllocate_tncnt (sym : Sym) (p : Idx) {rest : Codeword} {td : TdState}
    (hroom : td.tncnt.toNat + rest.length ≤ tnSize) :
    (trieAllocate sym p rest td).tncnt.toNat = td.tncnt.toNat + rest.length := by
  have hfits : td.tncnt.toNat + rest.length < 2 ^ 11 := Nat.lt_of_le_of_lt hroom (by decide)
  rw [trieAllocate_frame]
  simp only [BitVec.toNat_add, BitVec.toNat_ofNat]
  omega

/-- Settles O46: phase 1 ends where the codeword leaves the trie, phase 2 adds the path of the bits left, and a node of
the trie has one path to it. -/
theorem trinsAddsExactlyOneCodeword : Obligations.TrinsAddsExactlyOneCodeword := by
  intro s sym h hf hsym hphase hcw hfree hroom
  obtain ⟨p, hfollow⟩ := h.trieFollow_of_free hcw hfree
  rw [← List.length_drop] at hroom ⊢
  generalize hrest : s.ca.cw.drop (trieDepth s.td.tn 0 s.ca.cw) = rest at hfollow hroom ⊢
  have hlt := trieFollow_lt (p := 0) h h.tncnt_pos hfollow
  have hcnt := trieAllocate_tncnt sym p hroom
  obtain ⟨b, bits, rfl, hinner, hb, -⟩ := trieFollow_some hfollow
  refine ⟨setTd (trieAllocate sym p (b :: bits) s.td) s, ?_, ?_, hcnt, fun c y => h.trieLeads_trins hfollow hroom sym,
    p, b :: bits, hfollow, hlt, rfl, List.cons_ne_nil b bits, fun q => ?_⟩
  · rw [exec_trins_outside_run hf hsym hphase, if_neg hcw, hfollow]
    exact if_neg (Nat.not_lt.2 hroom)
  · rw [trieAllocate_frame]
    rfl
  · rw [setTd_td, hcnt]
    exact (h.toOpen hlt hinner).tnRead_trieAllocate hb hroom sym q

end Sys2Proof.Machine

/-! SUPPORT. Proof of the statement of 48_host_contract.md: the host's text of a symbol (R226) and its parsing (R227),
form by form. -/

namespace Sys2Proof.Machine

/-- The host reads back every digit it writes (R226, R227). -/
theorem hexValue_hexDigit {n : Nat} (hn : n < 16) : hexValue (hexDigit n) = some n := by
  interval_cases n <;> rfl

/-- Two digits are parsed to the number they write, in either case (R227). The equations of `parseSymbol` are beyond
simp's recursion depth, so that its branch is named here once. -/
theorem parseSymbol_hex {h l : Char} {a b : Nat} (ha : hexValue h = some a) (hb : hexValue l = some b) :
    parseSymbol ['0', 'x', h, l] = some (BitVec.ofNat 9 (16 * a + b)) := by
  change (match hexValue h, hexValue l with
    | some a, some b => some (BitVec.ofNat 9 (16 * a + b))
    | _, _ => none) = _
  rw [ha, hb]

/-- The two digits of a byte are parsed to it (R227). -/
theorem parseSymbol_hexDigits {n : Nat} (hn : n < 256) :
    parseSymbol ['0', 'x', hexDigit (n / 16), hexDigit (n % 16)] = some (BitVec.ofNat 9 n) := by
  rw [parseSymbol_hex (hexValue_hexDigit (by omega)) (hexValue_hexDigit (by omega)), Nat.div_add_mod]

/-- The character of a byte is parsed to it (R227). -/
theorem parseSymbol_char {n : Nat} (hn : n < 256) : parseSymbol [Char.ofNat n] = some (BitVec.ofNat 9 n) := by
  have hcode : (Char.ofNat n).toNat = n := (Char.toNat_ofNat n).trans (if_pos (.inl (by omega)))
  calc parseSymbol [Char.ofNat n] = some (BitVec.ofNat 9 (Char.ofNat n).toNat) := if_pos (by rwa [hcode])
    _ = some (BitVec.ofNat 9 n) := by rw [hcode]

/-- Settles O52, form by form of R226; a symbol that is not END_OF_STREAM is a byte, which the two digits and the
character keep. -/
theorem parsingARenderedSymbolGivesTheSymbol : Obligations.ParsingARenderedSymbolGivesTheSymbol := by
  intro sym hsym
  have hbyte (hne : sym ≠ eos) : sym.toNat < 256 :=
    Nat.lt_of_le_of_ne hsym fun h => hne (BitVec.eq_of_toNat_eq h)
  unfold renderSymbol
  split_ifs with hlf hcr heos hhex
  · rw [hlf]; rfl
  · rw [hcr]; rfl
  · rw [heos]; rfl
  · rw [parseSymbol_hexDigits (hbyte heos), BitVec.ofNat_toNat, BitVec.setWidth_eq]
  · rw [parseSymbol_char (hbyte heos), BitVec.ofNat_toNat, BitVec.setWidth_eq]

end Sys2Proof.Machine

/-! SUPPORT. Proofs of the statements of 60_exceptions.md: the first fault is kept (R256, R258), the pin `fatal_o`
(R262) and the phase conditions (R253). -/

namespace Sys2Proof.Machine

/-! ## The latch and the pin (R256, R258, R262) -/

/-- Settles O16: a fault of the command's own and an illegal word are both fault entry, which keeps the first fault. -/
theorem latchHoldsUntilSrst : Obligations.LatchHoldsUntilSrst := by
  intro s t i h hf hi
  rcases exec_latch_cases h with ⟨hsrst, -⟩ | hl | ⟨c, -, rfl⟩ | ⟨-, rfl⟩
  · exact absurd hsrst hi
  · exact hl
  · rw [raiseFatal_of_fatal c _ hf]
  · rw [illegalWord_latch, raiseFatal_of_fatal .illegalCmd _ hf]

/-- Settles O17: the pin is FATAL, which idling and illegal words keep at 1, and every command but SRST by O16; SRST has
one word by O2. -/
theorem fatalPinFallsOnlyOnReset : Obligations.FatalPinFallsOnlyOnReset := by
  refine ⟨fun _ => Iff.rfl, fun s t h hup hdown => ?_⟩
  have hne : t.latch ≠ s.latch := fun hl => by
    rw [fatalO, hl] at hdown
    exact Bool.false_ne_true (hdown.symm.trans hup)
  rcases step_cases h with ⟨-, rfl⟩ | ⟨rest, hi, -⟩ | ⟨w, rest, why, -, -, rfl⟩ | ⟨w, rest, i, hi, hd, he⟩
  · exact absurd rfl hne
  · exact ⟨rest, .inl hi⟩
  · refine absurd ?_ hne
    rw [illegalWord_latch, raiseFatal_of_fatal .illegalCmd w (s := { s with input := rest }) hup]
  · have hsrst : i = .srst := by
      by_contra hi
      exact hne (latchHoldsUntilSrst { s with input := rest } t i he hup hi)
    have hword : encode .srst = 0x0100000000000000 := by decide
    obtain ⟨-, hw⟩ := decodedWordIsTheEncoding w i hd
    rw [hsrst, hword] at hw
    exact ⟨rest, .inr (hw ▸ hi)⟩

/-! ## The phase conditions (R253, R254) -/

/-- An outcome that latches no SEQUENCE: no next state, none with FATAL = 1, or one with another cause. -/
def NoSequence (o : Out) : Prop := ∀ t, o = .next t → t.latch.fatal = true → t.latch.fcause ≠ .sequence

/-- What rule R253 says of the outcome of `i` in `s`: SEQUENCE out of phase, and none in phase. -/
def PhaseChecked (i : Instr) (s : State) (o : Out) : Prop :=
  (phaseAllows i s = false → o = fail .sequence i s) ∧ (phaseAllows i s = true → NoSequence o)

section
variable {i : Instr} {s : State}

theorem NoSequence.of_ite {p : Prop} [Decidable p] {a b : Out} (ha : NoSequence a) (hb : NoSequence b) :
    NoSequence (if p then a else b) := by
  split
  · exact ha
  · exact hb

theorem PhaseChecked.of_allowed {o : Out} (h : phaseAllows i s = true) (ho : NoSequence o) : PhaseChecked i s o :=
  ⟨fun h' => absurd (h.symm.trans h') (by decide), fun _ => ho⟩

/-- A command whose first check is its phase condition, and which raises SEQUENCE nowhere else. -/
theorem PhaseChecked.of_check {p : Prop} [Decidable p] {b : Out} (hp : phaseAllows i s = false ↔ p)
    (hb : NoSequence b) : PhaseChecked i s (if p then fail .sequence i s else b) := by
  refine ⟨fun h => if_pos (hp.1 h), fun h => ?_⟩
  rw [if_neg fun h' => Bool.false_ne_true ((hp.2 h').symm.trans h)]
  exact hb

/-- A command that cannot raise SEQUENCE (R251) has no phase condition (R253). -/
theorem phaseAllows_of_not_raisedBy (h : raisedBy .sequence i = false) : phaseAllows i s = true := by
  cases i with
  | ldsym _ _ | build | assign | ctclr | ctset _ | encbyte _ | encend | trclr | trins _ | decbyte _ => cases h
  | _ => rfl

variable (hf : s.latch.fatal = false)
include hf

theorem NoSequence.of_latch {t : State} (h : t.latch = s.latch) : NoSequence (.next t) := by
  intro u hu hfatal
  cases hu
  rw [h, hf] at hfatal
  cases hfatal

theorem NoSequence.of_fail {c : Cause} (hc : c ≠ .sequence) : NoSequence (fail c i s) := by
  intro t ht _
  rw [fail_of_clear c i hf] at ht
  cases ht
  exact hc

theorem NoSequence.of_withTb (r : Except Fault TbState) : NoSequence (withTb s r) := by
  cases r with
  | ok tb => exact .of_latch hf rfl
  | error f => exact nofun

theorem PhaseChecked.of_classW (hw : i.wellFormed = true) {body : Out} (hb : PhaseChecked i s body) :
    PhaseChecked i s (classW i s body) := by
  rwa [classW_run hw hf]

/-- A command that cannot raise SEQUENCE does not (R251). -/
theorem noSequence_of_not_raisedBy (hw : i.wellFormed = true) (h : raisedBy .sequence i = false) :
    NoSequence (exec i s) := by
  intro t ht hfatal
  rcases exec_latch_cases ht with ⟨-, rfl⟩ | hl | ⟨c, hc, rfl⟩ | ⟨hillegal, -⟩
  · cases hfatal
  · rw [hl, hf] at hfatal; cases hfatal
  · rw [raiseFatal_of_clear c _ hf]
    rintro rfl
    exact Bool.false_ne_true (h.symm.trans hc)
  · exact absurd (hw.symm.trans hillegal) (by decide)

theorem execAssign_phaseChecked : PhaseChecked .assign s (execAssign s) := by
  refine .of_classW hf rfl ?_
  rw [← ite_or]
  refine .of_check (by simp [phaseAllows, imp_iff_not_or]) ?_
  split
  · exact .of_latch hf rfl
  · exact nofun

theorem execEncbyte_phaseChecked (b : Byte) : PhaseChecked (.encbyte b) s (execEncbyte b s) := by
  refine .of_classW hf rfl (.of_check (by simp [phaseAllows]) ?_)
  split
  · exact .of_fail hf (by decide)
  · exact .of_latch hf (pushCodeword_latch _ s)

theorem execEncend_phaseChecked : PhaseChecked .encend s (execEncend s) := by
  refine .of_classW hf rfl (.of_check (by simp [phaseAllows]) ?_)
  split
  · exact .of_fail hf (by decide)
  · exact .of_latch hf (by simp)

theorem execTrins_phaseChecked {sym : Sym} (hw : (Instr.trins sym).wellFormed = true) :
    PhaseChecked (.trins sym) s (execTrins sym s) := by
  refine .of_classW hf hw (.of_check (by simp [phaseAllows]) (.of_ite (.of_fail hf (by decide)) ?_))
  split
  · exact .of_fail hf (by decide)
  · exact .of_ite (.of_fail hf (by decide)) (.of_latch hf rfl)

/-- In DECBYTE the phase selects the branch. -/
theorem execDecbyte_phaseChecked (b : Byte) : PhaseChecked (.decbyte b) s (execDecbyte b s) := by
  refine .of_classW hf rfl ?_
  split
  · next hidle => exact ⟨fun _ => rfl, fun h => by simp [phaseAllows, hidle] at h⟩
  · next hdone => exact .of_allowed (by simp [phaseAllows, hdone]) (.of_latch hf rfl)
  · next hrun =>
    exact .of_allowed (by simp [phaseAllows, hrun]) (.of_ite (.of_fail hf (by decide)) (.of_latch hf (by simp)))

/-- Every command with legal operands checks its phase condition first and raises SEQUENCE for nothing else. -/
theorem exec_phaseChecked (hw : i.wellFormed = true) : PhaseChecked i s (exec i s) := by
  cases i with
  | ldsym sym cnt =>
    exact .of_classW hf hw (.of_check (by simp [phaseAllows])
      (.of_ite (.of_fail hf (by decide)) (.of_ite (.of_fail hf (by decide)) (.of_withTb hf _))))
  | build =>
    exact .of_classW hf hw (.of_check (by simp [phaseAllows]) (.of_ite (.of_fail hf (by decide)) (.of_withTb hf _)))
  | assign => exact execAssign_phaseChecked hf
  | ctclr => exact .of_classW hf hw (.of_check (by simp [phaseAllows]) (.of_latch hf rfl))
  | ctset sym =>
    exact .of_classW hf hw (.of_check (by simp [phaseAllows]) (.of_ite (.of_fail hf (by decide)) (.of_latch hf rfl)))
  | encbyte b => exact execEncbyte_phaseChecked hf b
  | encend => exact execEncend_phaseChecked hf
  | trclr => exact .of_classW hf hw (.of_check (by simp [phaseAllows]) (.of_latch hf rfl))
  | trins sym => exact execTrins_phaseChecked hf hw
  | decbyte b => exact execDecbyte_phaseChecked hf b
  | _ => exact .of_allowed (phaseAllows_of_not_raisedBy rfl) (noSequence_of_not_raisedBy hf hw rfl)

end

/-- Settles O18: a fault out of phase is fault entry with SEQUENCE, which writes the latch only. -/
theorem sequenceFaultsExactlyOutsideThePhase : Obligations.SequenceFaultsExactlyOutsideThePhase := by
  intro s i hw hf
  obtain ⟨hout, hin⟩ := exec_phaseChecked hf hw
  exact ⟨fun h => (hout h).trans (fail_of_clear .sequence i hf), hin⟩

end Sys2Proof.Machine
